-- ==== Sys2Proof/Word.lean ====
section
/-! DEFINITION. The word types of the MIC-1 core (00_scope.md R8 to R10). -/

namespace Sys2Proof

/-- A 16-bit pattern: registers, memory cells, latches, machine words (R8 `W`, R10). -/
abbrev Word := BitVec 16

/-- A 12-bit memory address (R8 `AW`, R60). -/
abbrev Addr := BitVec 12

/-- A 32-bit microinstruction word, one entry of the control store (R8 `MW`, R96). -/
abbrev MicroWord := BitVec 32

/-- An 8-bit control-store address: MPC and the ADDR field (R8 `MPCW`, R27, R103). -/
abbrev MicroAddr := BitVec 8

end Sys2Proof
end

