-- ==== Sys2Proof/Config.lean ====
section
/-! DEFINITION. The parameters of the core (00_scope.md R8): the fixed ones as constants, RSHIFT_MODE as
an opaque constant, SP_RESET as the argument of `Machine.State.resetWith`, whose value in
`Machine.State.reset` is `Config.spReset`. -/

namespace Sys2Proof

/-- The two right-shift kinds the open parameter RSHIFT_MODE ranges over (R140). -/
inductive RShiftMode where
  | arithmetic
  | logical
deriving DecidableEq, Repr, Inhabited

namespace Config

/-- R8 `THRESH`: an access completes when its counter has reached this (R65). -/
def threshold : Nat := 2

/-- R8 `CS_SIZE`: the number of control-store entries (R200). -/
def csSize : Nat := 79

/-- R8 `MEMW`: the number of memory words (R60). -/
def memWords : Nat := 4096

/-- R8 `RSHIFT_MODE`, which the spec leaves OPEN: no body, so that nothing can be proved of which mode
it is. Assumption log entry 6. -/
opaque rshiftMode : RShiftMode

/-- DESIGN CHOICE (log entry 1, unsafe): the value of the OPEN parameter SP_RESET (R8, R460) in
`Machine.State.reset`, the one the spec's own test vectors start from (95_test_vectors.md, conventions).
Statements about reset are made of `Machine.State.resetWith` at every value. -/
def spReset : Word := 0x0FFF#16

end Config

end Sys2Proof
end

