-- ==== Sys2Proof/Syntax.lean ====
section
/-! DEFINITION. The instructions: one constructor of `Instr` per row of spec/opcode_table.json, and the
fields of a microinstruction (30_encoding.md R91 to R103). -/

namespace Sys2Proof

/-- The 16 registers by the names of 10_state.md R20, in index order 0 to 15. -/
inductive Reg where
  | pc | ac | sp | ir | tir | zero | pone | mone | amask | smask | a | b | c | d | e | f
deriving DecidableEq, Repr

/-- ALU operation selector (R99). -/
inductive AluOp where
  | add | and | passA | notA
deriving DecidableEq, Repr

/-- Shifter operation selector (R100); code 3 is reserved. -/
inductive ShiftOp where
  | identity | right1 | left1 | reserved
deriving DecidableEq, Repr

/-- Condition selector (R98). -/
inductive Cond where
  | unconditional | ifN | ifZ | always
deriving DecidableEq, Repr

/-- A-input multiplexer selector (R97). -/
inductive AmuxSel where
  | alat | mbr
deriving DecidableEq, Repr

/-- The 13 fields of one microinstruction (R96), in word order. -/
structure MicroFields where
  amux : AmuxSel
  cond : Cond
  alu : AluOp
  sh : ShiftOp
  mbr : Bool
  mar : Bool
  rd : Bool
  wr : Bool
  enc : Bool
  c : Reg
  b : Reg
  a : Reg
  addr : MicroAddr
deriving DecidableEq, Repr

/-- One constructor per row of the opcode table.
The first 24 are the macro-instructions (R91 to R93) and HALT (R115).
The other 19 are the field values of the microinstruction word (R96 to R103), each the operation its own
rule gives; a microinstruction is a bundle of them (`MicroFields`). -/
inductive Instr where
  -- 43_macro_memory_arith.md
  | lodd (x : BitVec 12)
  | stod (x : BitVec 12)
  | addd (x : BitVec 12)
  | subd (x : BitVec 12)
  -- 44_macro_control.md
  | jpos (x : BitVec 12)
  | jzer (x : BitVec 12)
  | jump (x : BitVec 12)
  | loco (x : BitVec 12)
  | lodl (x : BitVec 12)
  | stol (x : BitVec 12)
  | addl (x : BitVec 12)
  | subl (x : BitVec 12)
  | jneg (x : BitVec 12)
  | jnze (x : BitVec 12)
  | call (x : BitVec 12)
  /-- The assembler's HALT at position `p` (R115): the word of `jump p`. -/
  | halt (p : BitVec 12)
  -- 45_macro_stack.md, and RETN of 44_macro_control.md
  | pshi
  | popi
  | push
  | pop
  | retn
  | swap
  | insp (y : BitVec 8)
  | desp (y : BitVec 8)
  -- 40_datapath.md and 41_microsequencer.md
  | aluAdd
  | aluAnd
  | aluPassA
  | aluNotA
  | shIdentity
  | shRight1
  | shLeft1
  | shReserved
  | amuxAlat
  | amuxMbr
  | condUnconditional (addr : MicroAddr)
  | condIfN (addr : MicroAddr)
  | condIfZ (addr : MicroAddr)
  | condAlways (addr : MicroAddr)
  | marLatch
  | mbrLatch
  | rdBeginRead
  | wrBeginWrite
  | encWriteback (dst : Reg)
deriving DecidableEq, Repr

end Sys2Proof
end

