-- ==== Sys2Proof/WellFormed.lean ====
section
/-! DEFINITION. Well-formed instructions, microinstructions and control stores (30_encoding.md R100, R103,
R106). -/

namespace Sys2Proof

/-- A control-store address names an entry (R103). -/
def microAddrWf (addr : MicroAddr) : Bool := decide (addr.toNat < Config.csSize)

/-- An instruction is well formed. The operand widths are in the types (R112), so only the reserved
shifter code (R100) and branch targets outside the control store (R103) are left to refuse. -/
def Instr.wellFormed : Instr → Bool
  | .lodd _ | .stod _ | .addd _ | .subd _ | .jpos _ | .jzer _ | .jump _ | .loco _ | .lodl _ | .stol _
  | .addl _ | .subl _ | .jneg _ | .jnze _ | .call _ | .halt _ => true
  | .pshi | .popi | .push | .pop | .retn | .swap => true
  | .insp _ | .desp _ => true
  | .aluAdd | .aluAnd | .aluPassA | .aluNotA => true
  | .shIdentity | .shRight1 | .shLeft1 => true
  | .shReserved => false
  | .amuxAlat | .amuxMbr => true
  | .condUnconditional addr | .condIfN addr | .condIfZ addr | .condAlways addr => microAddrWf addr
  | .marLatch | .mbrLatch | .rdBeginRead | .wrBeginWrite => true
  | .encWriteback _ => true

/-- The instruction is one of the macro level (R90): a 16-bit word of its own. -/
def Instr.isMacroLevel : Instr → Bool
  | .lodd _ | .stod _ | .addd _ | .subd _ | .jpos _ | .jzer _ | .jump _ | .loco _ | .lodl _ | .stol _
  | .addl _ | .subl _ | .jneg _ | .jnze _ | .call _ | .halt _ => true
  | .pshi | .popi | .push | .pop | .retn | .swap => true
  | .insp _ | .desp _ => true
  | .aluAdd | .aluAnd | .aluPassA | .aluNotA => false
  | .shIdentity | .shRight1 | .shLeft1 | .shReserved => false
  | .amuxAlat | .amuxMbr => false
  | .condUnconditional _ | .condIfN _ | .condIfZ _ | .condAlways _ => false
  | .marLatch | .mbrLatch | .rdBeginRead | .wrBeginWrite => false
  | .encWriteback _ => false

/-- The next addresses the entry at address `own` can produce all name an entry (R106). -/
def MicroFields.nextInRange (own : Nat) (f : MicroFields) : Bool :=
  match f.cond with
  | .unconditional | .always => microAddrWf f.addr
  | .ifN | .ifZ => microAddrWf f.addr && decide (own + 1 < Config.csSize)

/-- R106 for one entry at address `own`. -/
def MicroFields.wellFormedAt (own : Nat) (f : MicroFields) : Bool :=
  decide (f.sh ≠ .reserved) && f.nextInRange own

end Sys2Proof
end

