-- ==== Sys2Proof/Decode.lean ====
section
/-! DEFINITION. The decoders, total on every word, and the encoders beside them (30_encoding.md R90 to R105,
R114; the control-store decoder of 41_microsequencer.md R172). -/

namespace Sys2Proof

/-! ### Macro-instruction words -/

/-- R95: the macro routine that the decode tree selects for a word. Bits 8:0 of format F and bit 8 of
format S are ignored (R105). -/
def decodeMacro (w : Word) : Instr :=
  let x : BitVec 12 := w.extractLsb' 0 12
  let y : BitVec 8 := w.extractLsb' 0 8
  match (w.extractLsb' 12 4).toNat with
  | 0 => .lodd x
  | 1 => .stod x
  | 2 => .addd x
  | 3 => .subd x
  | 4 => .jpos x
  | 5 => .jzer x
  | 6 => .jump x
  | 7 => .loco x
  | 8 => .lodl x
  | 9 => .stol x
  | 10 => .addl x
  | 11 => .subl x
  | 12 => .jneg x
  | 13 => .jnze x
  | 14 => .call x
  | _ =>
    match (w.extractLsb' 9 3).toNat with
    | 0 => .pshi
    | 1 => .popi
    | 2 => .push
    | 3 => .pop
    | 4 => .retn
    | 5 => .swap
    | 6 => .insp y
    | _ => .desp y

/-- R104: the word is one the assembler can produce. -/
def isCanonicalWord (w : Word) : Bool :=
  match (w.extractLsb' 12 4).toNat with
  | 15 =>
    if 6 ≤ (w.extractLsb' 9 3).toNat then decide ((w.extractLsb' 8 1).toNat = 0)
    else decide ((w.extractLsb' 0 9).toNat = 0)
  | _ => true

/-! ### The microinstruction word -/

/-- The register a 4-bit selector names (R102, numbering of 10_state.md R20). -/
def Reg.ofCode (v : BitVec 4) : Reg :=
  match v.toNat with
  | 0 => .pc
  | 1 => .ac
  | 2 => .sp
  | 3 => .ir
  | 4 => .tir
  | 5 => .zero
  | 6 => .pone
  | 7 => .mone
  | 8 => .amask
  | 9 => .smask
  | 10 => .a
  | 11 => .b
  | 12 => .c
  | 13 => .d
  | 14 => .e
  | _ => .f

/-- The 4-bit selector of a register (R102). -/
def Reg.code : Reg → BitVec 4
  | .pc => 0#4
  | .ac => 1#4
  | .sp => 2#4
  | .ir => 3#4
  | .tir => 4#4
  | .zero => 5#4
  | .pone => 6#4
  | .mone => 7#4
  | .amask => 8#4
  | .smask => 9#4
  | .a => 10#4
  | .b => 11#4
  | .c => 12#4
  | .d => 13#4
  | .e => 14#4
  | .f => 15#4

/-- R99. -/
def AluOp.ofCode (v : BitVec 2) : AluOp :=
  match v.toNat with
  | 0 => .add
  | 1 => .and
  | 2 => .passA
  | _ => .notA

/-- R99. -/
def AluOp.code : AluOp → BitVec 2
  | .add => 0#2
  | .and => 1#2
  | .passA => 2#2
  | .notA => 3#2

/-- R100. -/
def ShiftOp.ofCode (v : BitVec 2) : ShiftOp :=
  match v.toNat with
  | 0 => .identity
  | 1 => .right1
  | 2 => .left1
  | _ => .reserved

/-- R100. -/
def ShiftOp.code : ShiftOp → BitVec 2
  | .identity => 0#2
  | .right1 => 1#2
  | .left1 => 2#2
  | .reserved => 3#2

/-- R98. -/
def Cond.ofCode (v : BitVec 2) : Cond :=
  match v.toNat with
  | 0 => .unconditional
  | 1 => .ifN
  | 2 => .ifZ
  | _ => .always

/-- R98. -/
def Cond.code : Cond → BitVec 2
  | .unconditional => 0#2
  | .ifN => 1#2
  | .ifZ => 2#2
  | .always => 3#2

/-- R97. -/
def AmuxSel.ofCode (v : BitVec 1) : AmuxSel :=
  match v.toNat with
  | 0 => .alat
  | _ => .mbr

/-- R97. -/
def AmuxSel.code : AmuxSel → BitVec 1
  | .alat => 0#1
  | .mbr => 1#1

/-- The control-store decoder: the 13 fields of a word (R96, R172). -/
def decodeMicro (w : MicroWord) : MicroFields where
  amux := AmuxSel.ofCode (w.extractLsb' 31 1)
  cond := Cond.ofCode (w.extractLsb' 29 2)
  alu := AluOp.ofCode (w.extractLsb' 27 2)
  sh := ShiftOp.ofCode (w.extractLsb' 25 2)
  mbr := w.getLsbD 24
  mar := w.getLsbD 23
  rd := w.getLsbD 22
  wr := w.getLsbD 21
  enc := w.getLsbD 20
  c := Reg.ofCode (w.extractLsb' 16 4)
  b := Reg.ofCode (w.extractLsb' 12 4)
  a := Reg.ofCode (w.extractLsb' 8 4)
  addr := w.extractLsb' 0 8

/-- R106: a control store of 79 words is well formed. -/
def controlStoreWf (cs : List MicroWord) : Bool :=
  decide (cs.length = Config.csSize) &&
    cs.zipIdx.all fun p => (decodeMicro p.1).wellFormedAt p.2

/-! ### A microinstruction as a bundle of table rows -/

/-- The multiplexer operation a microinstruction selects (R97). -/
def MicroFields.amuxInstr (f : MicroFields) : Instr :=
  match f.amux with
  | .alat => .amuxAlat
  | .mbr => .amuxMbr

/-- The ALU operation a microinstruction selects (R99). -/
def MicroFields.aluInstr (f : MicroFields) : Instr :=
  match f.alu with
  | .add => .aluAdd
  | .and => .aluAnd
  | .passA => .aluPassA
  | .notA => .aluNotA

/-- The shifter operation a microinstruction selects (R100). -/
def MicroFields.shiftInstr (f : MicroFields) : Instr :=
  match f.sh with
  | .identity => .shIdentity
  | .right1 => .shRight1
  | .left1 => .shLeft1
  | .reserved => .shReserved

/-- The condition a microinstruction selects (R98), with its ADDR field (R103). -/
def MicroFields.condInstr (f : MicroFields) : Instr :=
  match f.cond with
  | .unconditional => .condUnconditional f.addr
  | .ifN => .condIfN f.addr
  | .ifZ => .condIfZ f.addr
  | .always => .condAlways f.addr

/-- The one table row under which a whole microinstruction word is reported: the first selector, in word
order, that is not at code 0, a reserved shifter code before all others (it faults in phase 1).
DESIGN CHOICE (log entry 11). The machine does not use it: it runs the whole bundle. -/
def MicroFields.leadInstr (f : MicroFields) : Instr :=
  if f.sh = .reserved then .shReserved
  else if f.amux ≠ .alat then f.amuxInstr
  else if f.cond ≠ .unconditional then f.condInstr
  else if f.alu ≠ .add then f.aluInstr
  else if f.sh ≠ .identity then f.shiftInstr
  else if f.mbr then .mbrLatch
  else if f.mar then .marLatch
  else if f.rd then .rdBeginRead
  else if f.wr then .wrBeginWrite
  else if f.enc then .encWriteback f.c
  else if f.addr ≠ 0#8 then f.condInstr
  else .aluAdd

/-! ### The decoder over both levels -/

/-- A code word of one of the two levels (R2): 16 bits or 32 bits. -/
inductive CodeWord where
  | macroWord (w : Word)
  | microWord (w : MicroWord)
deriving DecidableEq, Repr

/-- The instruction of a code word: the routine of a macro word (R95), the lead row of a microinstruction
word. No word is refused (R105). -/
def decode : CodeWord → Instr
  | .macroWord w => decodeMacro w
  | .microWord w => (decodeMicro w).leadInstr

/-- A word given by the number of bits the opcode table gives its row: up to 16 bits a macro word, up to
32 bits a microinstruction word (its bits above `nbits` are 0); nothing longer or empty exists. -/
def tableCodeWord (nbits w : Nat) : Option CodeWord :=
  if nbits = 0 then none
  else if nbits ≤ 16 then some (.macroWord (BitVec.ofNat 16 w))
  else if nbits ≤ 32 then some (.microWord (BitVec.ofNat 32 w))
  else none

/-- The instruction the decoder reads from an opcode-table word. -/
def decodeTableWord (nbits w : Nat) : Option Instr :=
  (tableCodeWord nbits w).map decode

/-! ### The encoders -/

/-- Format A: `{opcode4, x[11:0]}` (R91, R114). -/
def encodeA (op : BitVec 4) (x : BitVec 12) : Word := op ++ x

/-- Format S: `{opcode8, y[7:0]}` (R92, R114). -/
def encodeS (op : BitVec 8) (y : BitVec 8) : Word := op ++ y

/-- R96: the word of the 13 fields. -/
def encodeMicro (f : MicroFields) : MicroWord :=
  f.amux.code ++ f.cond.code ++ f.alu.code ++ f.sh.code ++ BitVec.ofBool f.mbr ++ BitVec.ofBool f.mar ++
    BitVec.ofBool f.rd ++ BitVec.ofBool f.wr ++ BitVec.ofBool f.enc ++ f.c.code ++ f.b.code ++ f.a.code ++
    f.addr

/-- The fields of a microinstruction that asserts nothing: every selector at code 0 (R97 to R103). -/
def MicroFields.blank : MicroFields where
  amux := .alat
  cond := .unconditional
  alu := .add
  sh := .identity
  mbr := false
  mar := false
  rd := false
  wr := false
  enc := false
  c := .pc
  b := .pc
  a := .pc
  addr := 0#8

/-- The fields of the microinstruction that asserts the one micro row `i` and is blank elsewhere (the
row's `match` in the opcode table); blank for a macro row. -/
def Instr.soleFields : Instr → MicroFields
  | .aluAdd => { MicroFields.blank with alu := .add }
  | .aluAnd => { MicroFields.blank with alu := .and }
  | .aluPassA => { MicroFields.blank with alu := .passA }
  | .aluNotA => { MicroFields.blank with alu := .notA }
  | .shIdentity => { MicroFields.blank with sh := .identity }
  | .shRight1 => { MicroFields.blank with sh := .right1 }
  | .shLeft1 => { MicroFields.blank with sh := .left1 }
  | .shReserved => { MicroFields.blank with sh := .reserved }
  | .amuxAlat => { MicroFields.blank with amux := .alat }
  | .amuxMbr => { MicroFields.blank with amux := .mbr }
  | .condUnconditional addr => { MicroFields.blank with cond := .unconditional, addr := addr }
  | .condIfN addr => { MicroFields.blank with cond := .ifN, addr := addr }
  | .condIfZ addr => { MicroFields.blank with cond := .ifZ, addr := addr }
  | .condAlways addr => { MicroFields.blank with cond := .always, addr := addr }
  | .marLatch => { MicroFields.blank with mar := true }
  | .mbrLatch => { MicroFields.blank with mbr := true }
  | .rdBeginRead => { MicroFields.blank with rd := true }
  | .wrBeginWrite => { MicroFields.blank with wr := true }
  | .encWriteback dst => { MicroFields.blank with enc := true, c := dst }
  | .lodd _ | .stod _ | .addd _ | .subd _ | .jpos _ | .jzer _ | .jump _ | .loco _ | .lodl _ | .stol _
  | .addl _ | .subl _ | .jneg _ | .jnze _ | .call _ | .halt _ => MicroFields.blank
  | .pshi | .popi | .push | .pop | .retn | .swap => MicroFields.blank
  | .insp _ | .desp _ => MicroFields.blank

/-- The word of an instruction (R91 to R93, R96, R114, R115). -/
def encode : Instr → CodeWord
  | .lodd x => .macroWord (encodeA 0x0#4 x)
  | .stod x => .macroWord (encodeA 0x1#4 x)
  | .addd x => .macroWord (encodeA 0x2#4 x)
  | .subd x => .macroWord (encodeA 0x3#4 x)
  | .jpos x => .macroWord (encodeA 0x4#4 x)
  | .jzer x => .macroWord (encodeA 0x5#4 x)
  | .jump x => .macroWord (encodeA 0x6#4 x)
  | .loco x => .macroWord (encodeA 0x7#4 x)
  | .lodl x => .macroWord (encodeA 0x8#4 x)
  | .stol x => .macroWord (encodeA 0x9#4 x)
  | .addl x => .macroWord (encodeA 0xA#4 x)
  | .subl x => .macroWord (encodeA 0xB#4 x)
  | .jneg x => .macroWord (encodeA 0xC#4 x)
  | .jnze x => .macroWord (encodeA 0xD#4 x)
  | .call x => .macroWord (encodeA 0xE#4 x)
  | .halt p => .macroWord (encodeA 0x6#4 p)
  | .pshi => .macroWord 0xF000#16
  | .popi => .macroWord 0xF200#16
  | .push => .macroWord 0xF400#16
  | .pop => .macroWord 0xF600#16
  | .retn => .macroWord 0xF800#16
  | .swap => .macroWord 0xFA00#16
  | .insp y => .macroWord (encodeS 0xFC#8 y)
  | .desp y => .macroWord (encodeS 0xFE#8 y)
  | .aluAdd => .microWord (encodeMicro Instr.aluAdd.soleFields)
  | .aluAnd => .microWord (encodeMicro Instr.aluAnd.soleFields)
  | .aluPassA => .microWord (encodeMicro Instr.aluPassA.soleFields)
  | .aluNotA => .microWord (encodeMicro Instr.aluNotA.soleFields)
  | .shIdentity => .microWord (encodeMicro Instr.shIdentity.soleFields)
  | .shRight1 => .microWord (encodeMicro Instr.shRight1.soleFields)
  | .shLeft1 => .microWord (encodeMicro Instr.shLeft1.soleFields)
  | .shReserved => .microWord (encodeMicro Instr.shReserved.soleFields)
  | .amuxAlat => .microWord (encodeMicro Instr.amuxAlat.soleFields)
  | .amuxMbr => .microWord (encodeMicro Instr.amuxMbr.soleFields)
  | .condUnconditional addr => .microWord (encodeMicro (Instr.condUnconditional addr).soleFields)
  | .condIfN addr => .microWord (encodeMicro (Instr.condIfN addr).soleFields)
  | .condIfZ addr => .microWord (encodeMicro (Instr.condIfZ addr).soleFields)
  | .condAlways addr => .microWord (encodeMicro (Instr.condAlways addr).soleFields)
  | .marLatch => .microWord (encodeMicro Instr.marLatch.soleFields)
  | .mbrLatch => .microWord (encodeMicro Instr.mbrLatch.soleFields)
  | .rdBeginRead => .microWord (encodeMicro Instr.rdBeginRead.soleFields)
  | .wrBeginWrite => .microWord (encodeMicro Instr.wrBeginWrite.soleFields)
  | .encWriteback dst => .microWord (encodeMicro (Instr.encWriteback dst).soleFields)

/-- The 16-bit pattern of an instruction of the macro level; a micro row has none, and 0 stands for it. -/
def macroPattern (i : Instr) : Word :=
  match encode i with
  | .macroWord w => w
  | .microWord _ => 0#16

end Sys2Proof
end

