-- ==== Sys2Proof/Machine/ControlStore.lean ====
section
/-! DEFINITION. The decided control store: the 79 words of 42_control_store.md R201, in address order, each
with the micro-assembly of the table as its comment. -/

namespace Sys2Proof.Machine

/-- Entries 0 to 5 of R201. -/
def fetchDecodeEntries : List MicroWord :=
  [ 0x10C00001#32,  -- 0: mar:=pc; rd (fetch)
    0x00506002#32,  -- 1: pc:=pc+1; rd (fetch)
    0xB013001C#32,  -- 2: ir:=mbr; if n then goto 28 (fetch/decode b15)
    0x24143313#32,  -- 3: tir:=lshift(ir+ir); if n then goto 19 (decode b14)
    0x3414040B#32,  -- 4: tir:=lshift(tir); if n then goto 11 (decode b13)
    0x30000409#32 ]  -- 5: alu:=tir; if n then goto 9 (decode b12)

/-- Entries 6 to 18 of R201. -/
def directEntries : List MicroWord :=
  [ 0x10C03007#32,  -- 6: mar:=ir; rd (LODD)
    0x10400008#32,  -- 7: rd (shared read tail)
    0xF0110000#32,  -- 8: ac:=mbr; goto 0 (shared: AC := MBR)
    0x11A0310A#32,  -- 9: mar:=ir; mbr:=ac; wr (STOD)
    0x70200000#32,  -- 10: wr; goto 0 (shared write tail)
    0x3000040F#32,  -- 11: alu:=tir; if n then goto 15 (decode b12)
    0x10C0300D#32,  -- 12: mar:=ir; rd (ADDD)
    0x1040000E#32,  -- 13: rd (shared read tail)
    0xE0111000#32,  -- 14: ac:=mbr+ac; goto 0 (shared: AC := MBR + AC)
    0x10C03010#32,  -- 15: mar:=ir; rd (SUBD)
    0x00516111#32,  -- 16: ac:=ac+1; rd (shared SUB tail)
    0x981A0012#32,  -- 17: a:=inv(mbr) (shared SUB tail)
    0x6011A100#32 ]  -- 18: ac:=ac+a; goto 0 (shared SUB tail)

/-- Entries 19 to 27 of R201. -/
def lowBranchEntries : List MicroWord :=
  [ 0x34140419#32,  -- 19: tir:=lshift(tir); if n then goto 25 (decode b13)
    0x30000417#32,  -- 20: alu:=tir; if n then goto 23 (decode b12)
    0x30000100#32,  -- 21: alu:=ac; if n then goto 0 (JPOS)
    0x68108300#32,  -- 22: pc:=band(ir,amask); goto 0 (shared jump tail)
    0x50000116#32,  -- 23: alu:=ac; if z then goto 22 (JZER)
    0x70000000#32,  -- 24: goto 0 (JZER not taken)
    0x3000041B#32,  -- 25: alu:=tir; if n then goto 27 (decode b12)
    0x68108300#32,  -- 26: pc:=band(ir,amask); goto 0 (JUMP)
    0x68118300#32 ]  -- 27: ac:=band(ir,amask); goto 0 (LOCO)

/-- Entries 28 to 39 of R201. -/
def localAccessEntries : List MicroWord :=
  [ 0x24143328#32,  -- 28: tir:=lshift(ir+ir); if n then goto 40 (decode b14)
    0x34140423#32,  -- 29: tir:=lshift(tir); if n then goto 35 (decode b13)
    0x30000421#32,  -- 30: alu:=tir; if n then goto 33 (decode b12)
    0x001A2320#32,  -- 31: a:=ir+sp (LODL)
    0x70C0A007#32,  -- 32: mar:=a; rd; goto 7 (LODL)
    0x001A2322#32,  -- 33: a:=ir+sp (STOL)
    0x71A0A10A#32,  -- 34: mar:=a; mbr:=ac; wr; goto 10 (STOL)
    0x30000426#32,  -- 35: alu:=tir; if n then goto 38 (decode b12)
    0x001A2325#32,  -- 36: a:=ir+sp (ADDL)
    0x70C0A00D#32,  -- 37: mar:=a; rd; goto 13 (ADDL)
    0x001A2327#32,  -- 38: a:=ir+sp (SUBL)
    0x70C0A010#32 ]  -- 39: mar:=a; rd; goto 16 (SUBL)

/-- Entries 40 to 49 of R201. -/
def highBranchEntries : List MicroWord :=
  [ 0x3414042E#32,  -- 40: tir:=lshift(tir); if n then goto 46 (decode b13)
    0x3000042C#32,  -- 41: alu:=tir; if n then goto 44 (decode b12)
    0x30000116#32,  -- 42: alu:=ac; if n then goto 22 (JNEG)
    0x70000000#32,  -- 43: goto 0 (JNEG not taken)
    0x50000100#32,  -- 44: alu:=ac; if z then goto 0 (JNZE)
    0x68108300#32,  -- 45: pc:=band(ir,amask); goto 0 (JNZE taken)
    0x34140432#32,  -- 46: tir:=lshift(tir); if n then goto 50 (decode b12)
    0x00127230#32,  -- 47: sp:=sp+(-1) (CALL)
    0x11A02031#32,  -- 48: mar:=sp; mbr:=pc; wr (CALL)
    0x68308300#32 ]  -- 49: pc:=band(ir,amask); wr; goto 0 (CALL)

/-- Entries 50 to 58 of R201. -/
def stackIndirectEntries : List MicroWord :=
  [ 0x34140441#32,  -- 50: tir:=lshift(tir); if n then goto 65 (decode b11)
    0x3414043B#32,  -- 51: tir:=lshift(tir); if n then goto 59 (decode b10)
    0x30000438#32,  -- 52: alu:=tir; if n then goto 56 (decode b9)
    0x10C01036#32,  -- 53: mar:=ac; rd (PSHI)
    0x00527237#32,  -- 54: sp:=sp+(-1); rd (PSHI)
    0x70A0200A#32,  -- 55: mar:=sp; wr; goto 10 (PSHI)
    0x00D22639#32,  -- 56: mar:=sp; sp:=sp+1; rd (POPI)
    0x1040003A#32,  -- 57: rd (POPI)
    0x70A0100A#32 ]  -- 58: mar:=ac; wr; goto 10 (POPI)

/-- Entries 59 to 64 of R201. -/
def stackDirectEntries : List MicroWord :=
  [ 0x3000043E#32,  -- 59: alu:=tir; if n then goto 62 (decode b9)
    0x0012723D#32,  -- 60: sp:=sp+(-1) (PUSH)
    0x71A0210A#32,  -- 61: mar:=sp; mbr:=ac; wr; goto 10 (PUSH)
    0x00D2263F#32,  -- 62: mar:=sp; sp:=sp+1; rd (POP)
    0x10400040#32,  -- 63: rd (POP)
    0xF0110000#32 ]  -- 64: ac:=mbr; goto 0 (POP)

/-- Entries 65 to 72 of R201. -/
def returnSwapEntries : List MicroWord :=
  [ 0x34140449#32,  -- 65: tir:=lshift(tir); if n then goto 73 (decode b10)
    0x30000446#32,  -- 66: alu:=tir; if n then goto 70 (decode b9)
    0x00D22644#32,  -- 67: mar:=sp; sp:=sp+1; rd (RETN)
    0x10400045#32,  -- 68: rd (RETN)
    0xF0100000#32,  -- 69: pc:=mbr; goto 0 (RETN)
    0x101A0147#32,  -- 70: a:=ac (SWAP)
    0x10110248#32,  -- 71: ac:=sp (SWAP)
    0x70120A00#32 ]  -- 72: sp:=a; goto 0 (SWAP)

/-- Entries 73 to 78 of R201. -/
def adjustEntries : List MicroWord :=
  [ 0x3000044C#32,  -- 73: alu:=tir; if n then goto 76 (decode b9)
    0x081A934B#32,  -- 74: a:=band(ir,smask) (INSP)
    0x6012A200#32,  -- 75: sp:=sp+a; goto 0 (shared: SP := SP + A)
    0x081A934D#32,  -- 76: a:=band(ir,smask) (DESP)
    0x181A0A4E#32,  -- 77: a:=inv(a) (DESP)
    0x601A6A4B#32 ]  -- 78: a:=a+1; goto 75 (DESP)

/-- R201: the control store the spec decides on (R200). -/
def decidedStore : List MicroWord :=
  fetchDecodeEntries ++ directEntries ++ lowBranchEntries ++ localAccessEntries ++
    highBranchEntries ++ stackIndirectEntries ++ stackDirectEntries ++ returnSwapEntries ++ adjustEntries

end Sys2Proof.Machine
end

