-- ==== Sys2Proof/Machine/State.lean ====
section
/-! DEFINITION. The state of the core as plain data (10_state.md R20 to R40), its faults (60_exceptions.md
R420) and its reset value (70_reset_and_hazards.md R460). -/

namespace Sys2Proof.Machine

/-- The 16 cells of the register file (10_state.md R20), in index order. None is hard-wired (R22). -/
structure RegFile where
  pc : Word
  ac : Word
  sp : Word
  ir : Word
  tir : Word
  zero : Word
  pone : Word
  mone : Word
  amask : Word
  smask : Word
  a : Word
  b : Word
  c : Word
  d : Word
  e : Word
  f : Word
deriving DecidableEq, Repr

/-- Main memory M (R37): word addresses strictly rising, none beyond 4095, no listed word 0x0000, which is
what an unlisted address reads as (R37: reset zeroes memory). The cell is the hardware's smallest
addressable unit, a 16-bit word (R66, R76; log entry 13). -/
abbrev Mem := List (Nat × Word)

/-- PHASE (R28): the number of the subcycle that comes next. -/
inductive Phase where
  | phase1 | phase2 | phase3 | phase4
deriving DecidableEq, Repr

/-- The direction recorded by fault code 4 (R420). -/
inductive MemDir where
  | read | write
deriving DecidableEq, Repr

/-- The fault reasons of R420. A fault is a value of the FAULT register (R35): the subcycle that raises it
answers a next state that differs in FAULT alone (R421), and from then on `step` answers `.fault` with it. -/
inductive Fault where
  /-- Code 1: phase 1 with `mpc >= CS_SIZE`, raised by `phase1`; safe, as the spec says. -/
  | mpcOutOfRange (mpc : Nat)
  /-- Code 2: phase 1 decoded SH = 3, raised by `execShReserved`; safe, as the spec says. -/
  | reservedShift (mpc : Nat)
  /-- Code 3: phase 4 computed a next address of 79 or more, raised by the four `execCond` meanings; safe,
  as the spec says. -/
  | nextAddressOutOfRange (mpc next : Nat)
  /-- Code 4: an access completed before its counter reached 2. R70: "A model adds no fault for it", because
  the gate is the readiness test itself; nothing in this model raises it. It stands here because FAULT holds
  a reason of R420; safe. -/
  | prematureMemoryAccess (dir : MemDir)
deriving DecidableEq, Repr

/-- No meaning for an instruction. -/
inductive Refusal where
  /-- An arm of `exec` that has no meaning yet; no arm is left. Safe. -/
  | notModelled (mnemonic : String)
deriving DecidableEq, Repr

/-- The advance operations of R431, one of which the host calls next (log entry 5). -/
inductive HostRequest where
  | subcycle | microstep | runMacro
deriving DecidableEq, Repr

/-- The state tuple of R39, then the parameter CS, then the host's data and the model's own fields. -/
structure State where
  /-- x, R20. -/
  regs : RegFile
  /-- MPC, R27. -/
  mpc : MicroAddr
  /-- PHASE, R28. -/
  phase : Phase
  /-- MIR, R29. -/
  mir : Option MicroFields
  /-- N, R26. -/
  flagN : Bool
  /-- Z, R26. -/
  flagZ : Bool
  /-- MAR, R30. -/
  mar : Addr
  /-- MBR, R31. -/
  mbr : Word
  /-- ALAT, R32. -/
  alat : Word
  /-- BLAT, R32. -/
  blat : Word
  /-- ALUOUT, R32. -/
  aluout : Word
  /-- SHOUT, R32. -/
  shout : Word
  /-- MADDR, R33. -/
  maddr : Addr
  /-- RDC, R33. -/
  rdc : Nat
  /-- WRC, R33. -/
  wrc : Nat
  /-- M, R37. -/
  mem : Mem
  /-- CYCLES, R34. -/
  cycles : Nat
  /-- FAULT, R35. -/
  fault : Option Fault
  /-- CS, R36: a parameter of the step relation, written by no step (log entry 3). -/
  cs : List MicroWord
  /-- N_prog, R462: the word count of the last load, the host's bound (R433; log entry 4). -/
  nProg : Nat
  /-- MODEL'S OWN (log entry 2): the A-input multiplexer's output AIN of R131, between step 3 and step 5. -/
  ain : Word
  /-- MODEL'S OWN (log entry 5): the advance operation that the next step performs (R431). -/
  request : HostRequest
deriving DecidableEq, Repr

/-- The register file after reset, for a value of the OPEN parameter SP_RESET (R20, R460). -/
def RegFile.resetWith (spReset : Word) : RegFile where
  pc := 0x0000#16
  ac := 0x0000#16
  sp := spReset
  ir := 0x0000#16
  tir := 0x0000#16
  zero := 0x0000#16
  pone := 0x0001#16
  mone := 0xFFFF#16
  amask := 0x0FFF#16
  smask := 0x00FF#16
  a := 0x0000#16
  b := 0x0000#16
  c := 0x0000#16
  d := 0x0000#16
  e := 0x0000#16
  f := 0x0000#16

/-- The machine right after reset (R460), for a value of SP_RESET (R8: a model argument), with the decided
control store (R200) and nothing loaded. -/
def State.resetWith (spReset : Word) : State where
  regs := RegFile.resetWith spReset
  mpc := 0#8
  phase := .phase1
  mir := none
  flagN := false
  flagZ := false
  mar := 0#12
  mbr := 0x0000#16
  alat := 0x0000#16
  blat := 0x0000#16
  aluout := 0x0000#16
  shout := 0x0000#16
  maddr := 0#12
  rdc := 0
  wrc := 0
  mem := []
  cycles := 0
  fault := none
  cs := decidedStore
  nProg := 0
  ain := 0x0000#16
  request := .runMacro

/-- The machine right after reset, at the value of SP_RESET that log entry 1 names. -/
def State.reset : State := State.resetWith Config.spReset

end Sys2Proof.Machine
end

