-- ==== Sys2Proof/Machine/Operands.lean ====
section
/-! DEFINITION. Operand forms: word conversions (00_scope.md R10), address and constant operands
(30_encoding.md R94), and the registers by name (10_state.md R21 to R24). -/

namespace Sys2Proof.Machine

/-- R10 `to16`: any integer reduced to a 16-bit pattern. -/
def to16 (v : Int) : Word := BitVec.ofInt 16 v

/-- R10 `sgn16`: a pattern read as two's complement. -/
def sgn16 (p : Word) : Int := p.toInt

/-- `v & 0x0FFF` as a memory address (R77, R142). -/
def low12 (v : Word) : Addr := v.extractLsb' 0 12

/-- `zext_16(x)` of a format-A operand (R94). -/
def zext12 (x : BitVec 12) : Word := x.zeroExtend 16

/-- `zext_16(y)` of a format-S operand (R94). -/
def zext8 (y : BitVec 8) : Word := y.zeroExtend 16

/-- The read of a register file cell (R11 `x[i]`, R21). -/
def RegFile.get (r : RegFile) : Reg → Word
  | .pc => r.pc
  | .ac => r.ac
  | .sp => r.sp
  | .ir => r.ir
  | .tir => r.tir
  | .zero => r.zero
  | .pone => r.pone
  | .mone => r.mone
  | .amask => r.amask
  | .smask => r.smask
  | .a => r.a
  | .b => r.b
  | .c => r.c
  | .d => r.d
  | .e => r.e
  | .f => r.f

/-- The write of a register file cell (R21); every index is writable (R22). -/
def RegFile.set (r : RegFile) : Reg → Word → RegFile
  | .pc, v => { r with pc := v }
  | .ac, v => { r with ac := v }
  | .sp, v => { r with sp := v }
  | .ir, v => { r with ir := v }
  | .tir, v => { r with tir := v }
  | .zero, v => { r with zero := v }
  | .pone, v => { r with pone := v }
  | .mone, v => { r with mone := v }
  | .amask, v => { r with amask := v }
  | .smask, v => { r with smask := v }
  | .a, v => { r with a := v }
  | .b, v => { r with b := v }
  | .c, v => { r with c := v }
  | .d, v => { r with d := v }
  | .e, v => { r with e := v }
  | .f, v => { r with f := v }

/-- `x[i]` of the state (R11). -/
def State.reg (s : State) (i : Reg) : Word := s.regs.get i

/-- `x[i] <- v` (R11). -/
def State.setReg (s : State) (i : Reg) (v : Word) : State := { s with regs := s.regs.set i v }

/-- The document's `set(i, value)` of any integer value (R21). -/
def State.setRegInt (s : State) (i : Reg) (v : Int) : State := s.setReg i (to16 v)

/-- The local address of LODL, STOL, ADDL and SUBL: `(SP + x) & 0x0FFF` (R94). -/
def State.localAddr (s : State) (x : BitVec 12) : Addr := low12 (s.reg .sp + zext12 x)

/-- The address SP points at: `SP & 0x0FFF` (R379). -/
def State.stackAddr (s : State) : Addr := low12 (s.reg .sp)

/-- The address the next fetch reads: `PC & 0x0FFF` (R25, R299 `fa`). -/
def State.fetchAddr (s : State) : Addr := low12 (s.reg .pc)

end Sys2Proof.Machine
end

