-- ==== Sys2Proof/Machine/Assembler.lean ====
section
/-! DEFINITION. The assembler (30_encoding.md R110 to R117): source lines to machine words and `halt_addrs`.
A line is a list of characters. File handling and the wording of messages are out of scope (R7). -/

namespace Sys2Proof.Machine

/-- Why a line is refused (R116, 92_eei_decisions.md D21, D22). -/
inductive AsmProblem where
  | unknownMnemonic
  | missingOperand
  | unexpectedOperand
  | extraToken
  | nonIntegerOperand
  /-- The 0 to 4095 bound of format A (R112). -/
  | addressRange
  /-- The 0 to 255 bound of format S (R112). -/
  | byteRange
  /-- More than 4096 accepted lines (R117). -/
  | tooManyLines
deriving DecidableEq, Repr

/-- An error names its line, counted from 1 over the accepted lines (R110, R116). -/
structure AsmError where
  line : Nat
  problem : AsmProblem
deriving DecidableEq, Repr

/-- The output (R117, R115): word i is loaded at address i; `haltAddrs` are the positions of HALT lines. -/
structure AsmOutput where
  words : List Word
  haltAddrs : List Nat
deriving DecidableEq, Repr

/-- The tokens of a line: its maximal runs of non-whitespace characters (R111). -/
def tokens : List Char → List (List Char)
  | [] => []
  | c :: rest =>
    if c.isWhitespace then tokens rest
    else
      match rest, tokens rest with
      | d :: _, t :: ts => if d.isWhitespace then [c] :: t :: ts else (c :: t) :: ts
      | _, ts => [c] :: ts

/-- A line that is blank or a comment is ignored (R110). -/
def isIgnoredLine (line : List Char) : Bool :=
  match line.dropWhile Char.isWhitespace with
  | [] => true
  | c :: _ => c = ';'

/-- Unsigned decimal digits, at least one (R113); leading zeros are allowed. -/
def parseDigits (cs : List Char) : Option Nat :=
  if cs.isEmpty then none
  else cs.foldl (fun acc c => acc.bind fun n => if c.isDigit then some (10 * n + (c.toNat - '0'.toNat)) else none)
    (some 0)

/-- A decimal integer with an optional sign (R113, D21). -/
def parseDecimal : List Char → Option Int
  | '+' :: cs => (parseDigits cs).map Int.ofNat
  | '-' :: cs => (parseDigits cs).map fun n => -(Int.ofNat n)
  | cs => (parseDigits cs).map Int.ofNat

/-- What follows a mnemonic (R112). -/
inductive MnemonicForm where
  /-- Format A: a required operand of 12 bits. -/
  | formA (make : BitVec 12 → Instr)
  /-- Format S: a required operand of 8 bits. -/
  | formS (make : BitVec 8 → Instr)
  /-- Format F: no operand. -/
  | formF (i : Instr)
  /-- HALT: the assembler supplies the operand (R115). -/
  | formHalt

/-- The mnemonic a token spells, in any case (R111, R112). -/
def mnemonicForm (token : List Char) : Option MnemonicForm :=
  match token.map Char.toUpper with
  | ['L', 'O', 'D', 'D'] => some (.formA .lodd)
  | ['S', 'T', 'O', 'D'] => some (.formA .stod)
  | ['A', 'D', 'D', 'D'] => some (.formA .addd)
  | ['S', 'U', 'B', 'D'] => some (.formA .subd)
  | ['J', 'P', 'O', 'S'] => some (.formA .jpos)
  | ['J', 'Z', 'E', 'R'] => some (.formA .jzer)
  | ['J', 'U', 'M', 'P'] => some (.formA .jump)
  | ['L', 'O', 'C', 'O'] => some (.formA .loco)
  | ['L', 'O', 'D', 'L'] => some (.formA .lodl)
  | ['S', 'T', 'O', 'L'] => some (.formA .stol)
  | ['A', 'D', 'D', 'L'] => some (.formA .addl)
  | ['S', 'U', 'B', 'L'] => some (.formA .subl)
  | ['J', 'N', 'E', 'G'] => some (.formA .jneg)
  | ['J', 'N', 'Z', 'E'] => some (.formA .jnze)
  | ['C', 'A', 'L', 'L'] => some (.formA .call)
  | ['I', 'N', 'S', 'P'] => some (.formS .insp)
  | ['D', 'E', 'S', 'P'] => some (.formS .desp)
  | ['P', 'S', 'H', 'I'] => some (.formF .pshi)
  | ['P', 'O', 'P', 'I'] => some (.formF .popi)
  | ['P', 'U', 'S', 'H'] => some (.formF .push)
  | ['P', 'O', 'P'] => some (.formF .pop)
  | ['R', 'E', 'T', 'N'] => some (.formF .retn)
  | ['S', 'W', 'A', 'P'] => some (.formF .swap)
  | ['H', 'A', 'L', 'T'] => some .formHalt
  | _ => none

/-- A required operand: present, alone, an integer, in range (R112, R113, R116). -/
def requiredOperand (bound : Nat) (outOfRange : AsmProblem) : List (List Char) → Except AsmProblem Nat
  | [] => .error .missingOperand
  | [token] =>
    match parseDecimal token with
    | none => .error .nonIntegerOperand
    | some v => if 0 ≤ v ∧ v < bound then .ok v.toNat else .error outOfRange
  | _ :: _ :: _ => .error .extraToken

/-- No operand may follow (D21). -/
def noOperand : List (List Char) → Except AsmProblem Unit
  | [] => .ok ()
  | [_] => .error .unexpectedOperand
  | _ :: _ :: _ => .error .extraToken

/-- The instruction of the accepted line at 0-based position `p` (R111 to R115). Where a line has several
problems the first in this order is reported (DESIGN CHOICE, log entry 9). -/
def assembleTokens (p : Nat) : List (List Char) → Except AsmProblem Instr
  | [] => .error .unknownMnemonic
  | token :: rest =>
    match mnemonicForm token with
    | none => .error .unknownMnemonic
    | some (.formA make) => (requiredOperand 4096 .addressRange rest).map fun v => make (BitVec.ofNat 12 v)
    | some (.formS make) => (requiredOperand 256 .byteRange rest).map fun v => make (BitVec.ofNat 8 v)
    | some (.formF i) => (noOperand rest).map fun _ => i
    | some .formHalt => (noOperand rest).map fun _ => .halt (BitVec.ofNat 12 p)

/-- The instructions of the lines from position `p` on. -/
def assembleFrom : Nat → List (List Char) → Except AsmError (List Instr)
  | _, [] => .ok []
  | p, line :: rest =>
    if isIgnoredLine line then assembleFrom p rest
    else if p < Config.memWords then
      match assembleTokens p (tokens line) with
      | .error problem => .error ⟨p + 1, problem⟩
      | .ok i => (assembleFrom (p + 1) rest).map (i :: ·)
    else .error ⟨p + 1, .tooManyLines⟩

/-- The positions of HALT lines in a program (R115). -/
def haltPositions : Nat → List Instr → List Nat
  | _, [] => []
  | p, .halt _ :: rest => p :: haltPositions (p + 1) rest
  | p, _ :: rest => haltPositions (p + 1) rest

/-- The assembler (R110 to R117): any error aborts the whole assembly (R116). -/
def assemble (lines : List (List Char)) : Except AsmError AsmOutput :=
  (assembleFrom 0 lines).map fun program =>
    { words := program.map macroPattern, haltAddrs := haltPositions 0 program }

end Sys2Proof.Machine
end

