-- ==== Sys2Proof/Machine/Flags.lean ====
section
/-! DEFINITION. The two condition flags (10_state.md R26, 40_datapath.md R138). There is no carry and no
overflow flag (R134, R146). -/

namespace Sys2Proof.Machine

/-- `N`: bit 15 of the ALU result (R138). -/
def negativeFlag (r : Word) : Bool := r.getLsbD 15

/-- `Z`: the ALU result is 0x0000 (R138). -/
def zeroFlag (r : Word) : Bool := decide (r = 0x0000#16)

/-- `N, Z <- flags(r)` (R138, R299). -/
def State.setFlags (s : State) (r : Word) : State :=
  { s with flagN := negativeFlag r, flagZ := zeroFlag r }

end Sys2Proof.Machine
end

