-- ==== Sys2Proof/Machine/Ops.lean ====
section
/-! DEFINITION. The shared operations: memory words, the read/write timing controller, the ALU and shifter,
raising a fault, and the pieces of the macro-instruction frame R299. -/

namespace Sys2Proof.Machine

/-! ### Memory (20_memory.md R60, R66) -/

/-- `MemRead(a, 1)` (R11): a word nothing wrote reads 0x0000 (R37). -/
def Mem.read : Mem → Addr → Word
  | [], _ => 0x0000#16
  | (k, v) :: rest, a => if k = a.toNat then v else Mem.read rest a

/-- The cell `(a, v)` put in front of a memory, unless it says what an unlisted address reads as. -/
def Mem.consWord (a : Addr) (v : Word) (m : Mem) : Mem :=
  if v = 0x0000#16 then m else (a.toNat, v) :: m

/-- `MemWrite(a, 1, v)` (R11), keeping the canonical form. -/
def Mem.write : Mem → Addr → Word → Mem
  | [], a, v => Mem.consWord a v []
  | (k, u) :: rest, a, v =>
    if a.toNat < k then Mem.consWord a v ((k, u) :: rest)
    else if a.toNat = k then Mem.consWord a v rest
    else (k, u) :: Mem.write rest a v

/-- The canonical form from address `lo` on: strictly rising addresses below 4096, no word 0x0000. -/
def Mem.wfFrom : Nat → Mem → Bool
  | _, [] => true
  | lo, (k, v) :: rest =>
    decide (lo ≤ k) && decide (k < Config.memWords) && decide (v ≠ 0x0000#16) && Mem.wfFrom (k + 1) rest

/-- The canonical form of a memory. -/
def Mem.wf (m : Mem) : Bool := Mem.wfFrom 0 m

/-- The words `ws` written from address `i` on (R462); addresses are below 4096 in every use. -/
def Mem.loadFrom : Nat → List Int → Mem → Mem
  | _, [], m => m
  | i, w :: ws, m => Mem.loadFrom (i + 1) ws (m.write (BitVec.ofNat 12 i) (to16 w))

/-- One word of the state's memory. -/
def State.word (s : State) (a : Addr) : Word := s.mem.read a

/-- The word the next fetch reads (R202). -/
def State.fetchWord (s : State) : Word := s.word s.fetchAddr

/-! ### Faults (60_exceptions.md R420, R421) -/

/-- The numeric code of a fault reason (R420). -/
def Fault.code : Fault → Nat
  | .mpcOutOfRange _ => 1
  | .reservedShift _ => 2
  | .nextAddressOutOfRange _ _ => 3
  | .prematureMemoryAccess _ => 4

/-- `raise Fault(reason)` (R11, R421): FAULT is set and nothing else changes. The core has no exception
entry and no return from one (R422, R425, R426); only reset clears FAULT. -/
def State.raise (s : State) (reason : Fault) : State := { s with fault := some reason }

/-- Run `f` on the next state, if there is one. -/
def andThen (o : Host.Outcome State Fault Refusal) (f : State → Host.Outcome State Fault Refusal) :
    Host.Outcome State Fault Refusal :=
  match o with
  | .next s => f s
  | .fault r => .fault r
  | .refused r => .refused r

/-! ### The read/write timing controller (20_memory.md R62 to R74) -/

/-- R65. -/
def State.readReady (s : State) : Bool := decide (Config.threshold ≤ s.rdc)

/-- R65. -/
def State.writeReady (s : State) : Bool := decide (Config.threshold ≤ s.wrc)

/-- R63, one direction: `RDC <- RDC + 1`. -/
def State.beginRead (s : State) : State := { s with rdc := s.rdc + 1 }

/-- R63, the other direction: `WRC <- WRC + 1`. -/
def State.beginWrite (s : State) : State := { s with wrc := s.wrc + 1 }

/-- Step 1a of phase 3, read completion (R67). -/
def State.completeRead (s : State) : State :=
  if s.readReady then { s with mbr := s.word s.maddr, rdc := 0 } else s

/-- Step 1b of phase 3, write completion (R68). -/
def State.completeWrite (s : State) : State :=
  if s.writeReady then { s with mem := s.mem.write s.maddr s.mbr, wrc := 0 } else s

/-- Step 10 of phase 3, address presentation (R64). -/
def State.present (s : State) (f : MicroFields) : State :=
  if f.rd || f.wr then { s with maddr := s.mar } else s

/-! ### The datapath (40_datapath.md) -/

/-- Step 2 of phase 3 (R130). -/
def State.latchA (s : State) (src : Reg) : State := { s with alat := s.reg src }

/-- Step 4 of phase 3 (R132). -/
def State.latchB (s : State) (src : Reg) : State := { s with blat := s.reg src }

/-- Step 5's capture of an ALU result and its flags (R133, R138). -/
def State.aluResult (s : State) (r : Word) : State := { s.setFlags r with aluout := r }

/-- The right shift by 1 in either mode (R140). -/
def shiftRight1 (mode : RShiftMode) (v : Word) : Word :=
  match mode with
  | .arithmetic => v.extractLsb' 15 1 ++ v.extractLsb' 1 15
  | .logical => 0#1 ++ v.extractLsb' 1 15

/-- The left shift by 1 (R141): `{v[14:0], 0}`. -/
def shiftLeft1 (v : Word) : Word := v.extractLsb' 0 15 ++ 0#1

/-- Phase 4's use of a computed next address (R175, R180). -/
def State.goMicro (s : State) (next : Nat) : State :=
  if next < Config.csSize then { s with mpc := BitVec.ofNat 8 next }
  else s.raise (.nextAddressOutOfRange s.mpc.toNat next)

/-! ### The macro-instruction frame (43_macro_memory_arith.md R299) -/

/-- The fetch part of R299: IR, PC, MAR, MADDR and MBR. -/
def State.fetch (s : State) : State :=
  { (s.setReg .pc (s.reg .pc + 1#16)).setReg .ir s.fetchWord with
    mar := s.fetchAddr, maddr := s.fetchAddr, mbr := s.fetchWord }

/-- Fetch, and what decoding leaves in TIR: `IR << k` (R202, R299). -/
def State.fetchDecode (s : State) (k : Nat) : State :=
  s.fetch.setReg .tir (s.fetchWord <<< k)

/-- A data read of R299: MAR = MADDR = a, MBR the word read (R71). -/
def State.dataRead (s : State) (a : Addr) : State := { s with mar := a, maddr := a, mbr := s.word a }

/-- A data write of R299: MAR = MADDR = a, MBR the word written (R72). -/
def State.dataWrite (s : State) (a : Addr) (v : Word) : State :=
  { s with mar := a, maddr := a, mbr := v, mem := s.mem.write a v }

/-- The end part of R299: flags, ALUOUT and SHOUT from F, the latches of the path's last entry, and the
time of its `n` microinstructions. -/
def State.retire (s : State) (alat blat ain f : Word) (n : Nat) : State :=
  { s.setFlags f with
    alat := alat, blat := blat, ain := ain, aluout := f, shout := f, cycles := s.cycles + 4 * n }

/-- The end part of a macro whose last entry passes PC with both buses on PC (entries 10, 24, 43). -/
def State.retireOnPc (s : State) (n : Nat) : State :=
  s.retire (s.reg .pc) (s.reg .pc) (s.reg .pc) (s.reg .pc) n

/-- The end part of a macro whose last entry passes MBR through the multiplexer, both buses on PC
(entries 8 and 64). -/
def State.retireOnMbr (s : State) (n : Nat) : State :=
  s.retire (s.reg .pc) (s.reg .pc) s.mbr s.mbr n

/-- The end part of a macro whose last entry is `IR AND AMASK` (entries 22, 26, 27, 45, 49), `x` being
IR's operand field. -/
def State.retireOnOperand (s : State) (x : BitVec 12) (n : Nat) : State :=
  s.retire (s.reg .ir) (s.reg .amask) (s.reg .ir) (zext12 x) n

/-- `PC <- zext_16(x)` by a shared jump tail (entries 22, 26, 45, 49; R339). -/
def State.jumpTo (s : State) (x : BitVec 12) (n : Nat) : State :=
  (s.setReg .pc (zext12 x)).retireOnOperand x n

/-- The shared SUB tail of entries 16 to 18 (R206): `AC + 1`, `A <- ~m`, `AC <- AC + A`. -/
def State.subTail (s : State) (n : Nat) : State :=
  let ac1 := s.reg .ac + 1#16
  let m' := ~~~s.mbr
  ((s.setReg .a m').setReg .ac (ac1 + m')).retire ac1 m' ac1 (ac1 + m') n

/-- The shared ADD tail of entries 13 and 14 (R206): `AC <- MBR + AC`. -/
def State.addTail (s : State) (n : Nat) : State :=
  (s.setReg .ac (s.mbr + s.reg .ac)).retire (s.reg .pc) (s.reg .ac) s.mbr (s.mbr + s.reg .ac) n

/-- The shared tail of INSP and DESP, entry 75 (R206): `SP <- SP + A`. -/
def State.adjustSp (s : State) (n : Nat) : State :=
  (s.setReg .sp (s.reg .sp + s.reg .a)).retire (s.reg .sp) (s.reg .a) (s.reg .sp) (s.reg .sp + s.reg .a) n

end Sys2Proof.Machine
end

