-- ==== Sys2Proof/Machine/Control.lean ====
section
/-! DEFINITION. The macro-instructions of 44_macro_control.md (R339 to R346), in the frame R299. -/

namespace Sys2Proof.Machine

/-- JPOS x (R340). Not taken, entry 21 passes AC with the B bus on PC. -/
def execJpos (x : BitVec 12) (s : State) : Host.Outcome State Fault Refusal :=
  let s := s.fetchDecode 3
  if 0 ≤ sgn16 (s.reg .ac) then .next (s.jumpTo x 8)
  else .next (s.retire (s.reg .ac) (s.reg .pc) (s.reg .ac) (s.reg .ac) 7)

/-- JZER x (R341). Not taken, entry 24 passes PC. -/
def execJzer (x : BitVec 12) (s : State) : Host.Outcome State Fault Refusal :=
  let s := s.fetchDecode 3
  if s.reg .ac = 0x0000#16 then .next (s.jumpTo x 8) else .next (s.retireOnPc 8)

/-- JUMP x (R342). -/
def execJump (x : BitVec 12) (s : State) : Host.Outcome State Fault Refusal :=
  .next ((s.fetchDecode 3).jumpTo x 7)

/-- HALT at position p (R115, R342): "The hardware executes it as JUMP". -/
def execHalt (p : BitVec 12) (s : State) : Host.Outcome State Fault Refusal :=
  .next ((s.fetchDecode 3).jumpTo p 7)

/-- JNEG x (R343). Not taken, entry 43 passes PC. -/
def execJneg (x : BitVec 12) (s : State) : Host.Outcome State Fault Refusal :=
  let s := s.fetchDecode 3
  if sgn16 (s.reg .ac) < 0 then .next (s.jumpTo x 8) else .next (s.retireOnPc 8)

/-- JNZE x (R344). Not taken, entry 44 passes AC with the B bus on PC. -/
def execJnze (x : BitVec 12) (s : State) : Host.Outcome State Fault Refusal :=
  let s := s.fetchDecode 3
  if s.reg .ac ≠ 0x0000#16 then .next (s.jumpTo x 8)
  else .next (s.retire (s.reg .ac) (s.reg .pc) (s.reg .ac) (s.reg .ac) 7)

/-- CALL x (R345): the return address is pushed, then PC is set. -/
def execCall (x : BitVec 12) (s : State) : Host.Outcome State Fault Refusal :=
  let s := s.fetchDecode 4
  let s := s.setReg .sp (s.reg .sp - 1#16)
  .next ((s.dataWrite s.stackAddr (s.reg .pc)).jumpTo x 9)

/-- RETN (R346): the popped word is not masked; the buses of entry 69 still read the PC of before. -/
def execRetn (s : State) : Host.Outcome State Fault Refusal :=
  let s := s.fetchDecode 6
  let pc := s.reg .pc
  let s := s.dataRead s.stackAddr
  let s := s.setReg .sp (s.reg .sp + 1#16)
  .next ((s.setReg .pc s.mbr).retire pc pc s.mbr s.mbr 12)

end Sys2Proof.Machine
end

