-- ==== Sys2Proof/Machine/Datapath.lean ====
section
/-! DEFINITION. The micro rows that phase 1 and phase 3 run: the ALU and shifter operations, the A-input
multiplexer, the MAR and MBR latches and the writeback (40_datapath.md R131 to R144), and the reserved
shifter code (41_microsequencer.md R172). -/

namespace Sys2Proof.Machine

/-- ALU ADD (R134): `ALUOUT <- to16(a +int b)`, a = AIN, b = BLAT. -/
def execAluAdd (s : State) : Host.Outcome State Fault Refusal := .next (s.aluResult (s.ain + s.blat))

/-- ALU AND (R135). -/
def execAluAnd (s : State) : Host.Outcome State Fault Refusal := .next (s.aluResult (s.ain &&& s.blat))

/-- ALU PASS A (R136). -/
def execAluPassA (s : State) : Host.Outcome State Fault Refusal := .next (s.aluResult s.ain)

/-- ALU NOT A (R137). -/
def execAluNotA (s : State) : Host.Outcome State Fault Refusal := .next (s.aluResult (~~~s.ain))

/-- Shifter IDENTITY (R139). -/
def execShIdentity (s : State) : Host.Outcome State Fault Refusal := .next { s with shout := s.aluout }

/-- Shifter RIGHT SHIFT BY 1 (R140), in the mode of the OPEN parameter (log entry 6). -/
def execShRight1 (s : State) : Host.Outcome State Fault Refusal :=
  .next { s with shout := shiftRight1 Config.rshiftMode s.aluout }

/-- Shifter LEFT SHIFT BY 1 (R141). -/
def execShLeft1 (s : State) : Host.Outcome State Fault Refusal :=
  .next { s with shout := shiftLeft1 s.aluout }

/-- The reserved code SH = 3: decoding it in phase 1 raises `ReservedShift` (R100, R172, R421). -/
def execShReserved (s : State) : Host.Outcome State Fault Refusal :=
  .next (s.raise (.reservedShift s.mpc.toNat))

/-- AMUX = 0 (R131): `AIN = ALAT`. -/
def execAmuxAlat (s : State) : Host.Outcome State Fault Refusal := .next { s with ain := s.alat }

/-- AMUX = 1 (R131): `AIN = MBR`. -/
def execAmuxMbr (s : State) : Host.Outcome State Fault Refusal := .next { s with ain := s.mbr }

/-- MAR = 1 (R142): `MAR <- BLAT & 0x0FFF`. -/
def execMarLatch (s : State) : Host.Outcome State Fault Refusal := .next { s with mar := low12 s.blat }

/-- MBR = 1 (R143): `MBR <- SHOUT`. -/
def execMbrLatch (s : State) : Host.Outcome State Fault Refusal := .next { s with mbr := s.shout }

/-- ENC = 1 (R144): `x[C] <- SHOUT`. -/
def execEncWriteback (dst : Reg) (s : State) : Host.Outcome State Fault Refusal :=
  .next (s.setReg dst s.shout)

end Sys2Proof.Machine
end

