-- ==== Sys2Proof/Machine/MemoryArith.lean ====
section
/-! DEFINITION. The macro-instructions of 43_macro_memory_arith.md. Each meaning is one run of the frame R299
from a macro-instruction boundary to the next, fetch included; `x` is IR[11:0]. The boundary's own values
(mpc, PHASE, MIR, RDC, WRC, FAULT) are the same at both ends and are left alone. -/

namespace Sys2Proof.Machine

/-- LODD x (R300). -/
def execLodd (x : BitVec 12) (s : State) : Host.Outcome State Fault Refusal :=
  let s := (s.fetchDecode 3).dataRead x
  .next ((s.setReg .ac s.mbr).retireOnMbr 9)

/-- STOD x (R301). -/
def execStod (x : BitVec 12) (s : State) : Host.Outcome State Fault Refusal :=
  let s := s.fetchDecode 3
  .next ((s.dataWrite x (s.reg .ac)).retireOnPc 8)

/-- ADDD x (R302). -/
def execAddd (x : BitVec 12) (s : State) : Host.Outcome State Fault Refusal :=
  .next (((s.fetchDecode 3).dataRead x).addTail 9)

/-- SUBD x (R303). -/
def execSubd (x : BitVec 12) (s : State) : Host.Outcome State Fault Refusal :=
  .next (((s.fetchDecode 3).dataRead x).subTail 10)

/-- LOCO x (R304). -/
def execLoco (x : BitVec 12) (s : State) : Host.Outcome State Fault Refusal :=
  .next (((s.fetchDecode 3).setReg .ac (zext12 x)).retireOnOperand x 7)

/-- `A <- IR + SP`, entries 31, 33, 36 and 38 (R305 to R308). -/
def State.localSum (s : State) : State := s.setReg .a (s.reg .ir + s.reg .sp)

/-- LODL x (R305). -/
def execLodl (x : BitVec 12) (s : State) : Host.Outcome State Fault Refusal :=
  let s := s.fetchDecode 3
  let s := s.localSum.dataRead (s.localAddr x)
  .next ((s.setReg .ac s.mbr).retireOnMbr 10)

/-- STOL x (R306). -/
def execStol (x : BitVec 12) (s : State) : Host.Outcome State Fault Refusal :=
  let s := s.fetchDecode 3
  .next ((s.localSum.dataWrite (s.localAddr x) (s.reg .ac)).retireOnPc 9)

/-- ADDL x (R307). -/
def execAddl (x : BitVec 12) (s : State) : Host.Outcome State Fault Refusal :=
  let s := s.fetchDecode 3
  .next ((s.localSum.dataRead (s.localAddr x)).addTail 10)

/-- SUBL x (R308): the SUB tail overwrites the sum in A. -/
def execSubl (x : BitVec 12) (s : State) : Host.Outcome State Fault Refusal :=
  let s := s.fetchDecode 3
  .next ((s.localSum.dataRead (s.localAddr x)).subTail 11)

end Sys2Proof.Machine
end

