-- ==== Sys2Proof/Machine/Sequencing.lean ====
section
/-! DEFINITION. The micro rows that phase 2 and phase 4 run: the memory requests (20_memory.md R63) and the
four conditions (41_microsequencer.md R175 to R180). -/

namespace Sys2Proof.Machine

/-- RD = 1 (R63). -/
def execRdBeginRead (s : State) : Host.Outcome State Fault Refusal := .next s.beginRead

/-- WR = 1 (R63). -/
def execWrBeginWrite (s : State) : Host.Outcome State Fault Refusal := .next s.beginWrite

/-- COND = 0 (R176): `next = ADDR`. -/
def execCondUnconditional (addr : MicroAddr) (s : State) : Host.Outcome State Fault Refusal :=
  .next (s.goMicro addr.toNat)

/-- COND = 1 (R177): `next = if N then ADDR else mpc + 1`. -/
def execCondIfN (addr : MicroAddr) (s : State) : Host.Outcome State Fault Refusal :=
  .next (s.goMicro (if s.flagN then addr.toNat else s.mpc.toNat + 1))

/-- COND = 2 (R178): `next = if Z then ADDR else mpc + 1`. -/
def execCondIfZ (addr : MicroAddr) (s : State) : Host.Outcome State Fault Refusal :=
  .next (s.goMicro (if s.flagZ then addr.toNat else s.mpc.toNat + 1))

/-- COND = 3 (R179): `next = ADDR`. -/
def execCondAlways (addr : MicroAddr) (s : State) : Host.Outcome State Fault Refusal :=
  .next (s.goMicro addr.toNat)

end Sys2Proof.Machine
end

