-- ==== Sys2Proof/Machine/Stack.lean ====
section
/-! DEFINITION. The macro-instructions of 45_macro_stack.md (R379 to R386), in the frame R299. -/

namespace Sys2Proof.Machine

/-- PSHI (R380): the read completes before the write begins. -/
def execPshi (s : State) : Host.Outcome State Fault Refusal :=
  let s := s.fetchDecode 6
  let s := s.dataRead (low12 (s.reg .ac))
  let s := s.setReg .sp (s.reg .sp - 1#16)
  .next ((s.dataWrite s.stackAddr s.mbr).retireOnPc 13)

/-- POPI (R381). -/
def execPopi (s : State) : Host.Outcome State Fault Refusal :=
  let s := s.fetchDecode 6
  let s := s.dataRead s.stackAddr
  let s := s.setReg .sp (s.reg .sp + 1#16)
  .next ((s.dataWrite (low12 (s.reg .ac)) s.mbr).retireOnPc 13)

/-- PUSH (R382). -/
def execPush (s : State) : Host.Outcome State Fault Refusal :=
  let s := s.fetchDecode 6
  let s := s.setReg .sp (s.reg .sp - 1#16)
  .next ((s.dataWrite s.stackAddr (s.reg .ac)).retireOnPc 12)

/-- POP (R383). -/
def execPop (s : State) : Host.Outcome State Fault Refusal :=
  let s := s.fetchDecode 6
  let s := s.dataRead s.stackAddr
  let s := s.setReg .sp (s.reg .sp + 1#16)
  .next ((s.setReg .ac s.mbr).retireOnMbr 12)

/-- SWAP (R384): A, AC and SP in the order of entries 70 to 72; entry 72 has A on the A bus, PC on the
B bus. -/
def execSwap (s : State) : Host.Outcome State Fault Refusal :=
  let s := s.fetchDecode 6
  let s := s.setReg .a (s.reg .ac)
  let s := s.setReg .ac (s.reg .sp)
  let s := s.setReg .sp (s.reg .a)
  .next (s.retire (s.reg .a) (s.reg .pc) (s.reg .a) (s.reg .sp) 12)

/-- INSP y (R385). -/
def execInsp (y : BitVec 8) (s : State) : Host.Outcome State Fault Refusal :=
  .next (((s.fetchDecode 6).setReg .a (zext8 y)).adjustSp 11)

/-- DESP y (R386): A passes through `y`, `~y` and `~y + 1`. -/
def execDesp (y : BitVec 8) (s : State) : Host.Outcome State Fault Refusal :=
  .next (((s.fetchDecode 6).setReg .a (~~~(zext8 y) + 1#16)).adjustSp 13)

end Sys2Proof.Machine
end

