-- ==== Sys2Proof/Machine/Dispatch.lean ====
section
/-! DEFINITION. The meaning of every instruction, one arm per constructor. -/

namespace Sys2Proof.Machine

def exec (i : Instr) (s : State) : Host.Outcome State Fault Refusal :=
  match i with
  | .lodd x => Sys2Proof.Machine.execLodd x s
  | .stod x => Sys2Proof.Machine.execStod x s
  | .addd x => Sys2Proof.Machine.execAddd x s
  | .subd x => Sys2Proof.Machine.execSubd x s
  | .jpos x => Sys2Proof.Machine.execJpos x s
  | .jzer x => Sys2Proof.Machine.execJzer x s
  | .jump x => Sys2Proof.Machine.execJump x s
  | .loco x => Sys2Proof.Machine.execLoco x s
  | .lodl x => Sys2Proof.Machine.execLodl x s
  | .stol x => Sys2Proof.Machine.execStol x s
  | .addl x => Sys2Proof.Machine.execAddl x s
  | .subl x => Sys2Proof.Machine.execSubl x s
  | .jneg x => Sys2Proof.Machine.execJneg x s
  | .jnze x => Sys2Proof.Machine.execJnze x s
  | .call x => Sys2Proof.Machine.execCall x s
  | .halt p => Sys2Proof.Machine.execHalt p s
  | .pshi => Sys2Proof.Machine.execPshi s
  | .popi => Sys2Proof.Machine.execPopi s
  | .push => Sys2Proof.Machine.execPush s
  | .pop => Sys2Proof.Machine.execPop s
  | .retn => Sys2Proof.Machine.execRetn s
  | .swap => Sys2Proof.Machine.execSwap s
  | .insp y => Sys2Proof.Machine.execInsp y s
  | .desp y => Sys2Proof.Machine.execDesp y s
  | .aluAdd => Sys2Proof.Machine.execAluAdd s
  | .aluAnd => Sys2Proof.Machine.execAluAnd s
  | .aluPassA => Sys2Proof.Machine.execAluPassA s
  | .aluNotA => Sys2Proof.Machine.execAluNotA s
  | .shIdentity => Sys2Proof.Machine.execShIdentity s
  | .shRight1 => Sys2Proof.Machine.execShRight1 s
  | .shLeft1 => Sys2Proof.Machine.execShLeft1 s
  | .shReserved => Sys2Proof.Machine.execShReserved s
  | .amuxAlat => Sys2Proof.Machine.execAmuxAlat s
  | .amuxMbr => Sys2Proof.Machine.execAmuxMbr s
  | .condUnconditional addr => Sys2Proof.Machine.execCondUnconditional addr s
  | .condIfN addr => Sys2Proof.Machine.execCondIfN addr s
  | .condIfZ addr => Sys2Proof.Machine.execCondIfZ addr s
  | .condAlways addr => Sys2Proof.Machine.execCondAlways addr s
  | .marLatch => Sys2Proof.Machine.execMarLatch s
  | .mbrLatch => Sys2Proof.Machine.execMbrLatch s
  | .rdBeginRead => Sys2Proof.Machine.execRdBeginRead s
  | .wrBeginWrite => Sys2Proof.Machine.execWrBeginWrite s
  | .encWriteback dst => Sys2Proof.Machine.execEncWriteback dst s

end Sys2Proof.Machine
end

