-- ==== Sys2Proof/Machine/Sequencer.lean ====
section
/-! DEFINITION. The microsequencer: the four phases, the subcycle, the microinstruction and the
macro-instruction (41_microsequencer.md R170 to R183). The phases run the micro rows of the opcode table
through `exec`, in the order of R172 to R175. -/

namespace Sys2Proof.Machine

/-- PHASE after a completed subcycle: `(PHASE mod 4) + 1` (R28, R170). -/
def Phase.succ : Phase → Phase
  | .phase1 => .phase2
  | .phase2 => .phase3
  | .phase3 => .phase4
  | .phase4 => .phase1

/-- The number of subcycles left in the current microinstruction. -/
def Phase.remaining : Phase → Nat
  | .phase1 => 4
  | .phase2 => 3
  | .phase3 => 2
  | .phase4 => 1

/-- The control-store word at MPC, if MPC names one (R36, R172). -/
def State.microWord (s : State) : Option MicroWord :=
  if s.mpc.toNat < Config.csSize then s.cs[s.mpc.toNat]? else none

/-- Run table rows one after another. -/
def runRows : List Instr → State → Host.Outcome State Fault Refusal
  | [], s => .next s
  | i :: rows, s => andThen (exec i s) (runRows rows)

/-- The rows phase 2 runs (R173). -/
def requestRows (f : MicroFields) : List Instr :=
  (if f.rd then [Instr.rdBeginRead] else []) ++ (if f.wr then [Instr.wrBeginWrite] else [])

/-- The rows phase 3 runs after the B latch, steps 5 to 9 (R174). -/
def commitRows (f : MicroFields) : List Instr :=
  [f.aluInstr, f.shiftInstr] ++ (if f.mar then [Instr.marLatch] else []) ++
    (if f.mbr then [Instr.mbrLatch] else []) ++ (if f.enc then [Instr.encWriteback f.c] else [])

/-- Phase 1, decode (R172). `MpcOutOfRange` comes before the word is read (R424). -/
def phase1 (s : State) : Host.Outcome State Fault Refusal :=
  match s.microWord with
  | none => .next (s.raise (.mpcOutOfRange s.mpc.toNat))
  | some w =>
    if (decodeMicro w).sh = .reserved then exec .shReserved s
    else .next { s with mir := some (decodeMicro w) }

/-- Phase 2, memory request (R173), of the staged fields. -/
def phase2 (f : MicroFields) (s : State) : Host.Outcome State Fault Refusal := runRows (requestRows f) s

/-- Phase 3, commit (R174), of the staged fields: steps 1a, 1b, 2, 3, then 4, then 5 to 9, then 10. -/
def phase3 (f : MicroFields) (s : State) : Host.Outcome State Fault Refusal :=
  andThen (runRows [f.amuxInstr] (s.completeRead.completeWrite.latchA f.a)) fun t =>
  andThen (runRows (commitRows f) (t.latchB f.b)) fun u => .next (u.present f)

/-- Phase 4, branch (R175), of the staged fields: the condition, then MIR is cleared. -/
def phase4 (f : MicroFields) (s : State) : Host.Outcome State Fault Refusal :=
  andThen (runRows [f.condInstr] s) fun t => .next { t with mir := none }

/-- The phase that PHASE names (R170). Phases 2 to 4 with nothing staged, which no run reaches, assert no
signal (DESIGN CHOICE, log entry 8). -/
def runPhase (s : State) : Host.Outcome State Fault Refusal :=
  match s.phase, s.mir with
  | .phase1, _ => phase1 s
  | .phase2, some f => phase2 f s
  | .phase3, some f => phase3 f s
  | .phase4, some f => phase4 f s
  | .phase2, none | .phase3, none | .phase4, none => .next s

/-- The end of a subcycle (R170, R421): a phase that raised a fault changes FAULT alone in `s`, the state
before it; otherwise PHASE and CYCLES advance. -/
def State.endSubcycle (s t : State) : State :=
  match t.fault with
  | some r => s.raise r
  | none => { t with phase := t.phase.succ, cycles := t.cycles + 1 }

/-- The subcycle-advance operation (R170); in the faulted state it does nothing (R421). -/
def subcycle (s : State) : Host.Outcome State Fault Refusal :=
  match s.fault with
  | some _ => .next s
  | none => andThen (runPhase s) fun t => .next (s.endSubcycle t)

/-- `n` subcycles. -/
def subcycles : Nat → State → Host.Outcome State Fault Refusal
  | 0, s => .next s
  | n + 1, s => andThen (subcycle s) (subcycles n)

/-- Run one microinstruction (R182): four subcycles from PHASE = 1. From another phase, which R431 does not
give, the subcycles left in the current microinstruction (DESIGN CHOICE, log entry 7). -/
def microstep (s : State) : Host.Outcome State Fault Refusal := subcycles s.phase.remaining s

/-- A macro-instruction boundary (R181): mpc = 0 with PHASE = 1. -/
def State.atBoundary (s : State) : Bool := decide (s.mpc = 0#8) && decide (s.phase = .phase1)

/-- Where `run_macro()` stops after a microstep: at a boundary (R183), or on a faulted core (R421). -/
def State.macroEnded (s : State) : Bool := s.atBoundary || s.fault.isSome

/-- `microstep()` until one leaves mpc = 0 (R183), at most `n` of them; a faulted core stops (R421). -/
def runMicroprogram : Nat → State → Host.Outcome State Fault Refusal
  | 0, s => .next s
  | n + 1, s =>
    andThen (microstep s) fun t =>
      if t.macroEnded then .next t else runMicroprogram n t

/-- More microinstructions than the machine has configurations at phase 1 with nothing staged, and so more than
any routine that returns can take: 2^65924 counts the 16 registers, the four latches, MBR and AIN (22 words of 16
bits), MAR and MADDR (12 each), MPC (8), N, Z, RDC and WRC (1 each) and memory (4096 words). CYCLES is not
read (R34). The law `runMicroprogram_runBound_exact` is the proof. -/
@[irreducible] def runBound : Nat := 2 ^ 65924 + 1

/-- Registers 5 to 9 hold the constants that reset gave them (R20, R22). -/
def State.constantsIntact (s : State) : Bool :=
  decide (s.reg .zero = 0x0000#16) && decide (s.reg .pone = 0x0001#16) && decide (s.reg .mone = 0xFFFF#16) &&
    decide (s.reg .amask = 0x0FFF#16) && decide (s.reg .smask = 0x00FF#16)

/-- A state the macro-instruction rules start from (R299): a boundary with MIR = none, FAULT = none and
RDC = WRC = 0, under the decided control store with its constants in place. -/
def State.macroReady (s : State) : Bool :=
  s.atBoundary && decide (s.mir = none) && decide (s.fault = none) && decide (s.rdc = 0) &&
    decide (s.wrc = 0) && s.constantsIntact && decide (s.cs = decidedStore)

/-- The instruction that the next macro-instruction fetch reads (R95, R202). -/
def State.nextInstr (s : State) : Instr := decodeMacro s.fetchWord

/-- Run one macro-instruction (R183): from a state the macro-instruction rules describe, the meaning those
rules give the fetched word; from any other, and so under any other control store (R200), the microprogram itself
until a microstep leaves mpc = 0. A microprogram that never comes back to mpc = 0 (R179: a hang, R183: "it may
never return") is left in a state of that endless run, which is no boundary (log entry 7). -/
def runMacro (s : State) : Host.Outcome State Fault Refusal :=
  if s.macroReady then exec s.nextInstr s else runMicroprogram runBound s

end Sys2Proof.Machine
end

