-- ==== Sys2Proof/Machine/HostOps.lean ====
section
/-! DEFINITION. The host's operations (60_exceptions.md R431 to R433) beside the advance operations: reset,
load, boot and run, and the pieces `step` and `withFetchWord` are made of. `read` (R432) is a field of `State`. -/

namespace Sys2Proof.Machine

/-- `reset()` (R460): every element of the state tuple to its reset value, from any state. The control
store, the host's bound and the host's choice of operation are no part of the tuple and stay. -/
def hostReset (spReset : Word) (s : State) : State :=
  { State.resetWith spReset with cs := s.cs, nProg := s.nProg, request := s.request }

/-- `load(words)` (R462): all or nothing; more than 4096 words are refused. -/
def hostLoad (words : List Int) (s : State) : Option State :=
  if words.length ≤ Config.memWords then
    some { s with mem := Mem.loadFrom 0 words s.mem, nProg := words.length }
  else none

/-- The boot sequence up to `run` (R463): assemble, reset, load. A failed assembly changes nothing (R462). -/
def hostBoot (spReset : Word) (lines : List (List Char)) (s : State) : State × Except AsmError (List Nat) :=
  match assemble lines with
  | .error e => (s, .error e)
  | .ok o =>
    let s := hostReset spReset s
    ((hostLoad (o.words.map fun w => (w.toNat : Int)) s).getD s, .ok o.haltAddrs)

/-- How a run ends (R433). -/
inductive RunStatus where
  | fault (reason : Fault)
  | halted
  | outOfBounds
deriving DecidableEq, Repr

/-- The end-of-run conditions at a boundary, in the order of R433 and R424. -/
def runStatus (haltAddrs : List Nat) (nProg : Nat) (s : State) : Option RunStatus :=
  match s.fault with
  | some r => some (.fault r)
  | none =>
    if (s.reg .pc).toNat ∈ haltAddrs then some .halted
    else if nProg ≤ (s.reg .pc).toNat then some .outOfBounds
    else none

/-- `run(halt_addrs, N_prog)` (R433) for at most `n` calls of `run_macro()`: the status the run ended with,
or none if it is still running, and the state. The conditions are checked at boundaries only; a faulted core
has ended wherever it stands. -/
def hostRun (haltAddrs : List Nat) (nProg : Nat) : Nat → State →
    Host.Outcome State Fault Refusal × Option RunStatus
  | 0, s => (.next s, if s.macroEnded then runStatus haltAddrs nProg s else none)
  | n + 1, s =>
    match (if s.macroEnded then runStatus haltAddrs nProg s else none) with
    | some status => (.next s, some status)
    | none =>
      match runMacro s with
      | .next t => hostRun haltAddrs nProg n t
      | .fault r => (.fault r, none)
      | .refused r => (.refused r, none)

/-- One call of the advance operation that the host's request names (R431). -/
def advance (s : State) : Host.Outcome State Fault Refusal :=
  match s.request with
  | .subcycle => subcycle s
  | .microstep => microstep s
  | .runMacro => runMacro s

/-- The start of a microinstruction with nothing wrong and nothing staged. -/
def State.freshStart (s : State) : State := { s with phase := .phase1, mir := none, fault := none }

/-- `w` stored where the next macro-instruction fetch reads, at a boundary under the decided control store,
with `run_macro` requested. -/
def State.placeMacroWord (s : State) (w : Word) : State :=
  { s.freshStart with
    mpc := 0#8, rdc := 0, wrc := 0, cs := decidedStore, mem := s.mem.write s.fetchAddr w,
    request := .runMacro }

/-- `w` stored where the next phase 1 reads, with `microstep` requested. -/
def State.placeMicroWord (s : State) (w : MicroWord) : State :=
  let at' : MicroAddr := if s.mpc.toNat < Config.csSize then s.mpc else 0#8
  let store := if s.cs.length = Config.csSize then s.cs else decidedStore
  { s.freshStart with mpc := at', cs := store.set at'.toNat w, request := .microstep }

/-- A code word stored where its level's next fetch reads. -/
def State.placeCodeWord (s : State) : CodeWord → State
  | .macroWord w => s.placeMacroWord w
  | .microWord w => s.placeMicroWord w

end Sys2Proof.Machine
end

