-- ==== Sys2Proof/Machine/Step.lean ====
section
/-! DEFINITION. One step of the machine: one call of the advance operation the host requests (R431). -/

namespace Sys2Proof.Machine

/-- One step. A core that has faulted takes none (R170 "no step", R421): the host sees the fault (R433). -/
def step (s : State) : Host.Outcome State Fault Refusal :=
  match s.fault with
  | some r => .fault r
  | none => advance s

/-- The state with an opcode-table word stored where the step fetches its next instruction: a word of up to
16 bits at M[PC & 0x0FFF], run by `run_macro`; a longer one in the control store at MPC, run by `microstep`
(log entry 12). -/
def State.withFetchWord (s : State) (nbits w : Nat) : State :=
  match tableCodeWord nbits w with
  | some c => s.placeCodeWord c
  | none => s

end Sys2Proof.Machine
end

