-- ==== Sys2Proof/Safety.lean ====
section
/-! DEFINITION. What counts as a safe run, the invariants that claims are stated with, and the second,
closed forms of a microinstruction that claims compare the machine with. -/

namespace Sys2Proof.Machine

/-! ### Safe runs -/

/-- The core has not faulted (R421). -/
def State.healthy (s : State) : Prop := s.fault = none

/-- A run of `n` steps meets no fault. -/
def RunsSafely (n : Nat) (s : State) : Prop :=
  ∃ t, Host.Core.run Sys2Proof.core n s = .next t ∧ t.healthy

/-! ### Invariants -/

/-- R69: RDC and WRC are 0 or 1, except between phase 2 and phase 3, where they are at most 2. -/
def State.countersInRange (s : State) : Prop :=
  (s.phase = .phase3 → s.rdc ≤ 2 ∧ s.wrc ≤ 2) ∧ (s.phase ≠ .phase3 → s.rdc ≤ 1 ∧ s.wrc ≤ 1)

/-- R29: MIR is none exactly when phase 1 comes next, and never holds the reserved shifter code (R139). -/
def State.stagingConsistent (s : State) : Prop :=
  (s.phase = .phase1 ↔ s.mir = none) ∧ ∀ f, s.mir = some f → f.sh ≠ .reserved

/-- R27, R180: MPC names an entry of the control store. -/
def State.mpcInRange (s : State) : Prop := s.mpc.toNat < 79

/-- What every step keeps, for any control store of 79 words. -/
structure State.Coherent (s : State) : Prop where
  memory : s.mem.wf = true
  mpc : s.mpcInRange
  staging : s.stagingConsistent
  counters : s.countersInRange
  store : s.cs.length = 79

/-- What every step keeps under the decided control store (R203): the store itself, the constants of
registers 5 to 9, and that the staged fields are those of the entry at MPC. -/
structure State.UnderDecidedStore (s : State) : Prop where
  store : s.cs = decidedStore
  constants : s.constantsIntact = true
  staged : ∀ f, s.mir = some f → (decidedStore[s.mpc.toNat]?).map decodeMicro = some f

/-- The entries of the decided store that are the second microinstruction of a read pair (R204 item 1). -/
def secondReads : List Nat := [1, 7, 13, 16, 54, 57, 63, 68]

/-- The entries of the decided store that are the second microinstruction of a write pair (R204 item 2). -/
def secondWrites : List Nat := [10, 49]

/-- R204 items 1, 2 and 4 as a condition on one state: before phase 2 of an entry an access is pending
exactly if the entry is the second of a pair; the entry's own RD and WR are counted from phase 2 on, until
the access completes in phase 3. -/
def State.accessesPaired (s : State) : Prop :=
  let r := s.mpc.toNat ∈ secondReads
  let w := s.mpc.toNat ∈ secondWrites
  let rd := ∃ f, s.mir = some f ∧ f.rd = true
  let wr := ∃ f, s.mir = some f ∧ f.wr = true
  match s.phase with
  | .phase1 | .phase2 => (r → s.rdc = 1) ∧ (¬ r → s.rdc = 0) ∧ (w → s.wrc = 1) ∧ (¬ w → s.wrc = 0)
  | .phase3 =>
    (r → s.rdc = 2) ∧ (¬ r → rd → s.rdc = 1) ∧ (¬ rd → s.rdc = 0) ∧
      (w → s.wrc = 2) ∧ (¬ w → wr → s.wrc = 1) ∧ (¬ wr → s.wrc = 0)
  | .phase4 =>
    (r → s.rdc = 0) ∧ (¬ r → rd → s.rdc = 1) ∧ (¬ rd → s.rdc = 0) ∧
      (w → s.wrc = 0) ∧ (¬ w → wr → s.wrc = 1) ∧ (¬ wr → s.wrc = 0)

/-! ### Frames -/

/-- Every register outside `written` keeps its value. -/
def RegsKept (written : List Reg) (s t : State) : Prop := ∀ r : Reg, r ∉ written → t.reg r = s.reg r

/-- Every word of memory keeps its value. -/
def MemKept (s t : State) : Prop := ∀ p : Addr, t.word p = s.word p

/-- Every word of memory but the one at `at'` keeps its value. -/
def MemKeptExcept (at' : Addr) (s t : State) : Prop := ∀ p : Addr, p ≠ at' → t.word p = s.word p

/-- The sequencer's and the controller's state, FAULT, the control store and the host's data are the same
(the boundary's own values, R299, and what no macro-instruction touches). -/
def SequencerKept (s t : State) : Prop :=
  t.mpc = s.mpc ∧ t.phase = s.phase ∧ t.mir = s.mir ∧ t.rdc = s.rdc ∧ t.wrc = s.wrc ∧ t.fault = s.fault ∧
    t.cs = s.cs ∧ t.nProg = s.nProg ∧ t.request = s.request

/-- The part of R299 that every macro-instruction shares, of a run from `s` to `t`: IR, TIR shifted by `k`,
no register outside `written` and the three of the frame, and the time of `n` microinstructions. -/
def MacroFrame (k n : Nat) (written : List Reg) (s t : State) : Prop :=
  t.reg .ir = s.fetchWord ∧ t.reg .tir = s.fetchWord <<< k ∧ RegsKept (.pc :: .ir :: .tir :: written) s t ∧
    t.cycles = s.cycles + 4 * n ∧ SequencerKept s t

/-- `MAR = MADDR = at'` and `MBR = v` (R299). -/
def AccessLeft (at' : Addr) (v : Word) (t : State) : Prop := t.mar = at' ∧ t.maddr = at' ∧ t.mbr = v

/-- R299's end: `N, Z <- flags(F)`, `ALUOUT <- F`, `SHOUT <- F`. -/
def ResultLeft (f : Word) (t : State) : Prop :=
  (t.flagN = true ↔ f.toInt < 0) ∧ (t.flagZ = true ↔ f = 0x0000#16) ∧ t.aluout = f ∧ t.shout = f

/-- R299's end: ALAT, BLAT, and the model's own AIN. -/
def LatchesLeft (la lb mux : Word) (t : State) : Prop := t.alat = la ∧ t.blat = lb ∧ t.ain = mux

/-! ### A microinstruction in closed form -/

/-- The four ALU operations as integer or bitwise functions (R134 to R137). -/
def aluOf (op : AluOp) (x y : Word) : Word :=
  match op with
  | .add => to16 (x.toInt + y.toInt)
  | .and => x &&& y
  | .passA => x
  | .notA => ~~~x

/-- The shifter as library shifts (R139 to R141); the reserved code never reaches it (R139). -/
def shiftOf (op : ShiftOp) (v : Word) : Word :=
  match op with
  | .identity | .reserved => v
  | .right1 =>
    match Config.rshiftMode with
    | .arithmetic => v.sshiftRight 1
    | .logical => v >>> 1
  | .left1 => v <<< 1

/-- The next address of phase 4 (R176 to R179). -/
def nextAddr (f : MicroFields) (negative zero : Bool) (mpc : Nat) : Nat :=
  match f.cond with
  | .unconditional | .always => f.addr.toNat
  | .ifN => if negative then f.addr.toNat else mpc + 1
  | .ifZ => if zero then f.addr.toNat else mpc + 1

/-- RDC and WRC after phase 2 (R63). -/
def requestEffect (f : MicroFields) (s : State) : State :=
  { s with rdc := s.rdc + f.rd.toNat, wrc := s.wrc + f.wr.toNat }

/-- The ten steps of phase 3 as one update, from R182's text. -/
def commitEffect (f : MicroFields) (s : State) : State :=
  let mbr := if 2 ≤ s.rdc then s.word s.maddr else s.mbr
  let mem := if 2 ≤ s.wrc then s.mem.write s.maddr mbr else s.mem
  let alat := s.reg f.a
  let ain := if f.amux = .mbr then mbr else alat
  let blat := s.reg f.b
  let aluout := aluOf f.alu ain blat
  let shout := shiftOf f.sh aluout
  let mar := if f.mar then blat.setWidth 12 else s.mar
  { s with
    mem := mem
    rdc := if 2 ≤ s.rdc then 0 else s.rdc
    wrc := if 2 ≤ s.wrc then 0 else s.wrc
    alat := alat, ain := ain, blat := blat, aluout := aluout, shout := shout
    flagN := decide (aluout.toInt < 0), flagZ := decide (aluout = 0x0000#16)
    mar := mar
    mbr := if f.mbr then shout else mbr
    regs := if f.enc then s.regs.set f.c shout else s.regs
    maddr := if f.rd ∨ f.wr then mar else s.maddr }

/-! ### Paths of the microprogram -/

/-- The control-store entries that at most `n` microinstructions execute, up to the boundary (R205). -/
def microPath : Nat → State → List Nat
  | 0, _ => []
  | n + 1, s =>
    s.mpc.toNat ::
      match microstep s with
      | .next t => if t.atBoundary then [] else microPath n t
      | .fault _ | .refused _ => []

/-- The path that R205 lists for a macro-instruction, given AC at its start; a micro row has none. -/
def listedPath (i : Instr) (ac : Word) : List Nat :=
  match i with
  | .lodd _ => [0, 1, 2, 3, 4, 5, 6, 7, 8]
  | .stod _ => [0, 1, 2, 3, 4, 5, 9, 10]
  | .addd _ => [0, 1, 2, 3, 4, 11, 12, 13, 14]
  | .subd _ => [0, 1, 2, 3, 4, 11, 15, 16, 17, 18]
  | .jpos _ => if ac.toInt < 0 then [0, 1, 2, 3, 19, 20, 21] else [0, 1, 2, 3, 19, 20, 21, 22]
  | .jzer _ => if ac = 0x0000#16 then [0, 1, 2, 3, 19, 20, 23, 22] else [0, 1, 2, 3, 19, 20, 23, 24]
  | .jump _ | .halt _ => [0, 1, 2, 3, 19, 25, 26]
  | .loco _ => [0, 1, 2, 3, 19, 25, 27]
  | .lodl _ => [0, 1, 2, 28, 29, 30, 31, 32, 7, 8]
  | .stol _ => [0, 1, 2, 28, 29, 30, 33, 34, 10]
  | .addl _ => [0, 1, 2, 28, 29, 35, 36, 37, 13, 14]
  | .subl _ => [0, 1, 2, 28, 29, 35, 38, 39, 16, 17, 18]
  | .jneg _ => if ac.toInt < 0 then [0, 1, 2, 28, 40, 41, 42, 22] else [0, 1, 2, 28, 40, 41, 42, 43]
  | .jnze _ => if ac = 0x0000#16 then [0, 1, 2, 28, 40, 41, 44] else [0, 1, 2, 28, 40, 41, 44, 45]
  | .call _ => [0, 1, 2, 28, 40, 46, 47, 48, 49]
  | .pshi => [0, 1, 2, 28, 40, 46, 50, 51, 52, 53, 54, 55, 10]
  | .popi => [0, 1, 2, 28, 40, 46, 50, 51, 52, 56, 57, 58, 10]
  | .push => [0, 1, 2, 28, 40, 46, 50, 51, 59, 60, 61, 10]
  | .pop => [0, 1, 2, 28, 40, 46, 50, 51, 59, 62, 63, 64]
  | .retn => [0, 1, 2, 28, 40, 46, 50, 65, 66, 67, 68, 69]
  | .swap => [0, 1, 2, 28, 40, 46, 50, 65, 66, 70, 71, 72]
  | .insp _ => [0, 1, 2, 28, 40, 46, 50, 65, 73, 74, 75]
  | .desp _ => [0, 1, 2, 28, 40, 46, 50, 65, 73, 76, 77, 78, 75]
  | .aluAdd | .aluAnd | .aluPassA | .aluNotA => []
  | .shIdentity | .shRight1 | .shLeft1 | .shReserved => []
  | .amuxAlat | .amuxMbr => []
  | .condUnconditional _ | .condIfN _ | .condIfZ _ | .condAlways _ => []
  | .marLatch | .mbrLatch | .rdBeginRead | .wrBeginWrite => []
  | .encWriteback _ => []

/-- The registers beside PC, IR and TIR that a macro-instruction writes (R23); a micro row is not meant. -/
def writtenRegs : Instr → List Reg
  | .lodd _ | .addd _ | .loco _ => [.ac]
  | .stod _ | .jpos _ | .jzer _ | .jump _ | .halt _ | .jneg _ | .jnze _ => []
  | .subd _ | .lodl _ | .addl _ | .subl _ => [.ac, .a]
  | .stol _ => [.a]
  | .call _ | .pshi | .popi | .push | .retn => [.sp]
  | .pop => [.ac, .sp]
  | .swap => [.ac, .sp, .a]
  | .insp _ | .desp _ => [.sp, .a]
  | .aluAdd | .aluAnd | .aluPassA | .aluNotA => []
  | .shIdentity | .shRight1 | .shLeft1 | .shReserved => []
  | .amuxAlat | .amuxMbr => []
  | .condUnconditional _ | .condIfN _ | .condIfZ _ | .condAlways _ => []
  | .marLatch | .mbrLatch | .rdBeginRead | .wrBeginWrite => []
  | .encWriteback _ => []

/-! ### The reset table -/

/-- The table of R460, for a value of SP_RESET. -/
structure ResetTable (spReset : Word) (t : State) : Prop where
  zeroed : ∀ r ∈ [Reg.pc, .ac, .ir, .tir, .a, .b, .c, .d, .e, .f], t.reg r = 0x0000#16
  sp : t.reg .sp = spReset
  zero : t.reg .zero = 0x0000#16
  pone : t.reg .pone = 0x0001#16
  mone : t.reg .mone = 0xFFFF#16
  amask : t.reg .amask = 0x0FFF#16
  smask : t.reg .smask = 0x00FF#16
  flags : t.flagN = false ∧ t.flagZ = false
  mpc : t.mpc = 0#8
  phase : t.phase = .phase1
  mir : t.mir = none
  mar : t.mar = 0#12
  mbr : t.mbr = 0x0000#16
  latches : t.alat = 0x0000#16 ∧ t.blat = 0x0000#16 ∧ t.aluout = 0x0000#16 ∧ t.shout = 0x0000#16
  controller : t.maddr = 0#12 ∧ t.rdc = 0 ∧ t.wrc = 0
  cycles : t.cycles = 0
  fault : t.fault = none
  memory : ∀ p : Addr, t.word p = 0x0000#16

end Sys2Proof.Machine
end

