-- ==== Sys2Proof/Certificates/Slice0/Obligations.lean ====
section
/-! DEFINITION. The statements for the provers. -/

open Sys2Proof Sys2Proof.Machine

/-! ### Reset and load -/

/-- R460: reset restores the reset table from any state, whatever SP_RESET is, and leaves the control store;
the state after it is a macro-instruction boundary. The machine's own reset states satisfy the table too. -/
def Obligations.ResetRestoresTheResetTable : Prop :=
  ∀ spReset : Word,
    ResetTable spReset (State.resetWith spReset) ∧
      ∀ s : State, ResetTable spReset (hostReset spReset s) ∧ (hostReset spReset s).cs = s.cs ∧
        (hostReset spReset s).atBoundary = true

/-- The reset states, at every SP_RESET, meet every invariant stated below, and the macro-instruction rules
start from them. (The control store in the state is log entry 3.) -/
def Obligations.ResetStatesMeetTheInvariants : Prop :=
  ∀ spReset : Word,
    (State.resetWith spReset).Coherent ∧ (State.resetWith spReset).UnderDecidedStore ∧
      (State.resetWith spReset).accessesPaired ∧ (State.resetWith spReset).macroReady = true

/-- R462: load writes word i at address i, truncated to 16 bits, sets N_prog, and touches nothing else; more
than 4096 words are refused whole; a failed assembly loads nothing. -/
def Obligations.LoadWritesTheProgramImage : Prop :=
  ∀ (words : List Int) (s : State), s.mem.wf = true →
    (words.length ≤ 4096 → ∃ t, hostLoad words s = some t ∧
      (∀ p : Addr, t.word p = (words[p.toNat]?).elim (s.word p) to16) ∧
      t.nProg = words.length ∧ { t with mem := s.mem, nProg := s.nProg } = s) ∧
    (4096 < words.length → hostLoad words s = none) ∧
    ∀ (spReset : Word) (lines : List (List Char)) (e : AsmError), assemble lines = .error e →
      hostBoot spReset lines s = (s, .error e)

/-- R463: a boot is assemble, reset and load: the words assembled stand from address 0, every other word is 0, and
PC is at the first. -/
def Obligations.BootLoadsTheAssembledProgram : Prop :=
  ∀ (spReset : Word) (lines : List (List Char)) (s : State) (o : AsmOutput), assemble lines = .ok o →
    ∃ t, hostBoot spReset lines s = (t, .ok o.haltAddrs) ∧ (∀ p : Addr, t.word p = o.words.getD p.toNat 0x0000#16) ∧
      t.nProg = o.words.length ∧ t.reg .pc = 0x0000#16 ∧ t.reg .sp = spReset ∧ t.atBoundary = true ∧
      t.fault = none ∧ t.mem.wf = true

/-! ### A step runs the decoded instruction -/

/-- A step of a core that has not faulted is the operation the host requests: the meaning of the instruction
in memory at PC from a macro-instruction boundary, else the microprogram, under any control store run until a
microinstruction leaves mpc = 0, however many that takes; four subcycles; one subcycle. A faulted core takes no
step (log entries 5, 7 and 14). -/
def Obligations.StepRunsTheDecodedInstruction : Prop :=
  ∀ s : State,
    (∀ r, s.fault = some r → step s = .fault r) ∧
    (s.fault = none →
      (s.request = .runMacro → s.macroReady = true →
        step s = exec (decodeMacro (s.mem.read (low12 (s.reg .pc)))) s) ∧
      (s.request = .runMacro → s.macroReady = false → step s = runMicroprogram runBound s) ∧
      (s.request = .runMacro → s.macroReady = false → s.Coherent →
        ∀ (n : Nat) (t : State), runMicroprogram (n + 1) s = .next t → t.atBoundary = true ∨ t.fault ≠ none →
          step s = .next t) ∧
      (s.request = .microstep → s.phase = .phase1 → step s = subcycles 4 s) ∧
      (s.request = .subcycle → step s = subcycle s))

/-- Between phase 1 and phase 4 a subcycle runs the opcode-table rows of the staged microinstruction through
`exec`, in the order of R172 to R175 (log entry 10). -/
def Obligations.StagedSubcyclesRunTheirTableRows : Prop :=
  ∀ (s : State) (f : MicroFields), s.fault = none → s.mir = some f →
    (s.phase = .phase2 →
      subcycle s = andThen (runRows (requestRows f) s) fun t => .next (s.endSubcycle t)) ∧
    (s.phase = .phase3 →
      subcycle s =
        andThen (exec f.amuxInstr (s.completeRead.completeWrite.latchA f.a)) fun t =>
        andThen (runRows (commitRows f) (t.latchB f.b)) fun u => .next (s.endSubcycle (u.present f))) ∧
    (s.phase = .phase4 →
      subcycle s = andThen (exec f.condInstr s) fun t => .next (s.endSubcycle { t with mir := none }))

/-- A word stored where the next instruction is fetched is the one the next step runs, at both levels (log
entry 12). -/
def Obligations.StoredWordIsTheNextToRun : Prop :=
  ∀ (s : State) (w : Nat),
    (s.mem.wf = true → s.constantsIntact = true →
      step (s.withFetchWord 16 w) = exec (decodeMacro (BitVec.ofNat 16 w)) (s.withFetchWord 16 w)) ∧
    ((s.withFetchWord 32 w).microWord = some (BitVec.ofNat 32 w) ∧
      step (s.withFetchWord 32 w) = subcycles 4 (s.withFetchWord 32 w))

/-! ### Encodings -/

/-- A few words written out from R91 to R93, R96 and S11. -/
def Obligations.WrittenOutWordsDecode : Prop :=
  decodeMacro 0b0000000000001100#16 = .lodd 12#12 ∧
  decodeMacro 0b0110111111111111#16 = .jump 0xFFF#12 ∧
  decodeMacro 0b1110000000110010#16 = .call 50#12 ∧
  decodeMacro 0b1111001000000000#16 = .popi ∧
  decodeMacro 0b1111110000000101#16 = .insp 5#8 ∧
  decodeMacro 0b1111111100000101#16 = .desp 5#8 ∧
  decodeMicro 0b1_01_10_00_0_0_0_0_1_0011_0000_0000_00011100#32 =
    { amux := .mbr, cond := .ifN, alu := .passA, sh := .identity, mbr := false, mar := false, rd := false,
      wr := false, enc := true, c := .ir, b := .pc, a := .pc, addr := 28#8 }

/-- Decoding the encoding of a macro-instruction gives it back, with every operand; HALT's word is the word
of the self-jump (R115), which decoding cannot tell from JUMP. -/
def Obligations.MacroDecodeOfEncodeIsTheInstruction : Prop :=
  ∀ i : Instr, i.isMacroLevel = true →
    decode (encode i) = match i with | .halt p => .jump p | j => j

/-- Encoding what a word decodes to gives the word back exactly for the canonical words (R104). -/
def Obligations.CanonicalWordsAreTheEncodings : Prop :=
  ∀ w : Word,
    (isCanonicalWord w = true ↔ encode (decodeMacro w) = .macroWord w) ∧
    (isCanonicalWord w = true ↔
      w.extractLsb' 12 4 ≠ 15#4 ∨ w.extractLsb' 8 8 = 0xFC#8 ∨ w.extractLsb' 8 8 = 0xFE#8 ∨
        w ∈ [0xF000#16, 0xF200#16, 0xF400#16, 0xF600#16, 0xF800#16, 0xFA00#16])

/-- The control-store decoder and its encoder are inverse on all 32 bits (R96). -/
def Obligations.MicroFieldsAndWordsCorrespond : Prop :=
  (∀ f : MicroFields, decodeMicro (encodeMicro f) = f) ∧ (∀ w : MicroWord, encodeMicro (decodeMicro w) = w)

/-- R95: the routine a word selects, from its bits 15 to 9 alone, with its operand. -/
def Obligations.EveryWordSelectsOneRoutine : Prop :=
  ∀ w : Word,
    let x : BitVec 12 := w.extractLsb' 0 12
    let y : BitVec 8 := w.extractLsb' 0 8
    (w.toNat / 4096 < 15 →
      some (decodeMacro w) =
        [Instr.lodd x, .stod x, .addd x, .subd x, .jpos x, .jzer x, .jump x, .loco x, .lodl x, .stol x, .addl x,
          .subl x, .jneg x, .jnze x, .call x][w.toNat / 4096]?) ∧
    (w.toNat / 4096 = 15 →
      some (decodeMacro w) =
        [Instr.pshi, .popi, .push, .pop, .retn, .swap, .insp y, .desp y][w.toNat / 512 % 8]?)

/-- The arithmetic that R94 uses operands with, for every word and every SP; that decoding and the meanings use it
is EveryWordSelectsOneRoutine and the statements about the instructions. -/
def Obligations.OperandsAreZeroExtendedFields : Prop :=
  ∀ w sp : Word,
    (low12 w).toNat = w.toNat % 4096 ∧
    (low12 (w + sp)).toNat = (w.toNat % 4096 + sp.toNat % 4096) % 4096 ∧
    low12 (w + sp) = low12 (sp + zext12 (w.extractLsb' 0 12)) ∧
    w &&& 0x0FFF#16 = zext12 (w.extractLsb' 0 12) ∧
    (zext12 (w.extractLsb' 0 12)).toNat = w.toNat % 4096 ∧
    w &&& 0x00FF#16 = zext8 (w.extractLsb' 0 8) ∧
    (zext8 (w.extractLsb' 0 8)).toNat = w.toNat % 256

/-- R203: the static properties of the decided control store, item by item. -/
def Obligations.DecidedStoreStaticProperties : Prop :=
  let f := fun k : Nat => decodeMicro (decidedStore.getD k 0#32)
  decidedStore.length = 79 ∧
  (∀ k < 79, (f k).sh ≠ .reserved ∧ (f k).sh ≠ .right1) ∧
  (∀ k < 79, (f k).sh = .left1 ↔ k ∈ [3, 4, 19, 28, 29, 40, 46, 50, 51, 65]) ∧
  (∀ k < 79, (f k).addr.toNat < 79) ∧
  (∀ k < 79, ((f k).cond = .ifN ∨ (f k).cond = .ifZ) ↔
    k ∈ [2, 3, 4, 5, 11, 19, 20, 25, 28, 29, 30, 35, 40, 41, 46, 50, 51, 52, 59, 65, 66, 73, 21, 23, 42, 44]) ∧
  (∀ k < 79, (f k).cond = .unconditional → (f k).addr.toNat = k + 1) ∧
  (∀ k < 79, (f k).enc = true → (f k).c ∈ [Reg.pc, .ac, .sp, .ir, .tir, .a]) ∧
  (∀ r ∈ [Reg.pc, .ac, .sp, .ir, .tir, .a], ∃ k < 79, (f k).enc = true ∧ (f k).c = r) ∧
  (∀ k < 79, (f k).a ∉ [Reg.b, .c, .d, .e, .f] ∧ (f k).b ∉ [Reg.b, .c, .d, .e, .f]) ∧
  (∀ k < 79, ((f k).rd && (f k).wr) = false) ∧
  controlStoreWf decidedStore = true

/-! ### The micro rows -/

/-- R134 to R138: the encodings, results and flags of the four ALU operations, on a = AIN and b = BLAT;
nothing else changes. -/
def Obligations.AluRowsComputeTheirRules : Prop :=
  (∀ w : MicroWord,
    ((decodeMicro w).alu = .add ↔ w.extractLsb' 27 2 = 0#2) ∧ ((decodeMicro w).alu = .and ↔ w.extractLsb' 27 2 = 1#2) ∧
    ((decodeMicro w).alu = .passA ↔ w.extractLsb' 27 2 = 2#2) ∧
    ((decodeMicro w).alu = .notA ↔ w.extractLsb' 27 2 = 3#2)) ∧
  ∀ s : State,
    let done := fun r : Word =>
      Host.Outcome.next
        { s with aluout := r, flagN := decide (sgn16 r < 0), flagZ := decide (r = 0x0000#16) }
    exec .aluAdd s = done (to16 (s.ain.toInt + s.blat.toInt)) ∧
    exec .aluAnd s = done (s.ain &&& s.blat) ∧
    exec .aluPassA s = done s.ain ∧
    exec .aluNotA s = done (~~~s.ain)

/-- R139 to R141: the encodings and results of the shifter operations, in both modes of the open parameter;
no flag and nothing else changes. -/
def Obligations.ShifterRowsComputeTheirRules : Prop :=
  (∀ w : MicroWord,
    ((decodeMicro w).sh = .identity ↔ w.extractLsb' 25 2 = 0#2) ∧
    ((decodeMicro w).sh = .right1 ↔ w.extractLsb' 25 2 = 1#2) ∧
    ((decodeMicro w).sh = .left1 ↔ w.extractLsb' 25 2 = 2#2)) ∧
  ∀ s : State,
    exec .shIdentity s = .next { s with shout := s.aluout } ∧
    exec .shRight1 s = .next { s with shout := shiftRight1 Config.rshiftMode s.aluout } ∧
    shiftRight1 .arithmetic s.aluout = s.aluout.sshiftRight 1 ∧
    shiftRight1 .logical s.aluout = s.aluout >>> 1 ∧
    exec .shLeft1 s = .next { s with shout := to16 (2 * s.aluout.toInt) }

/-- The reserved shifter code raises ReservedShift, setting FAULT alone (R100, R172, R421). -/
def Obligations.ReservedShiftRowFaults : Prop :=
  ∀ s : State, exec .shReserved s = .next { s with fault := some (.reservedShift s.mpc.toNat) }

/-- The multiplexer's two settings (R97, R131); that AIN is a field of the state is the model's choice (log
entry 2). -/
def Obligations.MultiplexerRowsSelectTheInput : Prop :=
  (∀ w : MicroWord, (decodeMicro w).amux = .mbr ↔ w.getLsbD 31 = true) ∧
  ∀ s : State,
    exec .amuxAlat s = .next { s with ain := s.alat } ∧ exec .amuxMbr s = .next { s with ain := s.mbr }

/-- The MAR and MBR latches and the writeback (R142 to R144): every register can be written, the constants
of registers 5 to 9 and PC among them (R22), and a latch or writeback changes that one place only. -/
def Obligations.LatchAndWritebackRowsWriteOnePlace : Prop :=
  ∀ s : State,
    exec .marLatch s = .next { s with mar := BitVec.ofNat 12 (s.blat.toNat % 4096) } ∧
    exec .mbrLatch s = .next { s with mbr := s.shout } ∧
    ∀ dst : Reg, ∃ t, exec (.encWriteback dst) s = .next t ∧ t.reg dst = s.shout ∧ RegsKept [dst] s t ∧
      { t with regs := s.regs } = s

/-- The request rows raise their own counter by one (R63). -/
def Obligations.RequestRowsRaiseTheirCounter : Prop :=
  ∀ s : State,
    exec .rdBeginRead s = .next { s with rdc := s.rdc + 1 } ∧
    exec .wrBeginWrite s = .next { s with wrc := s.wrc + 1 }

/-- R176 to R179: each condition's next address; it becomes MPC when it names an entry, else
NextAddressOutOfRange is raised (R180). -/
def Obligations.ConditionRowsChooseTheNextAddress : Prop :=
  ∀ (s : State) (addr : MicroAddr),
    let went := fun (i : Instr) (next : Nat) =>
      (next < 79 → exec i s = .next { s with mpc := BitVec.ofNat 8 next }) ∧
      (79 ≤ next → exec i s = .next { s with fault := some (.nextAddressOutOfRange s.mpc.toNat next) })
    went (.condUnconditional addr) addr.toNat ∧
    (s.flagN = true → went (.condIfN addr) addr.toNat) ∧
    (s.flagN = false → went (.condIfN addr) (s.mpc.toNat + 1)) ∧
    (s.flagZ = true → went (.condIfZ addr) addr.toNat) ∧
    (s.flagZ = false → went (.condIfZ addr) (s.mpc.toNat + 1)) ∧
    went (.condAlways addr) addr.toNat

/-! ### The phases -/

/-- R172: phase 1 stages the 13 fields of the word at MPC and changes nothing else; MPC out of range and the
reserved shifter code fault, in that order. -/
def Obligations.PhaseOneStagesTheFields : Prop :=
  ∀ s : State, s.fault = none → s.phase = .phase1 → s.cs.length = 79 →
    (79 ≤ s.mpc.toNat → subcycle s = .next { s with fault := some (.mpcOutOfRange s.mpc.toNat) }) ∧
    ∀ w : MicroWord, s.mpc.toNat < 79 → s.cs[s.mpc.toNat]? = some w →
      (w.extractLsb' 25 2 = 3#2 → subcycle s = .next { s with fault := some (.reservedShift s.mpc.toNat) }) ∧
      (w.extractLsb' 25 2 ≠ 3#2 → ∃ f : MicroFields,
        subcycle s = .next { s with mir := some f, phase := .phase2, cycles := s.cycles + 1 } ∧
        f.amux.code = w.extractLsb' 31 1 ∧ f.cond.code = w.extractLsb' 29 2 ∧ f.alu.code = w.extractLsb' 27 2 ∧
        f.sh.code = w.extractLsb' 25 2 ∧ f.mbr = w.getLsbD 24 ∧ f.mar = w.getLsbD 23 ∧ f.rd = w.getLsbD 22 ∧
        f.wr = w.getLsbD 21 ∧ f.enc = w.getLsbD 20 ∧ f.c.code = w.extractLsb' 16 4 ∧
        f.b.code = w.extractLsb' 12 4 ∧ f.a.code = w.extractLsb' 8 4 ∧ f.addr = w.extractLsb' 0 8)

/-- R63 and R173: phase 2 raises RDC if RD is staged and WRC if WR is, and does nothing else. -/
def Obligations.PhaseTwoRaisesTheCounters : Prop :=
  ∀ (s : State) (f : MicroFields), s.fault = none → s.phase = .phase2 → s.mir = some f →
    subcycle s = .next { s with
      rdc := if f.rd then s.rdc + 1 else s.rdc, wrc := if f.wr then s.wrc + 1 else s.wrc,
      phase := .phase3, cycles := s.cycles + 1 }

/-- R174: phase 3 is the ten steps, as one update written from R182. -/
def Obligations.PhaseThreeIsTheTenSteps : Prop :=
  ∀ (s : State) (f : MicroFields), s.fault = none → s.phase = .phase3 → s.mir = some f → f.sh ≠ .reserved →
    subcycle s = .next { commitEffect f s with phase := .phase4, cycles := s.cycles + 1 }

/-- R175: phase 4 takes the next address of the staged condition and the flags, and clears MIR; out of range
it faults and changes FAULT alone. -/
def Obligations.PhaseFourBranchesAndClearsTheFields : Prop :=
  ∀ (s : State) (f : MicroFields), s.fault = none → s.phase = .phase4 → s.mir = some f →
    let next := nextAddr f s.flagN s.flagZ s.mpc.toNat
    (next < 79 → subcycle s = .next { s with
      mpc := BitVec.ofNat 8 next, mir := none, phase := .phase1, cycles := s.cycles + 1 }) ∧
    (79 ≤ next → subcycle s = .next { s with fault := some (.nextAddressOutOfRange s.mpc.toNat next) })

/-- R182: one microinstruction in closed form, and where its three faults leave it. -/
def Obligations.MicrostepIsItsClosedForm : Prop :=
  ∀ s : State, s.fault = none → s.phase = .phase1 →
    (79 ≤ s.mpc.toNat → microstep s = .next { s with fault := some (.mpcOutOfRange s.mpc.toNat) }) ∧
    ∀ w : MicroWord, s.mpc.toNat < 79 → s.cs[s.mpc.toNat]? = some w →
      let f := decodeMicro w
      let c := commitEffect f (requestEffect f s)
      let next := nextAddr f c.flagN c.flagZ s.mpc.toNat
      (f.sh = .reserved → microstep s = .next { s with fault := some (.reservedShift s.mpc.toNat) }) ∧
      (f.sh ≠ .reserved → next < 79 → microstep s = .next { c with
        mpc := BitVec.ofNat 8 next, mir := none, phase := .phase1, cycles := s.cycles + 4 }) ∧
      (f.sh ≠ .reserved → 79 ≤ next → microstep s = .next { c with
        mir := some f, phase := .phase4, cycles := s.cycles + 3,
        fault := some (.nextAddressOutOfRange s.mpc.toNat next) })

/-- R28: PHASE names the phase that the next subcycle performs; a subcycle that does not fault advances it 1 to 2
to 3 to 4 to 1, whatever is staged; PHASE is 1 after reset. -/
def Obligations.SubcycleAdvancesThePhase : Prop :=
  (∀ spReset : Word, (State.resetWith spReset).phase = .phase1) ∧
  (∀ (s : State) (f : MicroFields), s.fault = none → s.phase = .phase1 ∨ s.mir = some f →
    subcycle s = andThen (match s.phase with
        | .phase1 => phase1 s | .phase2 => phase2 f s | .phase3 => phase3 f s | .phase4 => phase4 f s)
      fun t => .next (s.endSubcycle t)) ∧
  ∀ s t : State, s.fault = none → subcycle s = .next t → t.fault = none →
    (s.phase = .phase1 → t.phase = .phase2) ∧ (s.phase = .phase2 → t.phase = .phase3) ∧
    (s.phase = .phase3 → t.phase = .phase4) ∧ (s.phase = .phase4 → t.phase = .phase1)

/-- R421: the subcycle that faults changes FAULT alone; a faulted core does nothing at any advance operation;
reset alone clears FAULT, and the run status is the fault. -/
def Obligations.FaultsArePreciseAndPermanent : Prop :=
  (∀ s t : State, s.fault = none → subcycle s = .next t → t.fault ≠ none → t = { s with fault := t.fault }) ∧
  (∀ (s : State) (r : Fault), s.fault = some r →
    subcycle s = .next s ∧ microstep s = .next s ∧ runMacro s = .next s ∧
    (∀ spReset : Word, (hostReset spReset s).fault = none) ∧
    (∀ (words : List Int) (t : State), hostLoad words s = some t → t.fault = some r) ∧
    (∀ (haltAddrs : List Nat) (nProg : Nat), runStatus haltAddrs nProg s = some (.fault r)))

/-! ### The read/write timing controller -/

/-- R69: the counters are 0 or 1 at the end of every phase 3 and phase 4, and at most 2 at the end of phase 2,
as an invariant of the subcycle. -/
def Obligations.CountersStayInRange : Prop :=
  ∀ s t : State, s.stagingConsistent → s.countersInRange → subcycle s = .next t →
    t.countersInRange ∧ (t.fault = none → s.fault = none →
      (s.phase = .phase3 ∨ s.phase = .phase4 → t.rdc ≤ 1 ∧ t.wrc ≤ 1) ∧
      (s.phase = .phase2 → t.rdc ≤ 2 ∧ t.wrc ≤ 2))

/-- R71: two microinstructions in a row with RD = 1, entered with RDC = 0. -/
def Obligations.PairedReadCompletesInTheSecond : Prop :=
  ∀ (s t u : State) (f g : MicroFields), s.fault = none → s.phase = .phase1 → s.rdc = 0 →
    s.microWord.map decodeMicro = some f → f.rd = true → microstep s = .next t → t.fault = none →
    t.microWord.map decodeMicro = some g → g.rd = true → microstep t = .next u → u.fault = none →
    t.rdc = 1 ∧ t.maddr = t.mar ∧ (f.mbr = false → t.mbr = s.mbr) ∧
    u.rdc = 0 ∧ u.maddr = u.mar ∧ (g.mbr = false → u.mbr = t.word t.maddr) ∧
    (g.amux = .mbr → u.ain = t.word t.maddr)

/-- R72: two microinstructions in a row with WR = 1, entered with WRC = 0. -/
def Obligations.PairedWriteCompletesInTheSecond : Prop :=
  ∀ (s t u : State) (f g : MicroFields), s.fault = none → s.phase = .phase1 → s.wrc = 0 → s.mem.wf = true →
    s.microWord.map decodeMicro = some f → f.wr = true → microstep s = .next t → t.fault = none →
    t.microWord.map decodeMicro = some g → g.wr = true → microstep t = .next u → u.fault = none →
    t.wrc = 1 ∧ t.maddr = t.mar ∧ MemKept s t ∧ (f.mbr = true → t.mbr = t.shout) ∧
    u.wrc = 0 ∧ MemKeptExcept t.maddr t u ∧
    (t.rdc = 0 ∨ g.rd = false ∧ t.rdc ≤ 1 → u.word t.maddr = t.mbr)

/-- A lone request stays pending across any microinstruction without the same bit, and the next
microinstruction with the bit completes it at the MADDR then current (R73). -/
def Obligations.LoneRequestsStayPending : Prop :=
  ∀ (s t : State) (f : MicroFields), s.fault = none → s.phase = .phase1 →
    s.microWord.map decodeMicro = some f → microstep s = .next t → t.fault = none →
    (s.rdc = 1 → f.rd = false → t.rdc = 1) ∧ (s.wrc = 1 → f.wr = false → t.wrc = 1 ∧ t.mem = s.mem) ∧
    (s.rdc = 1 → f.rd = true → t.rdc = 0 ∧ (f.mbr = false → t.mbr = s.word s.maddr)) ∧
    (f.rd = false → f.wr = false → t.maddr = s.maddr)

/-- R74: a read and a write that complete together: the read first, then the write of the word just read, so
memory is unchanged; the decided control store never sets RD and WR together. -/
def Obligations.SimultaneousCompletionReadsFirst : Prop :=
  (∀ (s t : State) (f : MicroFields), s.fault = none → s.phase = .phase3 → s.mir = some f → f.sh ≠ .reserved →
    s.mem.wf = true → 2 ≤ s.rdc → 2 ≤ s.wrc → subcycle s = .next t →
    MemKept s t ∧ t.rdc = 0 ∧ t.wrc = 0 ∧ (f.mbr = false → t.mbr = s.word s.maddr)) ∧
  ∀ w ∈ decidedStore, ¬ ((decodeMicro w).rd = true ∧ (decodeMicro w).wr = true)

/-! ### Invariants of every step -/

/-- Every step keeps memory canonical, MPC in range, the staging of MIR, the range of the counters and the
size of the control store, whatever the control store holds (R27, R29, R69, R180). -/
def Obligations.StepKeepsCoherence : Prop :=
  ∀ s t : State, s.Coherent → step s = .next t → t.Coherent

/-- Under the decided control store every step keeps the store, the constants of registers 5 to 9 and the
agreement of MIR with the entry at MPC (R22, R203). -/
def Obligations.StepKeepsTheDecidedStoreInvariant : Prop :=
  ∀ s t : State, s.Coherent → s.UnderDecidedStore → step s = .next t → t.UnderDecidedStore

/-- Under the decided control store the pending accesses follow MPC: every request is one of a pair, and none
is pending at a macro-instruction boundary (R204). -/
def Obligations.StepKeepsAccessesPaired : Prop :=
  (∀ s t : State, s.Coherent → s.UnderDecidedStore → s.accessesPaired → step s = .next t → t.accessesPaired) ∧
  ∀ s : State, s.accessesPaired → s.atBoundary = true → s.rdc = 0 ∧ s.wrc = 0

/-- Under the decided control store no step faults (R203, R420). -/
def Obligations.NoFaultUnderTheDecidedStore : Prop :=
  ∀ s : State, s.Coherent → s.UnderDecidedStore → s.fault = none → ∃ t, step s = .next t ∧ t.fault = none

/-- R36: no step, reset or load writes the control store; after reset it is the decided one, of 79 words. -/
def Obligations.ControlStoreIsNeverWritten : Prop :=
  (∀ spReset : Word, (State.resetWith spReset).cs = decidedStore) ∧ decidedStore.length = 79 ∧
  (∀ s t : State, step s = .next t → t.cs = s.cs) ∧
  (∀ (spReset : Word) (s : State), (hostReset spReset s).cs = s.cs) ∧
  (∀ (words : List Int) (s t : State), hostLoad words s = some t → t.cs = s.cs)

/-- R34: CYCLES grows by one in every subcycle that does not fault, is 0 after reset, and no step's result
depends on it. -/
def Obligations.CyclesCountSubcyclesAndAreNeverRead : Prop :=
  (∀ spReset : Word, (State.resetWith spReset).cycles = 0) ∧
  (∀ s t : State, s.fault = none → subcycle s = .next t → t.fault = none → t.cycles = s.cycles + 1) ∧
  (∀ (s t : State) (c : Nat), step s = .next t →
    step { s with cycles := s.cycles + c } = .next { t with cycles := t.cycles + c })

/-- Equal reads make canonical memories equal data (log entry 13). -/
def Obligations.CanonicalMemoriesAreTheirReads : Prop :=
  ∀ m m' : Mem, m.wf = true → m'.wf = true → (∀ p : Addr, m.read p = m'.read p) → m = m'

/-! ### Macro-instructions against the microprogram -/

/-- From every boundary, for every word, the meaning of the macro-instruction is exactly what the 79-word
control store does, subcycle by subcycle, to the whole state (R299, R200), within 13 microinstructions. -/
def Obligations.MacroMeaningIsItsMicroprogram : Prop :=
  ∀ s : State, s.macroReady = true → ∀ n : Nat, 13 ≤ n → exec s.nextInstr s = runMicroprogram n s

/-- R205: the microprogram runs each macro-instruction along the listed path, to a boundary, four subcycles a
microinstruction. -/
def Obligations.MicroprogramFollowsTheListedPaths : Prop :=
  ∀ s : State, s.macroReady = true →
    microPath 13 s = listedPath s.nextInstr (s.reg .ac) ∧
    ∃ t, runMicroprogram 13 s = .next t ∧ t.atBoundary = true ∧
      t.cycles = s.cycles + 4 * (listedPath s.nextInstr (s.reg .ac)).length

/-- A macro-instruction's effect on registers, memory and flags depends on the registers 0 to 10 and memory
alone: not on N, Z, MAR, MBR, the latches, MADDR or CYCLES (R40), nor on registers 11 to 15 (R23). -/
def Obligations.MacroResultsIgnoreHiddenState : Prop :=
  ∀ s s' : State, s.macroReady = true → s'.macroReady = true → s.mem = s'.mem →
    (∀ r : Reg, r ∉ [Reg.b, .c, .d, .e, .f] → s.reg r = s'.reg r) →
    ∃ t t', runMacro s = .next t ∧ runMacro s' = .next t' ∧ t.mem = t'.mem ∧ t.flagN = t'.flagN ∧
      t.flagZ = t'.flagZ ∧ (∀ r : Reg, r ∉ [Reg.b, .c, .d, .e, .f] → t.reg r = t'.reg r) ∧
      (∀ r ∈ [Reg.b, .c, .d, .e, .f], t.reg r = s.reg r ∧ t'.reg r = s'.reg r)

/-- Every macro-instruction completes, writes no register but PC, IR, TIR and those R23 lists for it, goes to
the next address unless it is a control transfer, and leaves the sequencer, FAULT, the control store and the
host's data alone. -/
def Obligations.MacroInstructionsWriteOnlyTheirRegisters : Prop :=
  ∀ (i : Instr) (s : State), i.isMacroLevel = true →
    ∃ t, exec i s = .next t ∧ RegsKept (.pc :: .ir :: .tir :: writtenRegs i) s t ∧ SequencerKept s t ∧
      (i ∉ [.retn] → (∀ x, i ∉ [.jpos x, .jzer x, .jump x, .halt x, .jneg x, .jnze x, .call x]) →
        t.reg .pc = s.reg .pc + 1#16)

/-! ### The macro-instructions, each with its frame -/

/-- LODD, ADDD and SUBD (43_macro_memory_arith.md, section 2): result, flags, TIR, MAR, MADDR, MBR, A,
latches, time, and every register and word of memory left alone. AIN is the model's own (log entry 2). -/
def Obligations.DirectReadInstructionsCompute : Prop :=
  ∀ (x : BitVec 12) (s : State),
    let m := s.word x
    let pc := s.reg .pc + 1#16
    let ac := s.reg .ac
    (∃ t, exec (.lodd x) s = .next t ∧ MacroFrame 3 9 [.ac] s t ∧ t.reg .pc = pc ∧ t.reg .ac = m ∧
      AccessLeft x m t ∧ ResultLeft m t ∧ LatchesLeft pc pc m t ∧ MemKept s t) ∧
    (∃ t, exec (.addd x) s = .next t ∧ MacroFrame 3 9 [.ac] s t ∧ t.reg .pc = pc ∧ t.reg .ac = ac + m ∧
      AccessLeft x m t ∧ ResultLeft (ac + m) t ∧ LatchesLeft pc ac m t ∧ MemKept s t) ∧
    (∃ t, exec (.subd x) s = .next t ∧ MacroFrame 3 10 [.ac, .a] s t ∧ t.reg .pc = pc ∧ t.reg .ac = ac - m ∧
      t.reg .a = ~~~m ∧ AccessLeft x m t ∧ ResultLeft (ac - m) t ∧ LatchesLeft (ac + 1#16) (~~~m) (ac + 1#16) t ∧
      MemKept s t)

/-- STOD and STOL (43_macro_memory_arith.md): the one word stored, at x or at (SP + x) & 0x0FFF, and the
frame. -/
def Obligations.StoreInstructionsWriteOneWord : Prop :=
  ∀ (x : BitVec 12) (s : State), s.mem.wf = true →
    let pc := s.reg .pc + 1#16
    let ac := s.reg .ac
    let la := low12 (s.reg .sp + zext12 x)
    (∃ t, exec (.stod x) s = .next t ∧ MacroFrame 3 8 [] s t ∧ t.reg .pc = pc ∧ t.word x = ac ∧
      MemKeptExcept x s t ∧ AccessLeft x ac t ∧ ResultLeft pc t ∧ LatchesLeft pc pc pc t) ∧
    (∃ t, exec (.stol x) s = .next t ∧ MacroFrame 3 9 [.a] s t ∧ t.reg .pc = pc ∧ t.word la = ac ∧
      t.reg .a = s.fetchWord + s.reg .sp ∧ MemKeptExcept la s t ∧ AccessLeft la ac t ∧ ResultLeft pc t ∧
      LatchesLeft pc pc pc t)

/-- LOCO (43_macro_memory_arith.md, section 3). -/
def Obligations.LocoLoadsTheConstant : Prop :=
  ∀ (x : BitVec 12) (s : State),
    ∃ t, exec (.loco x) s = .next t ∧ MacroFrame 3 7 [.ac] s t ∧ t.reg .pc = s.reg .pc + 1#16 ∧
      (t.reg .ac).toNat = x.toNat ∧ AccessLeft (low12 (s.reg .pc)) s.fetchWord t ∧
      ResultLeft (t.reg .ac) t ∧ t.flagN = false ∧ (t.flagZ = true ↔ x = 0#12) ∧
      LatchesLeft s.fetchWord (s.reg .amask) s.fetchWord t ∧ MemKept s t

/-- LODL, ADDL and SUBL (43_macro_memory_arith.md, section 4), at (SP + x) & 0x0FFF. -/
def Obligations.LocalReadInstructionsCompute : Prop :=
  ∀ (x : BitVec 12) (s : State),
    let la := low12 (s.reg .sp + zext12 x)
    let m := s.word la
    let pc := s.reg .pc + 1#16
    let ac := s.reg .ac
    let sum := s.fetchWord + s.reg .sp
    (∃ t, exec (.lodl x) s = .next t ∧ MacroFrame 3 10 [.ac, .a] s t ∧ t.reg .pc = pc ∧ t.reg .ac = m ∧
      t.reg .a = sum ∧ AccessLeft la m t ∧ ResultLeft m t ∧ LatchesLeft pc pc m t ∧ MemKept s t) ∧
    (∃ t, exec (.addl x) s = .next t ∧ MacroFrame 3 10 [.ac, .a] s t ∧ t.reg .pc = pc ∧ t.reg .ac = ac + m ∧
      t.reg .a = sum ∧ AccessLeft la m t ∧ ResultLeft (ac + m) t ∧ LatchesLeft pc ac m t ∧ MemKept s t) ∧
    (∃ t, exec (.subl x) s = .next t ∧ MacroFrame 3 11 [.ac, .a] s t ∧ t.reg .pc = pc ∧ t.reg .ac = ac - m ∧
      t.reg .a = ~~~m ∧ AccessLeft la m t ∧ ResultLeft (ac - m) t ∧ LatchesLeft (ac + 1#16) (~~~m) (ac + 1#16) t ∧
      MemKept s t)

/-- JPOS, JZER, JNEG and JNZE (44_macro_control.md, section 2), taken and not taken, on AC at the start. -/
def Obligations.ConditionalJumpsTestTheAccumulator : Prop :=
  ∀ (x : BitVec 12) (s : State),
    let pc := s.reg .pc + 1#16
    let ac := s.reg .ac
    let left := fun (n : Nat) (target f la lb : Word) (t : State) =>
      MacroFrame 3 n [] s t ∧ t.reg .pc = target ∧ ResultLeft f t ∧ LatchesLeft la lb la t ∧
        AccessLeft (low12 (s.reg .pc)) s.fetchWord t ∧ MemKept s t
    let taken := left 8 (zext12 x) (zext12 x) s.fetchWord (s.reg .amask)
    (0 ≤ sgn16 ac → ∃ t, exec (.jpos x) s = .next t ∧ taken t) ∧
    (sgn16 ac < 0 → ∃ t, exec (.jpos x) s = .next t ∧ left 7 pc ac ac pc t) ∧
    (ac = 0x0000#16 → ∃ t, exec (.jzer x) s = .next t ∧ taken t) ∧
    (ac ≠ 0x0000#16 → ∃ t, exec (.jzer x) s = .next t ∧ left 8 pc pc pc pc t) ∧
    (sgn16 ac < 0 → ∃ t, exec (.jneg x) s = .next t ∧ taken t) ∧
    (0 ≤ sgn16 ac → ∃ t, exec (.jneg x) s = .next t ∧ left 8 pc pc pc pc t) ∧
    (ac ≠ 0x0000#16 → ∃ t, exec (.jnze x) s = .next t ∧ taken t) ∧
    (ac = 0x0000#16 → ∃ t, exec (.jnze x) s = .next t ∧ left 7 pc ac ac pc t)

/-- JUMP, and HALT, which the hardware executes as JUMP (44_macro_control.md, section 3). A jump to its own
address leaves PC where it was. -/
def Obligations.JumpAndHaltSetThePc : Prop :=
  ∀ (x : BitVec 12) (s : State),
    exec (.halt x) s = exec (.jump x) s ∧
    ∃ t, exec (.jump x) s = .next t ∧ MacroFrame 3 7 [] s t ∧ (t.reg .pc).toNat = x.toNat ∧
      (s.reg .pc = zext12 x → t.reg .pc = s.reg .pc ∧ t.fetchWord = s.fetchWord) ∧
      ResultLeft (zext12 x) t ∧ LatchesLeft s.fetchWord (s.reg .amask) s.fetchWord t ∧
      AccessLeft (low12 (s.reg .pc)) s.fetchWord t ∧ MemKept s t

/-- CALL and RETN (44_macro_control.md, section 4). -/
def Obligations.CallAndReturnUseTheStack : Prop :=
  ∀ (x : BitVec 12) (s : State), s.mem.wf = true →
    let pc := s.reg .pc + 1#16
    let sp := s.reg .sp
    let top := low12 (sp - 1#16)
    let m := s.word (low12 sp)
    (∃ t, exec (.call x) s = .next t ∧ MacroFrame 4 9 [.sp] s t ∧ t.reg .sp = sp - 1#16 ∧
      t.reg .pc = zext12 x ∧ t.word top = pc ∧ MemKeptExcept top s t ∧ AccessLeft top pc t ∧
      ResultLeft (zext12 x) t ∧ LatchesLeft s.fetchWord (s.reg .amask) s.fetchWord t) ∧
    (∃ t, exec .retn s = .next t ∧ MacroFrame 6 12 [.sp] s t ∧ t.reg .sp = sp + 1#16 ∧ t.reg .pc = m ∧
      AccessLeft (low12 sp) m t ∧ ResultLeft m t ∧ LatchesLeft pc pc m t ∧ MemKept s t)

/-- PUSH and POP (45_macro_stack.md, section 2). -/
def Obligations.PushAndPopMoveTheAccumulator : Prop :=
  ∀ s : State, s.mem.wf = true →
    let pc := s.reg .pc + 1#16
    let sp := s.reg .sp
    let ac := s.reg .ac
    let top := low12 (sp - 1#16)
    let m := s.word (low12 sp)
    (∃ t, exec .push s = .next t ∧ MacroFrame 6 12 [.sp] s t ∧ t.reg .pc = pc ∧ t.reg .sp = sp - 1#16 ∧
      t.word top = ac ∧ MemKeptExcept top s t ∧ AccessLeft top ac t ∧ ResultLeft pc t ∧
      LatchesLeft pc pc pc t) ∧
    (∃ t, exec .pop s = .next t ∧ MacroFrame 6 12 [.ac, .sp] s t ∧ t.reg .pc = pc ∧ t.reg .sp = sp + 1#16 ∧
      t.reg .ac = m ∧ AccessLeft (low12 sp) m t ∧ ResultLeft m t ∧ LatchesLeft pc pc m t ∧ MemKept s t)

/-- PSHI and POPI (45_macro_stack.md, section 2): a read and then a write, through AC and SP. -/
def Obligations.IndirectStackInstructionsCopyOneWord : Prop :=
  ∀ s : State, s.mem.wf = true →
    let pc := s.reg .pc + 1#16
    let sp := s.reg .sp
    let cell := low12 (s.reg .ac)
    let top := low12 (sp - 1#16)
    (∃ t, exec .pshi s = .next t ∧ MacroFrame 6 13 [.sp] s t ∧ t.reg .pc = pc ∧ t.reg .sp = sp - 1#16 ∧
      t.word top = s.word cell ∧ MemKeptExcept top s t ∧ (cell = top → MemKept s t) ∧
      AccessLeft top (s.word cell) t ∧ ResultLeft pc t ∧ LatchesLeft pc pc pc t) ∧
    (∃ t, exec .popi s = .next t ∧ MacroFrame 6 13 [.sp] s t ∧ t.reg .pc = pc ∧ t.reg .sp = sp + 1#16 ∧
      t.word cell = s.word (low12 sp) ∧ MemKeptExcept cell s t ∧ (cell = low12 sp → MemKept s t) ∧
      AccessLeft cell (s.word (low12 sp)) t ∧ ResultLeft pc t ∧ LatchesLeft pc pc pc t)

/-- SWAP (45_macro_stack.md, section 3), and two in a row: AC and SP are back and A is the old SP. -/
def Obligations.SwapExchangesAccumulatorAndStackPointer : Prop :=
  ∀ s : State,
    let pc := s.reg .pc + 1#16
    ∃ t, exec .swap s = .next t ∧ MacroFrame 6 12 [.ac, .sp, .a] s t ∧ t.reg .pc = pc ∧
      t.reg .ac = s.reg .sp ∧ t.reg .sp = s.reg .ac ∧ t.reg .a = s.reg .ac ∧
      AccessLeft (low12 (s.reg .pc)) s.fetchWord t ∧ ResultLeft (s.reg .ac) t ∧
      LatchesLeft (s.reg .ac) pc (s.reg .ac) t ∧ MemKept s t ∧
      ∃ u, exec .swap t = .next u ∧ u.reg .ac = s.reg .ac ∧ u.reg .sp = s.reg .sp ∧ u.reg .a = s.reg .sp

/-- INSP and DESP (45_macro_stack.md, section 3). -/
def Obligations.InspAndDespAdjustTheStackPointer : Prop :=
  ∀ (y : BitVec 8) (s : State),
    let pc := s.reg .pc + 1#16
    let sp := s.reg .sp
    let v := BitVec.ofNat 16 y.toNat
    (∃ t, exec (.insp y) s = .next t ∧ MacroFrame 6 11 [.sp, .a] s t ∧ t.reg .pc = pc ∧ t.reg .a = v ∧
      t.reg .sp = sp + v ∧ AccessLeft (low12 (s.reg .pc)) s.fetchWord t ∧ ResultLeft (sp + v) t ∧
      LatchesLeft sp v sp t ∧ MemKept s t) ∧
    (∃ t, exec (.desp y) s = .next t ∧ MacroFrame 6 13 [.sp, .a] s t ∧ t.reg .pc = pc ∧ t.reg .a = -v ∧
      t.reg .sp = sp - v ∧ AccessLeft (low12 (s.reg .pc)) s.fetchWord t ∧ ResultLeft (sp - v) t ∧
      LatchesLeft sp (-v) sp t ∧ MemKept s t)

/-- R84 seen at the macro level: a store to the next instruction's address is what the very next fetch
reads. -/
def Obligations.StoreIsSeenByTheNextFetch : Prop :=
  ∀ (x : BitVec 12) (s : State), s.mem.wf = true → x = low12 (s.reg .pc + 1#16) →
    ∃ t, exec (.stod x) s = .next t ∧ t.fetchWord = s.reg .ac ∧ t.nextInstr = decodeMacro (s.reg .ac)

/-! ### The host's run and the assembler -/

/-- R433: at a boundary the conditions are checked in the order fault, HALT line, bounds, before the
instruction at PC runs; otherwise one macro-instruction runs and the loop goes on. Between boundaries nothing is
checked. -/
def Obligations.RunChecksItsConditionsInOrder : Prop :=
  (∀ (haltAddrs : List Nat) (nProg n : Nat) (s t : State), s.atBoundary = false → s.fault = none →
    runMacro s = .next t → hostRun haltAddrs nProg (n + 1) s = hostRun haltAddrs nProg n t) ∧
  ∀ (haltAddrs : List Nat) (nProg n : Nat) (s : State), s.atBoundary = true →
    (∀ r, s.fault = some r → hostRun haltAddrs nProg n s = (.next s, some (.fault r))) ∧
    (s.fault = none →
      ((s.reg .pc).toNat ∈ haltAddrs → hostRun haltAddrs nProg n s = (.next s, some .halted)) ∧
      ((s.reg .pc).toNat ∉ haltAddrs →
        (nProg ≤ (s.reg .pc).toNat → hostRun haltAddrs nProg n s = (.next s, some .outOfBounds)) ∧
        (nProg ≤ 4096 → 0x1000 ≤ (s.reg .pc).toNat →
          hostRun haltAddrs nProg n s = (.next s, some .outOfBounds)) ∧
        ((s.reg .pc).toNat < nProg → ∀ t, runMacro s = .next t →
          hostRun haltAddrs nProg (n + 1) s = hostRun haltAddrs nProg n t)))

/-- What an assembly produces: at most 4096 words, each canonical (R104, R117), a HALT at position p being
the jump to p (R115), and the HALT lines' positions inside the program. -/
def Obligations.AssembledWordsAreCanonical : Prop :=
  ∀ (lines : List (List Char)) (o : AsmOutput), assemble lines = .ok o →
    o.words.length ≤ 4096 ∧ (∀ w ∈ o.words, isCanonicalWord w = true) ∧
    ∀ p ∈ o.haltAddrs, o.words[p]? = some (encodeA 0x6#4 (BitVec.ofNat 12 p))

/-- A single line `MNEMONIC operand`: in range it assembles to the word of the instruction, out of range to
the range error of its format on line 1, for every format-A and format-S mnemonic in any case (R112, R113). -/
def Obligations.AssemblerChecksOperandRanges : Prop :=
  ∀ (token operand : List Char) (p : Nat) (v : Int), parseDecimal operand = some v →
    (∀ make, mnemonicForm token = some (.formA make) →
      (0 ≤ v ∧ v ≤ 4095 → assembleTokens p [token, operand] = .ok (make (BitVec.ofInt 12 v))) ∧
      (v < 0 ∨ 4095 < v → assembleTokens p [token, operand] = .error .addressRange)) ∧
    (∀ make, mnemonicForm token = some (.formS make) →
      (0 ≤ v ∧ v ≤ 255 → assembleTokens p [token, operand] = .ok (make (BitVec.ofInt 8 v))) ∧
      (v < 0 ∨ 255 < v → assembleTokens p [token, operand] = .error .byteRange))

/-! ### Registers -/

/-- R21 and its testable form: any integer written to any register, registers 5 to 9 among them, reads back as
its value mod 2^16, whose signed reading is the document's `to_signed16`; no other register changes. -/
def Obligations.RegisterWritesTruncate : Prop :=
  ∀ (s : State) (i : Reg) (v : Int),
    (s.setRegInt i v).reg i = to16 v ∧ ((to16 v).toNat : Int) = v % 65536 ∧
    sgn16 ((s.setRegInt i v).reg i) = Int.bmod v 65536 ∧ RegsKept [i] s (s.setRegInt i v) ∧
    { s.setRegInt i v with regs := s.regs } = s
end

