-- ==== Sys2Proof/Laws/Memory.lean ====
section
/-! SUPPORT. The laws of memory: every memory operation keeps the canonical form, a read after a write gives
the value written, and a write leaves every other address alone. -/

namespace Sys2Proof.Machine

@[simp] theorem Mem.read_nil (p : Addr) : Mem.read [] p = 0x0000#16 := rfl

theorem Mem.read_cons (k : Nat) (v : Word) (rest : Mem) (p : Addr) :
    Mem.read ((k, v) :: rest) p = if k = p.toNat then v else Mem.read rest p := rfl

theorem Mem.wfFrom_cons {lo k : Nat} {v : Word} {rest : Mem} :
    Mem.wfFrom lo ((k, v) :: rest) = true ↔
      lo ≤ k ∧ k < Config.memWords ∧ v ≠ 0x0000#16 ∧ Mem.wfFrom (k + 1) rest = true := by
  simp [Mem.wfFrom, and_assoc]

theorem Mem.wfFrom_mono {lo lo' : Nat} {m : Mem} (h : lo' ≤ lo) (hm : Mem.wfFrom lo m = true) :
    Mem.wfFrom lo' m = true := by
  cases m with
  | nil => rfl
  | cons p rest =>
    obtain ⟨hk, hrest⟩ := Mem.wfFrom_cons.1 hm
    exact Mem.wfFrom_cons.2 ⟨h.trans hk, hrest⟩

/-- Below its first address a canonical memory reads 0x0000. -/
theorem Mem.read_below {lo : Nat} {m : Mem} {p : Addr} (hm : Mem.wfFrom lo m = true) (h : p.toNat < lo) :
    m.read p = 0x0000#16 := by
  induction m generalizing lo with
  | nil => rfl
  | cons c rest ih =>
    obtain ⟨k, v⟩ := c
    obtain ⟨hk, _, _, hrest⟩ := Mem.wfFrom_cons.1 hm
    rw [Mem.read_cons, if_neg (by omega), ih hrest (by omega)]

theorem Mem.wfFrom_consWord {lo : Nat} {p : Addr} {v : Word} {m : Mem} (h : lo ≤ p.toNat)
    (hm : Mem.wfFrom (p.toNat + 1) m = true) : Mem.wfFrom lo (Mem.consWord p v m) = true := by
  unfold Mem.consWord
  split
  · exact Mem.wfFrom_mono (by omega) hm
  · exact Mem.wfFrom_cons.2 ⟨h, p.isLt, ‹_›, hm⟩

theorem Mem.read_consWord_same {p : Addr} {v : Word} {m : Mem} (hm : Mem.wfFrom (p.toNat + 1) m = true) :
    (Mem.consWord p v m).read p = v := by
  unfold Mem.consWord
  split
  · rw [Mem.read_below hm (by omega)]; exact Eq.symm ‹_›
  · simp [Mem.read]

theorem Mem.read_consWord_ne {p q : Addr} {v : Word} {m : Mem} (h : q ≠ p) :
    (Mem.consWord p v m).read q = m.read q := by
  unfold Mem.consWord
  split
  · rfl
  · rw [Mem.read_cons, if_neg (fun e => h (BitVec.eq_of_toNat_eq e.symm))]

theorem Mem.wfFrom_write {lo : Nat} {m : Mem} {p : Addr} (v : Word) (h : lo ≤ p.toNat)
    (hm : Mem.wfFrom lo m = true) : Mem.wfFrom lo (m.write p v) = true := by
  induction m generalizing lo with
  | nil => exact Mem.wfFrom_consWord h rfl
  | cons c rest ih =>
    obtain ⟨k, u⟩ := c
    obtain ⟨hk, hlt, hu, hrest⟩ := Mem.wfFrom_cons.1 hm
    unfold Mem.write
    split
    · exact Mem.wfFrom_consWord h (Mem.wfFrom_cons.2 ⟨by omega, hlt, hu, hrest⟩)
    · split
      · exact Mem.wfFrom_consWord h (Mem.wfFrom_mono (by omega) hrest)
      · exact Mem.wfFrom_cons.2 ⟨hk, hlt, hu, ih (by omega) hrest⟩

/-- A write keeps the canonical form. -/
theorem Mem.wf_write {m : Mem} (p : Addr) (v : Word) (hm : m.wf = true) : (m.write p v).wf = true :=
  Mem.wfFrom_write v (Nat.zero_le _) hm

theorem Mem.read_write_same_from {lo : Nat} {m : Mem} (p : Addr) (v : Word) (hm : Mem.wfFrom lo m = true) :
    (m.write p v).read p = v := by
  induction m generalizing lo with
  | nil => exact Mem.read_consWord_same rfl
  | cons c rest ih =>
    obtain ⟨k, u⟩ := c
    obtain ⟨hk, hlt, hu, hrest⟩ := Mem.wfFrom_cons.1 hm
    unfold Mem.write
    split
    · exact Mem.read_consWord_same (Mem.wfFrom_cons.2 ⟨by omega, hlt, hu, hrest⟩)
    · split
      · exact Mem.read_consWord_same (Mem.wfFrom_mono (by omega) hrest)
      · rw [Mem.read_cons, if_neg (by omega), ih hrest]

/-- A read after a write to the same address gives the value written. -/
theorem Mem.read_write_same {m : Mem} (p : Addr) (v : Word) (hm : m.wf = true) : (m.write p v).read p = v :=
  Mem.read_write_same_from p v hm

/-- A write leaves every other address alone. -/
theorem Mem.read_write_ne {m : Mem} {p q : Addr} (v : Word) (h : q ≠ p) : (m.write p v).read q = m.read q := by
  induction m with
  | nil => exact Mem.read_consWord_ne h
  | cons c rest ih =>
    obtain ⟨k, u⟩ := c
    unfold Mem.write
    split
    · exact Mem.read_consWord_ne h
    · split
      · rw [Mem.read_consWord_ne h, Mem.read_cons, if_neg]
        intro e
        exact h (BitVec.eq_of_toNat_eq (by omega))
      · rw [Mem.read_cons, Mem.read_cons, ih]

/-- A program load keeps the canonical form (R462). -/
theorem Mem.wf_loadFrom (ws : List Int) (i : Nat) {m : Mem} (hm : m.wf = true) :
    (Mem.loadFrom i ws m).wf = true := by
  induction ws generalizing i m with
  | nil => exact hm
  | cons w ws ih => exact ih (i + 1) (Mem.wf_write _ _ hm)

/-- The empty memory, which reset leaves, is canonical. -/
theorem Mem.wf_nil : Mem.wf [] = true := rfl

end Sys2Proof.Machine
end

