-- ==== Sys2Proof/Laws/State.lean ====
section
/-! SUPPORT. The small lemmas of the state's updates: for each update one lemma for the fields it sets, one for
the fields it leaves (simp takes its parts one by one), and one for register reads. -/

namespace Sys2Proof.Machine

@[simp] theorem RegFile.get_set (r : RegFile) (i j : Reg) (v : Word) :
    (r.set i v).get j = if i = j then v else r.get j := by
  cases i <;> cases j <;> rfl

@[simp] theorem State.reg_setReg (s : State) (i j : Reg) (v : Word) :
    (s.setReg i v).reg j = if i = j then v else s.reg j :=
  RegFile.get_set s.regs i j v

@[simp] theorem State.setReg_regs (s : State) (i : Reg) (v : Word) : (s.setReg i v).regs = s.regs.set i v := rfl

@[simp] theorem State.setReg_keeps (s : State) (i : Reg) (v : Word) :
    (s.setReg i v).mpc = s.mpc ∧ (s.setReg i v).phase = s.phase ∧ (s.setReg i v).mir = s.mir ∧
    (s.setReg i v).flagN = s.flagN ∧ (s.setReg i v).flagZ = s.flagZ ∧ (s.setReg i v).mar = s.mar ∧
    (s.setReg i v).mbr = s.mbr ∧ (s.setReg i v).alat = s.alat ∧ (s.setReg i v).blat = s.blat ∧
    (s.setReg i v).aluout = s.aluout ∧ (s.setReg i v).shout = s.shout ∧ (s.setReg i v).maddr = s.maddr ∧
    (s.setReg i v).rdc = s.rdc ∧ (s.setReg i v).wrc = s.wrc ∧ (s.setReg i v).mem = s.mem ∧
    (s.setReg i v).cycles = s.cycles ∧ (s.setReg i v).fault = s.fault ∧ (s.setReg i v).cs = s.cs ∧
    (s.setReg i v).nProg = s.nProg ∧ (s.setReg i v).ain = s.ain ∧ (s.setReg i v).request = s.request :=
  ⟨rfl, rfl, rfl, rfl, rfl, rfl, rfl, rfl, rfl, rfl, rfl, rfl, rfl, rfl, rfl, rfl, rfl, rfl, rfl, rfl, rfl⟩

@[simp] theorem State.raise_fault (s : State) (r : Fault) : (s.raise r).fault = some r := rfl

@[simp] theorem State.raise_keeps (s : State) (r : Fault) :
    (s.raise r).mpc = s.mpc ∧ (s.raise r).phase = s.phase ∧ (s.raise r).mir = s.mir ∧
    (s.raise r).flagN = s.flagN ∧ (s.raise r).flagZ = s.flagZ ∧ (s.raise r).mar = s.mar ∧
    (s.raise r).mbr = s.mbr ∧ (s.raise r).alat = s.alat ∧ (s.raise r).blat = s.blat ∧
    (s.raise r).aluout = s.aluout ∧ (s.raise r).shout = s.shout ∧ (s.raise r).maddr = s.maddr ∧
    (s.raise r).rdc = s.rdc ∧ (s.raise r).wrc = s.wrc ∧ (s.raise r).mem = s.mem ∧
    (s.raise r).cycles = s.cycles ∧ (s.raise r).cs = s.cs ∧ (s.raise r).nProg = s.nProg ∧
    (s.raise r).ain = s.ain ∧ (s.raise r).request = s.request ∧ (s.raise r).regs = s.regs :=
  ⟨rfl, rfl, rfl, rfl, rfl, rfl, rfl, rfl, rfl, rfl, rfl, rfl, rfl, rfl, rfl, rfl, rfl, rfl, rfl, rfl, rfl⟩

@[simp] theorem State.reg_raise (s : State) (r : Fault) (j : Reg) : (s.raise r).reg j = s.reg j := rfl

@[simp] theorem State.beginRead_rdc (s : State) : (s.beginRead).rdc = s.rdc + 1 := rfl

@[simp] theorem State.beginRead_keeps (s : State) :
    (s.beginRead).mpc = s.mpc ∧ (s.beginRead).phase = s.phase ∧ (s.beginRead).mir = s.mir ∧
    (s.beginRead).flagN = s.flagN ∧ (s.beginRead).flagZ = s.flagZ ∧ (s.beginRead).mar = s.mar ∧
    (s.beginRead).mbr = s.mbr ∧ (s.beginRead).alat = s.alat ∧ (s.beginRead).blat = s.blat ∧
    (s.beginRead).aluout = s.aluout ∧ (s.beginRead).shout = s.shout ∧ (s.beginRead).maddr = s.maddr ∧
    (s.beginRead).wrc = s.wrc ∧ (s.beginRead).mem = s.mem ∧ (s.beginRead).cycles = s.cycles ∧
    (s.beginRead).fault = s.fault ∧ (s.beginRead).cs = s.cs ∧ (s.beginRead).nProg = s.nProg ∧
    (s.beginRead).ain = s.ain ∧ (s.beginRead).request = s.request ∧ (s.beginRead).regs = s.regs :=
  ⟨rfl, rfl, rfl, rfl, rfl, rfl, rfl, rfl, rfl, rfl, rfl, rfl, rfl, rfl, rfl, rfl, rfl, rfl, rfl, rfl, rfl⟩

@[simp] theorem State.reg_beginRead (s : State) (j : Reg) : (s.beginRead).reg j = s.reg j := rfl

@[simp] theorem State.beginWrite_wrc (s : State) : (s.beginWrite).wrc = s.wrc + 1 := rfl

@[simp] theorem State.beginWrite_keeps (s : State) :
    (s.beginWrite).mpc = s.mpc ∧ (s.beginWrite).phase = s.phase ∧ (s.beginWrite).mir = s.mir ∧
    (s.beginWrite).flagN = s.flagN ∧ (s.beginWrite).flagZ = s.flagZ ∧ (s.beginWrite).mar = s.mar ∧
    (s.beginWrite).mbr = s.mbr ∧ (s.beginWrite).alat = s.alat ∧ (s.beginWrite).blat = s.blat ∧
    (s.beginWrite).aluout = s.aluout ∧ (s.beginWrite).shout = s.shout ∧ (s.beginWrite).maddr = s.maddr ∧
    (s.beginWrite).rdc = s.rdc ∧ (s.beginWrite).mem = s.mem ∧ (s.beginWrite).cycles = s.cycles ∧
    (s.beginWrite).fault = s.fault ∧ (s.beginWrite).cs = s.cs ∧ (s.beginWrite).nProg = s.nProg ∧
    (s.beginWrite).ain = s.ain ∧ (s.beginWrite).request = s.request ∧ (s.beginWrite).regs = s.regs :=
  ⟨rfl, rfl, rfl, rfl, rfl, rfl, rfl, rfl, rfl, rfl, rfl, rfl, rfl, rfl, rfl, rfl, rfl, rfl, rfl, rfl, rfl⟩

@[simp] theorem State.reg_beginWrite (s : State) (j : Reg) : (s.beginWrite).reg j = s.reg j := rfl

@[simp] theorem State.latchA_alat (s : State) (src : Reg) : (s.latchA src).alat = s.reg src := rfl

@[simp] theorem State.latchA_keeps (s : State) (src : Reg) :
    (s.latchA src).mpc = s.mpc ∧ (s.latchA src).phase = s.phase ∧ (s.latchA src).mir = s.mir ∧
    (s.latchA src).flagN = s.flagN ∧ (s.latchA src).flagZ = s.flagZ ∧ (s.latchA src).mar = s.mar ∧
    (s.latchA src).mbr = s.mbr ∧ (s.latchA src).blat = s.blat ∧ (s.latchA src).aluout = s.aluout ∧
    (s.latchA src).shout = s.shout ∧ (s.latchA src).maddr = s.maddr ∧ (s.latchA src).rdc = s.rdc ∧
    (s.latchA src).wrc = s.wrc ∧ (s.latchA src).mem = s.mem ∧ (s.latchA src).cycles = s.cycles ∧
    (s.latchA src).fault = s.fault ∧ (s.latchA src).cs = s.cs ∧ (s.latchA src).nProg = s.nProg ∧
    (s.latchA src).ain = s.ain ∧ (s.latchA src).request = s.request ∧ (s.latchA src).regs = s.regs :=
  ⟨rfl, rfl, rfl, rfl, rfl, rfl, rfl, rfl, rfl, rfl, rfl, rfl, rfl, rfl, rfl, rfl, rfl, rfl, rfl, rfl, rfl⟩

@[simp] theorem State.reg_latchA (s : State) (src : Reg) (j : Reg) : (s.latchA src).reg j = s.reg j := rfl

@[simp] theorem State.latchB_blat (s : State) (src : Reg) : (s.latchB src).blat = s.reg src := rfl

@[simp] theorem State.latchB_keeps (s : State) (src : Reg) :
    (s.latchB src).mpc = s.mpc ∧ (s.latchB src).phase = s.phase ∧ (s.latchB src).mir = s.mir ∧
    (s.latchB src).flagN = s.flagN ∧ (s.latchB src).flagZ = s.flagZ ∧ (s.latchB src).mar = s.mar ∧
    (s.latchB src).mbr = s.mbr ∧ (s.latchB src).alat = s.alat ∧ (s.latchB src).aluout = s.aluout ∧
    (s.latchB src).shout = s.shout ∧ (s.latchB src).maddr = s.maddr ∧ (s.latchB src).rdc = s.rdc ∧
    (s.latchB src).wrc = s.wrc ∧ (s.latchB src).mem = s.mem ∧ (s.latchB src).cycles = s.cycles ∧
    (s.latchB src).fault = s.fault ∧ (s.latchB src).cs = s.cs ∧ (s.latchB src).nProg = s.nProg ∧
    (s.latchB src).ain = s.ain ∧ (s.latchB src).request = s.request ∧ (s.latchB src).regs = s.regs :=
  ⟨rfl, rfl, rfl, rfl, rfl, rfl, rfl, rfl, rfl, rfl, rfl, rfl, rfl, rfl, rfl, rfl, rfl, rfl, rfl, rfl, rfl⟩

@[simp] theorem State.reg_latchB (s : State) (src : Reg) (j : Reg) : (s.latchB src).reg j = s.reg j := rfl

@[simp] theorem State.setFlags_flagN (s : State) (r : Word) : (s.setFlags r).flagN = negativeFlag r := rfl

@[simp] theorem State.setFlags_flagZ (s : State) (r : Word) : (s.setFlags r).flagZ = zeroFlag r := rfl

@[simp] theorem State.setFlags_keeps (s : State) (r : Word) :
    (s.setFlags r).mpc = s.mpc ∧ (s.setFlags r).phase = s.phase ∧ (s.setFlags r).mir = s.mir ∧
    (s.setFlags r).mar = s.mar ∧ (s.setFlags r).mbr = s.mbr ∧ (s.setFlags r).alat = s.alat ∧
    (s.setFlags r).blat = s.blat ∧ (s.setFlags r).aluout = s.aluout ∧ (s.setFlags r).shout = s.shout ∧
    (s.setFlags r).maddr = s.maddr ∧ (s.setFlags r).rdc = s.rdc ∧ (s.setFlags r).wrc = s.wrc ∧
    (s.setFlags r).mem = s.mem ∧ (s.setFlags r).cycles = s.cycles ∧ (s.setFlags r).fault = s.fault ∧
    (s.setFlags r).cs = s.cs ∧ (s.setFlags r).nProg = s.nProg ∧ (s.setFlags r).ain = s.ain ∧
    (s.setFlags r).request = s.request ∧ (s.setFlags r).regs = s.regs :=
  ⟨rfl, rfl, rfl, rfl, rfl, rfl, rfl, rfl, rfl, rfl, rfl, rfl, rfl, rfl, rfl, rfl, rfl, rfl, rfl, rfl⟩

@[simp] theorem State.reg_setFlags (s : State) (r : Word) (j : Reg) : (s.setFlags r).reg j = s.reg j := rfl

@[simp] theorem State.aluResult_flagN (s : State) (r : Word) : (s.aluResult r).flagN = negativeFlag r := rfl

@[simp] theorem State.aluResult_flagZ (s : State) (r : Word) : (s.aluResult r).flagZ = zeroFlag r := rfl

@[simp] theorem State.aluResult_aluout (s : State) (r : Word) : (s.aluResult r).aluout = r := rfl

@[simp] theorem State.aluResult_keeps (s : State) (r : Word) :
    (s.aluResult r).mpc = s.mpc ∧ (s.aluResult r).phase = s.phase ∧ (s.aluResult r).mir = s.mir ∧
    (s.aluResult r).mar = s.mar ∧ (s.aluResult r).mbr = s.mbr ∧ (s.aluResult r).alat = s.alat ∧
    (s.aluResult r).blat = s.blat ∧ (s.aluResult r).shout = s.shout ∧ (s.aluResult r).maddr = s.maddr ∧
    (s.aluResult r).rdc = s.rdc ∧ (s.aluResult r).wrc = s.wrc ∧ (s.aluResult r).mem = s.mem ∧
    (s.aluResult r).cycles = s.cycles ∧ (s.aluResult r).fault = s.fault ∧ (s.aluResult r).cs = s.cs ∧
    (s.aluResult r).nProg = s.nProg ∧ (s.aluResult r).ain = s.ain ∧ (s.aluResult r).request = s.request ∧
    (s.aluResult r).regs = s.regs :=
  ⟨rfl, rfl, rfl, rfl, rfl, rfl, rfl, rfl, rfl, rfl, rfl, rfl, rfl, rfl, rfl, rfl, rfl, rfl, rfl⟩

@[simp] theorem State.reg_aluResult (s : State) (r : Word) (j : Reg) : (s.aluResult r).reg j = s.reg j := rfl

@[simp] theorem State.dataRead_mar (s : State) (at' : Addr) : (s.dataRead at').mar = at' := rfl

@[simp] theorem State.dataRead_maddr (s : State) (at' : Addr) : (s.dataRead at').maddr = at' := rfl

@[simp] theorem State.dataRead_mbr (s : State) (at' : Addr) : (s.dataRead at').mbr = s.word at' := rfl

@[simp] theorem State.dataRead_keeps (s : State) (at' : Addr) :
    (s.dataRead at').mpc = s.mpc ∧ (s.dataRead at').phase = s.phase ∧ (s.dataRead at').mir = s.mir ∧
    (s.dataRead at').flagN = s.flagN ∧ (s.dataRead at').flagZ = s.flagZ ∧ (s.dataRead at').alat = s.alat ∧
    (s.dataRead at').blat = s.blat ∧ (s.dataRead at').aluout = s.aluout ∧
    (s.dataRead at').shout = s.shout ∧ (s.dataRead at').rdc = s.rdc ∧ (s.dataRead at').wrc = s.wrc ∧
    (s.dataRead at').mem = s.mem ∧ (s.dataRead at').cycles = s.cycles ∧ (s.dataRead at').fault = s.fault ∧
    (s.dataRead at').cs = s.cs ∧ (s.dataRead at').nProg = s.nProg ∧ (s.dataRead at').ain = s.ain ∧
    (s.dataRead at').request = s.request ∧ (s.dataRead at').regs = s.regs :=
  ⟨rfl, rfl, rfl, rfl, rfl, rfl, rfl, rfl, rfl, rfl, rfl, rfl, rfl, rfl, rfl, rfl, rfl, rfl, rfl⟩

@[simp] theorem State.reg_dataRead (s : State) (at' : Addr) (j : Reg) : (s.dataRead at').reg j = s.reg j := rfl

@[simp] theorem State.dataWrite_mar (s : State) (at' : Addr) (v : Word) : (s.dataWrite at' v).mar = at' := rfl

@[simp] theorem State.dataWrite_maddr (s : State) (at' : Addr) (v : Word) : (s.dataWrite at' v).maddr = at' := rfl

@[simp] theorem State.dataWrite_mbr (s : State) (at' : Addr) (v : Word) : (s.dataWrite at' v).mbr = v := rfl

@[simp] theorem State.dataWrite_mem (s : State) (at' : Addr) (v : Word) : (s.dataWrite at' v).mem = s.mem.write at' v := rfl

@[simp] theorem State.dataWrite_keeps (s : State) (at' : Addr) (v : Word) :
    (s.dataWrite at' v).mpc = s.mpc ∧ (s.dataWrite at' v).phase = s.phase ∧
    (s.dataWrite at' v).mir = s.mir ∧ (s.dataWrite at' v).flagN = s.flagN ∧
    (s.dataWrite at' v).flagZ = s.flagZ ∧ (s.dataWrite at' v).alat = s.alat ∧
    (s.dataWrite at' v).blat = s.blat ∧ (s.dataWrite at' v).aluout = s.aluout ∧
    (s.dataWrite at' v).shout = s.shout ∧ (s.dataWrite at' v).rdc = s.rdc ∧
    (s.dataWrite at' v).wrc = s.wrc ∧ (s.dataWrite at' v).cycles = s.cycles ∧
    (s.dataWrite at' v).fault = s.fault ∧ (s.dataWrite at' v).cs = s.cs ∧
    (s.dataWrite at' v).nProg = s.nProg ∧ (s.dataWrite at' v).ain = s.ain ∧
    (s.dataWrite at' v).request = s.request ∧ (s.dataWrite at' v).regs = s.regs :=
  ⟨rfl, rfl, rfl, rfl, rfl, rfl, rfl, rfl, rfl, rfl, rfl, rfl, rfl, rfl, rfl, rfl, rfl, rfl⟩

@[simp] theorem State.reg_dataWrite (s : State) (at' : Addr) (v : Word) (j : Reg) : (s.dataWrite at' v).reg j = s.reg j := rfl

@[simp] theorem State.fetch_mar (s : State) : (s.fetch).mar = s.fetchAddr := rfl

@[simp] theorem State.fetch_maddr (s : State) : (s.fetch).maddr = s.fetchAddr := rfl

@[simp] theorem State.fetch_mbr (s : State) : (s.fetch).mbr = s.fetchWord := rfl

@[simp] theorem State.fetch_keeps (s : State) :
    (s.fetch).mpc = s.mpc ∧ (s.fetch).phase = s.phase ∧ (s.fetch).mir = s.mir ∧ (s.fetch).flagN = s.flagN ∧
    (s.fetch).flagZ = s.flagZ ∧ (s.fetch).alat = s.alat ∧ (s.fetch).blat = s.blat ∧
    (s.fetch).aluout = s.aluout ∧ (s.fetch).shout = s.shout ∧ (s.fetch).rdc = s.rdc ∧
    (s.fetch).wrc = s.wrc ∧ (s.fetch).mem = s.mem ∧ (s.fetch).cycles = s.cycles ∧
    (s.fetch).fault = s.fault ∧ (s.fetch).cs = s.cs ∧ (s.fetch).nProg = s.nProg ∧ (s.fetch).ain = s.ain ∧
    (s.fetch).request = s.request :=
  ⟨rfl, rfl, rfl, rfl, rfl, rfl, rfl, rfl, rfl, rfl, rfl, rfl, rfl, rfl, rfl, rfl, rfl, rfl⟩

@[simp] theorem State.fetchDecode_mar (s : State) (k : Nat) : (s.fetchDecode k).mar = s.fetchAddr := rfl

@[simp] theorem State.fetchDecode_maddr (s : State) (k : Nat) : (s.fetchDecode k).maddr = s.fetchAddr := rfl

@[simp] theorem State.fetchDecode_mbr (s : State) (k : Nat) : (s.fetchDecode k).mbr = s.fetchWord := rfl

@[simp] theorem State.fetchDecode_keeps (s : State) (k : Nat) :
    (s.fetchDecode k).mpc = s.mpc ∧ (s.fetchDecode k).phase = s.phase ∧ (s.fetchDecode k).mir = s.mir ∧
    (s.fetchDecode k).flagN = s.flagN ∧ (s.fetchDecode k).flagZ = s.flagZ ∧
    (s.fetchDecode k).alat = s.alat ∧ (s.fetchDecode k).blat = s.blat ∧
    (s.fetchDecode k).aluout = s.aluout ∧ (s.fetchDecode k).shout = s.shout ∧
    (s.fetchDecode k).rdc = s.rdc ∧ (s.fetchDecode k).wrc = s.wrc ∧ (s.fetchDecode k).mem = s.mem ∧
    (s.fetchDecode k).cycles = s.cycles ∧ (s.fetchDecode k).fault = s.fault ∧ (s.fetchDecode k).cs = s.cs ∧
    (s.fetchDecode k).nProg = s.nProg ∧ (s.fetchDecode k).ain = s.ain ∧
    (s.fetchDecode k).request = s.request :=
  ⟨rfl, rfl, rfl, rfl, rfl, rfl, rfl, rfl, rfl, rfl, rfl, rfl, rfl, rfl, rfl, rfl, rfl, rfl⟩

@[simp] theorem State.retire_flagN (s : State) (la lb mux f : Word) (n : Nat) : (s.retire la lb mux f n).flagN = negativeFlag f := rfl

@[simp] theorem State.retire_flagZ (s : State) (la lb mux f : Word) (n : Nat) : (s.retire la lb mux f n).flagZ = zeroFlag f := rfl

@[simp] theorem State.retire_alat (s : State) (la lb mux f : Word) (n : Nat) : (s.retire la lb mux f n).alat = la := rfl

@[simp] theorem State.retire_blat (s : State) (la lb mux f : Word) (n : Nat) : (s.retire la lb mux f n).blat = lb := rfl

@[simp] theorem State.retire_ain (s : State) (la lb mux f : Word) (n : Nat) : (s.retire la lb mux f n).ain = mux := rfl

@[simp] theorem State.retire_aluout (s : State) (la lb mux f : Word) (n : Nat) : (s.retire la lb mux f n).aluout = f := rfl

@[simp] theorem State.retire_shout (s : State) (la lb mux f : Word) (n : Nat) : (s.retire la lb mux f n).shout = f := rfl

@[simp] theorem State.retire_cycles (s : State) (la lb mux f : Word) (n : Nat) : (s.retire la lb mux f n).cycles = s.cycles + 4 * n := rfl

@[simp] theorem State.retire_keeps (s : State) (la lb mux f : Word) (n : Nat) :
    (s.retire la lb mux f n).mpc = s.mpc ∧ (s.retire la lb mux f n).phase = s.phase ∧
    (s.retire la lb mux f n).mir = s.mir ∧ (s.retire la lb mux f n).mar = s.mar ∧
    (s.retire la lb mux f n).mbr = s.mbr ∧ (s.retire la lb mux f n).maddr = s.maddr ∧
    (s.retire la lb mux f n).rdc = s.rdc ∧ (s.retire la lb mux f n).wrc = s.wrc ∧
    (s.retire la lb mux f n).mem = s.mem ∧ (s.retire la lb mux f n).fault = s.fault ∧
    (s.retire la lb mux f n).cs = s.cs ∧ (s.retire la lb mux f n).nProg = s.nProg ∧
    (s.retire la lb mux f n).request = s.request ∧ (s.retire la lb mux f n).regs = s.regs :=
  ⟨rfl, rfl, rfl, rfl, rfl, rfl, rfl, rfl, rfl, rfl, rfl, rfl, rfl, rfl⟩

@[simp] theorem State.reg_retire (s : State) (la lb mux f : Word) (n : Nat) (j : Reg) : (s.retire la lb mux f n).reg j = s.reg j := rfl

@[simp] theorem State.reg_fetch (s : State) (j : Reg) :
    s.fetch.reg j = if .ir = j then s.fetchWord else if .pc = j then s.reg .pc + 1#16 else s.reg j := by
  cases j <;> rfl

@[simp] theorem State.reg_fetchDecode (s : State) (k : Nat) (j : Reg) :
    (s.fetchDecode k).reg j =
      if .tir = j then s.fetchWord <<< k
      else if .ir = j then s.fetchWord else if .pc = j then s.reg .pc + 1#16 else s.reg j := by
  cases j <;> rfl

@[simp] theorem State.word_fetchDecode (s : State) (k : Nat) (p : Addr) : (s.fetchDecode k).word p = s.word p := rfl

@[simp] theorem State.completeRead_keeps (s : State) :
    (s.completeRead).mpc = s.mpc ∧ (s.completeRead).phase = s.phase ∧ (s.completeRead).mir = s.mir ∧
    (s.completeRead).flagN = s.flagN ∧ (s.completeRead).flagZ = s.flagZ ∧ (s.completeRead).mar = s.mar ∧
    (s.completeRead).alat = s.alat ∧ (s.completeRead).blat = s.blat ∧ (s.completeRead).aluout = s.aluout ∧
    (s.completeRead).shout = s.shout ∧ (s.completeRead).maddr = s.maddr ∧ (s.completeRead).wrc = s.wrc ∧
    (s.completeRead).mem = s.mem ∧ (s.completeRead).cycles = s.cycles ∧ (s.completeRead).fault = s.fault ∧
    (s.completeRead).cs = s.cs ∧ (s.completeRead).nProg = s.nProg ∧ (s.completeRead).ain = s.ain ∧
    (s.completeRead).request = s.request ∧ (s.completeRead).regs = s.regs := by
  unfold State.completeRead
  split <;> exact ⟨rfl, rfl, rfl, rfl, rfl, rfl, rfl, rfl, rfl, rfl, rfl, rfl, rfl, rfl, rfl, rfl, rfl, rfl, rfl, rfl⟩

@[simp] theorem State.reg_completeRead (s : State) (j : Reg) : (s.completeRead).reg j = s.reg j := by
  unfold State.completeRead
  split <;> rfl

@[simp] theorem State.completeWrite_keeps (s : State) :
    (s.completeWrite).mpc = s.mpc ∧ (s.completeWrite).phase = s.phase ∧ (s.completeWrite).mir = s.mir ∧
    (s.completeWrite).flagN = s.flagN ∧ (s.completeWrite).flagZ = s.flagZ ∧ (s.completeWrite).mar = s.mar ∧
    (s.completeWrite).mbr = s.mbr ∧ (s.completeWrite).alat = s.alat ∧ (s.completeWrite).blat = s.blat ∧
    (s.completeWrite).aluout = s.aluout ∧ (s.completeWrite).shout = s.shout ∧
    (s.completeWrite).maddr = s.maddr ∧ (s.completeWrite).rdc = s.rdc ∧
    (s.completeWrite).cycles = s.cycles ∧ (s.completeWrite).fault = s.fault ∧ (s.completeWrite).cs = s.cs ∧
    (s.completeWrite).nProg = s.nProg ∧ (s.completeWrite).ain = s.ain ∧
    (s.completeWrite).request = s.request ∧ (s.completeWrite).regs = s.regs := by
  unfold State.completeWrite
  split <;> exact ⟨rfl, rfl, rfl, rfl, rfl, rfl, rfl, rfl, rfl, rfl, rfl, rfl, rfl, rfl, rfl, rfl, rfl, rfl, rfl, rfl⟩

@[simp] theorem State.reg_completeWrite (s : State) (j : Reg) : (s.completeWrite).reg j = s.reg j := by
  unfold State.completeWrite
  split <;> rfl

@[simp] theorem State.present_keeps (s : State) (f : MicroFields) :
    (s.present f).mpc = s.mpc ∧ (s.present f).phase = s.phase ∧ (s.present f).mir = s.mir ∧
    (s.present f).flagN = s.flagN ∧ (s.present f).flagZ = s.flagZ ∧ (s.present f).mar = s.mar ∧
    (s.present f).mbr = s.mbr ∧ (s.present f).alat = s.alat ∧ (s.present f).blat = s.blat ∧
    (s.present f).aluout = s.aluout ∧ (s.present f).shout = s.shout ∧ (s.present f).rdc = s.rdc ∧
    (s.present f).wrc = s.wrc ∧ (s.present f).mem = s.mem ∧ (s.present f).cycles = s.cycles ∧
    (s.present f).fault = s.fault ∧ (s.present f).cs = s.cs ∧ (s.present f).nProg = s.nProg ∧
    (s.present f).ain = s.ain ∧ (s.present f).request = s.request ∧ (s.present f).regs = s.regs := by
  unfold State.present
  split <;> exact ⟨rfl, rfl, rfl, rfl, rfl, rfl, rfl, rfl, rfl, rfl, rfl, rfl, rfl, rfl, rfl, rfl, rfl, rfl, rfl, rfl, rfl⟩

@[simp] theorem State.reg_present (s : State) (f : MicroFields) (j : Reg) : (s.present f).reg j = s.reg j := by
  unfold State.present
  split <;> rfl

@[simp] theorem State.goMicro_keeps (s : State) (next : Nat) :
    (s.goMicro next).phase = s.phase ∧ (s.goMicro next).mir = s.mir ∧ (s.goMicro next).flagN = s.flagN ∧
    (s.goMicro next).flagZ = s.flagZ ∧ (s.goMicro next).mar = s.mar ∧ (s.goMicro next).mbr = s.mbr ∧
    (s.goMicro next).alat = s.alat ∧ (s.goMicro next).blat = s.blat ∧ (s.goMicro next).aluout = s.aluout ∧
    (s.goMicro next).shout = s.shout ∧ (s.goMicro next).maddr = s.maddr ∧ (s.goMicro next).rdc = s.rdc ∧
    (s.goMicro next).wrc = s.wrc ∧ (s.goMicro next).mem = s.mem ∧ (s.goMicro next).cycles = s.cycles ∧
    (s.goMicro next).cs = s.cs ∧ (s.goMicro next).nProg = s.nProg ∧ (s.goMicro next).ain = s.ain ∧
    (s.goMicro next).request = s.request ∧ (s.goMicro next).regs = s.regs := by
  unfold State.goMicro
  split <;> exact ⟨rfl, rfl, rfl, rfl, rfl, rfl, rfl, rfl, rfl, rfl, rfl, rfl, rfl, rfl, rfl, rfl, rfl, rfl, rfl, rfl⟩

@[simp] theorem State.reg_goMicro (s : State) (next : Nat) (j : Reg) : (s.goMicro next).reg j = s.reg j := by
  unfold State.goMicro
  split <;> rfl

end Sys2Proof.Machine
end

