-- ==== Sys2Proof/Laws/Ops.lean ====
section
/-! SUPPORT. One lemma per shared operation that says once what it can do; proofs cite these and do not unfold
the operations. -/

namespace Sys2Proof.Machine

@[simp] theorem andThen_next (s : State) (f : State → Host.Outcome State Fault Refusal) :
    andThen (.next s) f = f s := rfl

/-- The one way a chain ends in a next state. -/
theorem andThen_eq_next {o : Host.Outcome State Fault Refusal} {f : State → Host.Outcome State Fault Refusal}
    {t : State} : andThen o f = .next t ↔ ∃ u, o = .next u ∧ f u = .next t := by
  cases o <;> simp [andThen]

@[simp] theorem runRows_nil (s : State) : runRows [] s = .next s := rfl

theorem runRows_cons (i : Instr) (rows : List Instr) (s : State) :
    runRows (i :: rows) s = andThen (exec i s) (runRows rows) := rfl

/-- Read completion (R67): at the threshold MBR is loaded and RDC cleared, below it nothing happens. -/
theorem State.completeRead_cases (s : State) :
    (2 ≤ s.rdc ∧ s.completeRead = { s with mbr := s.word s.maddr, rdc := 0 }) ∨
      (s.rdc < 2 ∧ s.completeRead = s) := by
  unfold State.completeRead State.readReady Config.threshold
  by_cases h : 2 ≤ s.rdc
  · exact .inl ⟨h, by simp [h]⟩
  · exact .inr ⟨by omega, by simp [h]⟩

/-- Write completion (R68): at the threshold M is written and WRC cleared, below it nothing happens. -/
theorem State.completeWrite_cases (s : State) :
    (2 ≤ s.wrc ∧ s.completeWrite = { s with mem := s.mem.write s.maddr s.mbr, wrc := 0 }) ∨
      (s.wrc < 2 ∧ s.completeWrite = s) := by
  unfold State.completeWrite State.writeReady Config.threshold
  by_cases h : 2 ≤ s.wrc
  · exact .inl ⟨h, by simp [h]⟩
  · exact .inr ⟨by omega, by simp [h]⟩

/-- Using a next address (R175, R180): it names an entry, or FAULT is set. -/
theorem State.goMicro_cases (s : State) (next : Nat) :
    (next < 79 ∧ s.goMicro next = { s with mpc := BitVec.ofNat 8 next }) ∨
      (79 ≤ next ∧ s.goMicro next = s.raise (.nextAddressOutOfRange s.mpc.toNat next)) := by
  unfold State.goMicro Config.csSize
  by_cases h : next < 79
  · exact .inl ⟨h, if_pos h⟩
  · exact .inr ⟨by omega, if_neg h⟩

/-- The end of a subcycle (R170, R421). -/
theorem State.endSubcycle_cases (s t : State) :
    (∃ r, t.fault = some r ∧ s.endSubcycle t = s.raise r) ∨
      (t.fault = none ∧ s.endSubcycle t = { t with phase := t.phase.succ, cycles := t.cycles + 1 }) := by
  unfold State.endSubcycle
  split
  · exact .inl ⟨_, ‹_›, rfl⟩
  · exact .inr ⟨‹_›, rfl⟩

/-- What a subcycle can do (R170, R421): nothing if the core has faulted, else its phase and the end of the
subcycle. -/
theorem subcycle_cases {s t : State} (h : subcycle s = .next t) :
    (s.fault ≠ none ∧ t = s) ∨ (s.fault = none ∧ ∃ u, runPhase s = .next u ∧ t = s.endSubcycle u) := by
  unfold subcycle at h
  cases hf : s.fault with
  | some r =>
    rw [hf] at h
    exact .inl ⟨by simp, (Host.Outcome.next.inj h).symm⟩
  | none =>
    rw [hf] at h
    obtain ⟨u, hu, ht⟩ := andThen_eq_next.1 h
    exact .inr ⟨rfl, u, hu, (Host.Outcome.next.inj ht).symm⟩

/-- A subcycle of a faulted core does nothing (R421). -/
theorem subcycle_faulted {s : State} (h : s.fault ≠ none) : subcycle s = .next s := by
  unfold subcycle
  cases hf : s.fault with
  | some r => rfl
  | none => exact absurd hf h

theorem subcycles_succ (n : Nat) (s : State) : subcycles (n + 1) s = andThen (subcycle s) (subcycles n) := rfl

/-- What a step can do: one call of the advance operation the host requests, on a core that has not
faulted. -/
theorem step_cases {s t : State} (h : step s = .next t) :
    s.fault = none ∧
      ((s.request = .subcycle ∧ subcycle s = .next t) ∨ (s.request = .microstep ∧ microstep s = .next t) ∨
        (s.request = .runMacro ∧ runMacro s = .next t)) := by
  unfold step at h
  cases hf : s.fault with
  | some r => rw [hf] at h; cases h
  | none =>
    rw [hf] at h
    refine ⟨rfl, ?_⟩
    unfold advance at h
    cases hr : s.request <;> rw [hr] at h
    · exact .inl ⟨rfl, h⟩
    · exact .inr (.inl ⟨rfl, h⟩)
    · exact .inr (.inr ⟨rfl, h⟩)

/-- What running a macro-instruction can do. -/
theorem runMacro_cases {s t : State} (h : runMacro s = .next t) :
    (s.macroReady = true ∧ exec s.nextInstr s = .next t) ∨
      (s.macroReady = false ∧ runMicroprogram runBound s = .next t) := by
  unfold runMacro at h
  cases hm : s.macroReady <;> rw [hm] at h
  · exact .inr ⟨rfl, h⟩
  · exact .inl ⟨rfl, h⟩

/-- What `macroReady` says, part by part (R299). -/
theorem State.macroReady_iff {s : State} :
    s.macroReady = true ↔
      s.mpc = 0#8 ∧ s.phase = .phase1 ∧ s.mir = none ∧ s.fault = none ∧ s.rdc = 0 ∧ s.wrc = 0 ∧
        s.constantsIntact = true ∧ s.cs = decidedStore := by
  simp [State.macroReady, State.atBoundary, and_assoc]

end Sys2Proof.Machine
end

