-- ==== Sys2Proof/Laws/PerInstr.lean ====
section
/-! SUPPORT. The per-instruction laws: the encoding of every instruction lies in its row of the opcode table. -/

namespace Sys2Proof.Laws.TableRow

/-- The fixed field of a row of spec/opcode_table.json: its lowest bit, its length and its value. -/
structure FixedField where
  lo : Nat
  len : Nat
  value : Nat

/-- The fixed field that the opcode table gives the row of an instruction. -/
def fixedField : Instr → FixedField
  | .lodd _ => ⟨12, 4, 0⟩
  | .stod _ => ⟨12, 4, 1⟩
  | .addd _ => ⟨12, 4, 2⟩
  | .subd _ => ⟨12, 4, 3⟩
  | .jpos _ => ⟨12, 4, 4⟩
  | .jzer _ => ⟨12, 4, 5⟩
  | .jump _ => ⟨12, 4, 6⟩
  | .loco _ => ⟨12, 4, 7⟩
  | .lodl _ => ⟨12, 4, 8⟩
  | .stol _ => ⟨12, 4, 9⟩
  | .addl _ => ⟨12, 4, 10⟩
  | .subl _ => ⟨12, 4, 11⟩
  | .jneg _ => ⟨12, 4, 12⟩
  | .jnze _ => ⟨12, 4, 13⟩
  | .call _ => ⟨12, 4, 14⟩
  | .halt _ => ⟨12, 4, 6⟩
  | .pshi => ⟨9, 7, 120⟩
  | .popi => ⟨9, 7, 121⟩
  | .push => ⟨9, 7, 122⟩
  | .pop => ⟨9, 7, 123⟩
  | .retn => ⟨9, 7, 124⟩
  | .swap => ⟨9, 7, 125⟩
  | .insp _ => ⟨9, 7, 126⟩
  | .desp _ => ⟨9, 7, 127⟩
  | .aluAdd => ⟨27, 2, 0⟩
  | .aluAnd => ⟨27, 2, 1⟩
  | .aluPassA => ⟨27, 2, 2⟩
  | .aluNotA => ⟨27, 2, 3⟩
  | .shIdentity => ⟨25, 2, 0⟩
  | .shRight1 => ⟨25, 2, 1⟩
  | .shLeft1 => ⟨25, 2, 2⟩
  | .shReserved => ⟨25, 2, 3⟩
  | .amuxAlat => ⟨31, 1, 0⟩
  | .amuxMbr => ⟨31, 1, 1⟩
  | .condUnconditional _ => ⟨29, 2, 0⟩
  | .condIfN _ => ⟨29, 2, 1⟩
  | .condIfZ _ => ⟨29, 2, 2⟩
  | .condAlways _ => ⟨29, 2, 3⟩
  | .marLatch => ⟨23, 1, 1⟩
  | .mbrLatch => ⟨24, 1, 1⟩
  | .rdBeginRead => ⟨22, 1, 1⟩
  | .wrBeginWrite => ⟨21, 1, 1⟩
  | .encWriteback _ => ⟨20, 1, 1⟩

/-- The bits of a code word as a number. -/
def codeBits : CodeWord → Nat
  | .macroWord w => w.toNat
  | .microWord w => w.toNat

/-- The encoding of the instruction has the fixed field of its row. -/
def Statement (i : Instr) : Prop :=
  codeBits (encode i) / 2 ^ (fixedField i).lo % 2 ^ (fixedField i).len = (fixedField i).value

/-- Bits 15 to 12 of a format-A word are its opcode (R91). -/
theorem encodeA_opcode (op : BitVec 4) (x : BitVec 12) : (encodeA op x).toNat / 2 ^ 12 % 2 ^ 4 = op.toNat := by
  have hx := x.isLt
  have ho := op.isLt
  rw [encodeA, BitVec.toNat_append, ← Nat.shiftLeft_add_eq_or_of_lt hx, Nat.shiftLeft_eq]
  omega

/-- Bits 15 to 9 of a format-S word are those of its opcode (R92, R95). -/
theorem encodeS_opcode (op : BitVec 8) (y : BitVec 8) :
    (encodeS op y).toNat / 2 ^ 9 % 2 ^ 7 = op.toNat / 2 := by
  have hy := y.isLt
  have ho := op.isLt
  rw [encodeS, BitVec.toNat_append, ← Nat.shiftLeft_add_eq_or_of_lt hy, Nat.shiftLeft_eq]
  omega

theorem lodd (x : BitVec 12) : Statement (.lodd x) := encodeA_opcode 0x0#4 x

theorem stod (x : BitVec 12) : Statement (.stod x) := encodeA_opcode 0x1#4 x

theorem addd (x : BitVec 12) : Statement (.addd x) := encodeA_opcode 0x2#4 x

theorem subd (x : BitVec 12) : Statement (.subd x) := encodeA_opcode 0x3#4 x

theorem jpos (x : BitVec 12) : Statement (.jpos x) := encodeA_opcode 0x4#4 x

theorem jzer (x : BitVec 12) : Statement (.jzer x) := encodeA_opcode 0x5#4 x

theorem jump (x : BitVec 12) : Statement (.jump x) := encodeA_opcode 0x6#4 x

theorem loco (x : BitVec 12) : Statement (.loco x) := encodeA_opcode 0x7#4 x

theorem lodl (x : BitVec 12) : Statement (.lodl x) := encodeA_opcode 0x8#4 x

theorem stol (x : BitVec 12) : Statement (.stol x) := encodeA_opcode 0x9#4 x

theorem addl (x : BitVec 12) : Statement (.addl x) := encodeA_opcode 0xa#4 x

theorem subl (x : BitVec 12) : Statement (.subl x) := encodeA_opcode 0xb#4 x

theorem jneg (x : BitVec 12) : Statement (.jneg x) := encodeA_opcode 0xc#4 x

theorem jnze (x : BitVec 12) : Statement (.jnze x) := encodeA_opcode 0xd#4 x

theorem call (x : BitVec 12) : Statement (.call x) := encodeA_opcode 0xe#4 x

theorem halt (p : BitVec 12) : Statement (.halt p) := encodeA_opcode 0x6#4 p

theorem pshi : Statement .pshi := rfl

theorem popi : Statement .popi := rfl

theorem push : Statement .push := rfl

theorem pop : Statement .pop := rfl

theorem retn : Statement .retn := rfl

theorem swap : Statement .swap := rfl

theorem insp (y : BitVec 8) : Statement (.insp y) := encodeS_opcode 0xFC#8 y

theorem desp (y : BitVec 8) : Statement (.desp y) := encodeS_opcode 0xFE#8 y

theorem aluAdd : Statement .aluAdd := rfl

theorem aluAnd : Statement .aluAnd := rfl

theorem aluPassA : Statement .aluPassA := rfl

theorem aluNotA : Statement .aluNotA := rfl

theorem shIdentity : Statement .shIdentity := rfl

theorem shRight1 : Statement .shRight1 := rfl

theorem shLeft1 : Statement .shLeft1 := rfl

theorem shReserved : Statement .shReserved := rfl

theorem amuxAlat : Statement .amuxAlat := rfl

theorem amuxMbr : Statement .amuxMbr := rfl

theorem condUnconditional (addr : MicroAddr) : Statement (.condUnconditional addr) := by
  unfold Statement
  revert addr
  decide

theorem condIfN (addr : MicroAddr) : Statement (.condIfN addr) := by
  unfold Statement
  revert addr
  decide

theorem condIfZ (addr : MicroAddr) : Statement (.condIfZ addr) := by
  unfold Statement
  revert addr
  decide

theorem condAlways (addr : MicroAddr) : Statement (.condAlways addr) := by
  unfold Statement
  revert addr
  decide

theorem marLatch : Statement .marLatch := rfl

theorem mbrLatch : Statement .mbrLatch := rfl

theorem rdBeginRead : Statement .rdBeginRead := rfl

theorem wrBeginWrite : Statement .wrBeginWrite := rfl

theorem encWriteback (dst : Reg) : Statement (.encWriteback dst) := by cases dst <;> rfl

end Sys2Proof.Laws.TableRow
end

