-- ==== Sys2Proof/Laws/Run.lean ====
section
/-! SUPPORT. What a subcycle, a microinstruction and a run of microinstructions can do, and that `run_macro()` is
exact for every control store (R183). -/

namespace Sys2Proof.Machine

/-- Memories canonical from `lo` on that read the same are the same list. -/
theorem Mem.ext_from {lo : Nat} {m m' : Mem} (hm : Mem.wfFrom lo m = true) (hm' : Mem.wfFrom lo m' = true)
    (h : ∀ p : Addr, m.read p = m'.read p) : m = m' := by
  have head : ∀ {lo k : Nat} {v : Word} {rest n : Mem}, Mem.wfFrom lo ((k, v) :: rest) = true →
      (∀ p : Addr, Mem.read ((k, v) :: rest) p = n.read p) → n.read (BitVec.ofNat 12 k) ≠ 0x0000#16 := by
    intro lo k v rest n hw hr
    obtain ⟨_, hk, hv, _⟩ := Mem.wfFrom_cons.1 hw
    rw [← hr, Mem.read_cons, if_pos (by rw [BitVec.toNat_ofNat]; exact (Nat.mod_eq_of_lt hk).symm)]
    exact hv
  have low : ∀ {k : Nat} {n : Mem}, Mem.wfFrom (k + 1) n = true → n.read (BitVec.ofNat 12 k) = 0x0000#16 := by
    intro k n hn
    refine Mem.read_below hn ?_
    rw [BitVec.toNat_ofNat]
    exact Nat.lt_succ_of_le (Nat.mod_le _ _)
  induction m generalizing lo m' with
  | nil =>
    cases m' with
    | nil => rfl
    | cons c rest => exact absurd rfl (head hm' fun p => (h p).symm)
  | cons c rest ih =>
    obtain ⟨k, v⟩ := c
    cases m' with
    | nil => exact absurd rfl (head hm h)
    | cons c' rest' =>
      obtain ⟨k', v'⟩ := c'
      obtain ⟨hk, hlt, hv, hw⟩ := Mem.wfFrom_cons.1 hm
      obtain ⟨hk', hlt', hv', hw'⟩ := Mem.wfFrom_cons.1 hm'
      have hkk : k = k' := by
        rcases Nat.lt_trichotomy k k' with l | e | l
        · exact absurd (low (Mem.wfFrom_cons.2 ⟨l, hlt', hv', hw'⟩)) (head hm h)
        · exact e
        · exact absurd (low (Mem.wfFrom_cons.2 ⟨l, hlt, hv, hw⟩)) (head hm' fun p => (h p).symm)
      subst hkk
      have hvv : v = v' := by
        have := h (BitVec.ofNat 12 k)
        have hp : k = (BitVec.ofNat 12 k).toNat := by rw [BitVec.toNat_ofNat]; exact (Nat.mod_eq_of_lt hlt).symm
        rwa [Mem.read_cons, Mem.read_cons, if_pos hp, if_pos hp] at this
      subst hvv
      have htl : rest = rest' := ih hw hw' fun p => by
        have := h p
        rw [Mem.read_cons, Mem.read_cons] at this
        by_cases hp : k = p.toNat
        · rw [Mem.read_below hw (by omega), Mem.read_below hw' (by omega)]
        · rwa [if_neg hp, if_neg hp] at this
      rw [htl]

/-! ### CYCLES is not read (R34) -/

/-- The state with `c` added to CYCLES. -/
def State.bump (s : State) (c : Nat) : State := { s with cycles := s.cycles + c }

/-- The state with CYCLES cleared. -/
def State.noCycles (s : State) : State := { s with cycles := 0 }

theorem State.noCycles_bump (s : State) : s.noCycles.bump s.cycles = s := by
  simp [State.noCycles, State.bump]

@[simp] theorem State.bump_noCycles (s : State) (c : Nat) : (s.bump c).noCycles = s.noCycles := rfl

@[simp] theorem State.noCycles_macroEnded (s : State) : s.noCycles.macroEnded = s.macroEnded := rfl

/-- `bump` on an outcome. -/
def bumpOutcome (o : Host.Outcome State Fault Refusal) (c : Nat) : Host.Outcome State Fault Refusal :=
  andThen o fun t => .next (t.bump c)

/-- Continuations that ignore CYCLES make a chain that ignores it. -/
theorem andThen_bump {o o' : Host.Outcome State Fault Refusal} {f f' : State → Host.Outcome State Fault Refusal}
    {c : Nat} (ho : o' = bumpOutcome o c) (hf : ∀ t, f' (t.bump c) = bumpOutcome (f t) c) :
    andThen o' f' = bumpOutcome (andThen o f) c := by
  subst ho
  cases o with
  | next t => exact hf t
  | fault r => rfl
  | refused r => rfl

theorem State.goMicro_bump (s : State) (next c : Nat) : (s.bump c).goMicro next = (s.goMicro next).bump c := by
  unfold State.goMicro
  split <;> rfl

theorem exec_bump {i : Instr} (h : i.isMacroLevel = false) (s : State) (c : Nat) :
    exec i (s.bump c) = bumpOutcome (exec i s) c := by
  cases i <;> first
    | exact Bool.noConfusion h
    | exact congrArg Host.Outcome.next (State.goMicro_bump ..)
    | rfl

theorem runRows_bump {rows : List Instr} (h : ∀ i ∈ rows, i.isMacroLevel = false) (s : State) (c : Nat) :
    runRows rows (s.bump c) = bumpOutcome (runRows rows s) c := by
  induction rows generalizing s with
  | nil => rfl
  | cons i rows ih =>
    exact andThen_bump (exec_bump (h i (by simp)) s c) fun t => ih (fun j hj => h j (by simp [hj])) t

/-- The rows of a microinstruction are micro rows. -/
theorem amuxInstr_micro (f : MicroFields) : f.amuxInstr.isMacroLevel = false := by
  unfold MicroFields.amuxInstr
  split <;> rfl

theorem condInstr_micro (f : MicroFields) : f.condInstr.isMacroLevel = false := by
  unfold MicroFields.condInstr
  split <;> rfl

theorem requestRows_micro (f : MicroFields) : ∀ i ∈ requestRows f, i.isMacroLevel = false := by
  unfold requestRows
  cases f.rd <;> cases f.wr <;> simp [Instr.isMacroLevel]

theorem commitRows_micro (f : MicroFields) : ∀ i ∈ commitRows f, i.isMacroLevel = false := by
  unfold commitRows MicroFields.aluInstr MicroFields.shiftInstr
  cases f.alu <;> cases f.sh <;> cases f.mar <;> cases f.mbr <;> cases f.enc <;> simp [Instr.isMacroLevel]

theorem State.completeRead_bump (s : State) (c : Nat) : (s.bump c).completeRead = s.completeRead.bump c := by
  have h : (s.bump c).readReady = s.readReady := rfl
  unfold State.completeRead
  rw [h]
  split <;> rfl

theorem State.completeWrite_bump (s : State) (c : Nat) : (s.bump c).completeWrite = s.completeWrite.bump c := by
  have h : (s.bump c).writeReady = s.writeReady := rfl
  unfold State.completeWrite
  rw [h]
  split <;> rfl

theorem State.present_bump (s : State) (f : MicroFields) (c : Nat) :
    (s.bump c).present f = (s.present f).bump c := by
  unfold State.present
  split <;> rfl

theorem phase1_bump (s : State) (c : Nat) : phase1 (s.bump c) = bumpOutcome (phase1 s) c := by
  unfold phase1
  have h : (s.bump c).microWord = s.microWord := rfl
  rw [h]
  cases s.microWord with
  | none => rfl
  | some w =>
    dsimp only
    split <;> rfl

theorem phase3_bump (f : MicroFields) (s : State) (c : Nat) :
    phase3 f (s.bump c) = bumpOutcome (phase3 f s) c := by
  unfold phase3
  rw [State.completeRead_bump, State.completeWrite_bump]
  refine andThen_bump (runRows_bump (List.forall_mem_singleton.2 (amuxInstr_micro f)) (s.completeRead.completeWrite.latchA f.a) c) fun t => ?_
  refine andThen_bump (runRows_bump (commitRows_micro f) (t.latchB f.b) c) fun u => ?_
  exact congrArg Host.Outcome.next (State.present_bump u f c)

theorem runPhase_bump (s : State) (c : Nat) : runPhase (s.bump c) = bumpOutcome (runPhase s) c := by
  unfold runPhase
  have hp : (s.bump c).phase = s.phase := rfl
  have hm : (s.bump c).mir = s.mir := rfl
  rw [hp, hm]
  cases s.phase <;> cases s.mir
  case phase1.none => exact phase1_bump s c
  case phase1.some => exact phase1_bump s c
  case phase2.some f => exact runRows_bump (requestRows_micro f) s c
  case phase3.some f => exact phase3_bump f s c
  case phase4.some f =>
    exact andThen_bump (runRows_bump (List.forall_mem_singleton.2 (condInstr_micro f)) s c) fun _ => rfl
  all_goals rfl

theorem State.endSubcycle_bump (s t : State) (c : Nat) :
    (s.bump c).endSubcycle (t.bump c) = (s.endSubcycle t).bump c := by
  unfold State.endSubcycle
  have h : (t.bump c).fault = t.fault := rfl
  rw [h]
  cases t.fault with
  | some r => rfl
  | none => simp only [State.bump, Nat.add_right_comm]

/-- A subcycle does not read CYCLES. -/
theorem subcycle_bump (s : State) (c : Nat) : subcycle (s.bump c) = bumpOutcome (subcycle s) c := by
  unfold subcycle
  have h : (s.bump c).fault = s.fault := rfl
  rw [h]
  cases s.fault with
  | some r => rfl
  | none =>
    exact andThen_bump (runPhase_bump s c) fun t => congrArg Host.Outcome.next (State.endSubcycle_bump s t c)

theorem subcycles_bump (n : Nat) (s : State) (c : Nat) : subcycles n (s.bump c) = bumpOutcome (subcycles n s) c := by
  induction n generalizing s with
  | zero => rfl
  | succ n ih => exact andThen_bump (subcycle_bump s c) ih

/-- A microinstruction does not read CYCLES. -/
theorem microstep_bump (s : State) (c : Nat) : microstep (s.bump c) = bumpOutcome (microstep s) c :=
  subcycles_bump _ s c

/-! ### What a subcycle keeps -/

/-- The fields that a data row of a microinstruction leaves alone are the same in both states. -/
structure SameControl (s t : State) : Prop where
  mpc : t.mpc = s.mpc
  phase : t.phase = s.phase
  mir : t.mir = s.mir
  rdc : t.rdc = s.rdc
  wrc : t.wrc = s.wrc
  mem : t.mem = s.mem
  fault : t.fault = s.fault
  cs : t.cs = s.cs
  nProg : t.nProg = s.nProg
  request : t.request = s.request

theorem SameControl.trans {s t u : State} (h : SameControl s t) (k : SameControl t u) : SameControl s u :=
  ⟨k.mpc.trans h.mpc, k.phase.trans h.phase, k.mir.trans h.mir, k.rdc.trans h.rdc, k.wrc.trans h.wrc,
    k.mem.trans h.mem, k.fault.trans h.fault, k.cs.trans h.cs, k.nProg.trans h.nProg, k.request.trans h.request⟩

theorem SameControl.latchA (s : State) (src : Reg) : SameControl s (s.latchA src) :=
  ⟨rfl, rfl, rfl, rfl, rfl, rfl, rfl, rfl, rfl, rfl⟩

theorem SameControl.latchB (s : State) (src : Reg) : SameControl s (s.latchB src) :=
  ⟨rfl, rfl, rfl, rfl, rfl, rfl, rfl, rfl, rfl, rfl⟩

/-- A row of the datapath completes and changes registers, latches and flags only. -/
def IsDataRow (i : Instr) : Prop := ∀ s : State, ∃ t, exec i s = .next t ∧ SameControl s t

theorem runRows_data {rows : List Instr} (h : ∀ i ∈ rows, IsDataRow i) (s : State) :
    ∃ t, runRows rows s = .next t ∧ SameControl s t := by
  induction rows generalizing s with
  | nil => exact ⟨s, rfl, rfl, rfl, rfl, rfl, rfl, rfl, rfl, rfl, rfl, rfl⟩
  | cons i rows ih =>
    obtain ⟨t, ht, hst⟩ := h i (by simp) s
    obtain ⟨u, hu, htu⟩ := ih (fun j hj => h j (by simp [hj])) t
    exact ⟨u, by rw [runRows_cons, ht]; exact hu, hst.trans htu⟩

theorem amuxInstr_data (f : MicroFields) : IsDataRow f.amuxInstr := by
  intro s
  unfold MicroFields.amuxInstr
  split <;> exact ⟨_, rfl, rfl, rfl, rfl, rfl, rfl, rfl, rfl, rfl, rfl, rfl⟩

theorem aluInstr_data (f : MicroFields) : IsDataRow f.aluInstr := by
  intro s
  unfold MicroFields.aluInstr
  split <;> exact ⟨_, rfl, rfl, rfl, rfl, rfl, rfl, rfl, rfl, rfl, rfl, rfl⟩

theorem shiftInstr_data {f : MicroFields} (h : f.sh ≠ .reserved) : IsDataRow f.shiftInstr := by
  intro s
  unfold MicroFields.shiftInstr
  split
  case h_4 e => exact absurd e h
  all_goals exact ⟨_, rfl, rfl, rfl, rfl, rfl, rfl, rfl, rfl, rfl, rfl, rfl⟩

theorem commitRows_data {f : MicroFields} (h : f.sh ≠ .reserved) : ∀ i ∈ commitRows f, IsDataRow i := by
  intro i hi
  simp only [commitRows, List.mem_append, List.mem_cons, List.not_mem_nil, or_false, List.mem_ite_nil_right] at hi
  rcases hi with (((rfl | rfl) | ⟨_, rfl⟩) | ⟨_, rfl⟩) | ⟨_, rfl⟩
  · exact aluInstr_data f
  · exact shiftInstr_data h
  all_goals exact fun s => ⟨_, rfl, rfl, rfl, rfl, rfl, rfl, rfl, rfl, rfl, rfl, rfl⟩

/-- What steps 1a and 1b of phase 3 leave alone. -/
theorem complete_control (s : State) :
    let t := s.completeRead.completeWrite
    t.mpc = s.mpc ∧ t.phase = s.phase ∧ t.mir = s.mir ∧ t.fault = s.fault ∧ t.cs = s.cs ∧ t.nProg = s.nProg ∧
      t.request = s.request := by
  rcases s.completeRead_cases with ⟨_, e⟩ | ⟨_, e⟩ <;> rw [e] <;>
    rcases State.completeWrite_cases _ with ⟨_, e'⟩ | ⟨_, e'⟩ <;> rw [e'] <;>
    exact ⟨rfl, rfl, rfl, rfl, rfl, rfl, rfl⟩

/-- Steps 1a and 1b of phase 3 keep memory canonical and leave each counter below 2. -/
theorem complete_keeps (s : State) (hm : s.mem.wf = true) :
    let t := s.completeRead.completeWrite
    t.mem.wf = true ∧ t.rdc ≤ 1 ∧ t.wrc ≤ 1 := by
  rcases s.completeRead_cases with ⟨_, e⟩ | ⟨_, e⟩ <;> rw [e] <;>
    rcases State.completeWrite_cases _ with ⟨h, e'⟩ | ⟨h, e'⟩ <;> rw [e'] <;>
    refine ⟨?_, ?_, ?_⟩ <;>
    first
      | exact Mem.wf_write _ _ hm
      | exact hm
      | omega
      | (dsimp only; omega)

/-- What every subcycle of a coherent machine leaves as it is, and where PHASE goes. -/
structure Advanced (s t : State) : Prop where
  fault : t.fault = none
  coherent : t.Coherent
  cs : t.cs = s.cs
  nProg : t.nProg = s.nProg
  request : t.request = s.request

theorem phase1_advances {s : State} (hc : s.Coherent) (hp : s.phase = .phase1) (hf : s.fault = none) :
    ∃ t, runPhase s = .next t ∧
      (t.fault ≠ none ∨ Advanced s (s.endSubcycle t) ∧ (s.endSubcycle t).phase = s.phase.succ) := by
  have hlt : s.mpc.toNat < s.cs.length := by rw [hc.store]; exact hc.mpc
  have hw : s.microWord = some s.cs[s.mpc.toNat] := by
    unfold State.microWord
    rw [if_pos (show s.mpc.toNat < Config.csSize from hc.mpc), List.getElem?_eq_getElem hlt]
  have hr : runPhase s = phase1 s := by unfold runPhase; rw [hp]
  rw [hr]
  unfold phase1
  rw [hw]
  dsimp only
  split
  · exact ⟨_, rfl, .inl (by simp)⟩
  · next hsh =>
    refine ⟨_, rfl, .inr ?_⟩
    have e : s.endSubcycle { s with mir := some (decodeMicro s.cs[s.mpc.toNat]) } =
        { s with mir := some (decodeMicro s.cs[s.mpc.toNat]), phase := .phase2, cycles := s.cycles + 1 } := by
      simp [State.endSubcycle, hf, hp, Phase.succ]
    rw [e]
    have hcnt := hc.counters.2 (by simp [hp])
    refine ⟨⟨hf, ⟨hc.memory, hc.mpc, ⟨by simp, fun f h => ?_⟩, ⟨by simp, fun _ => hcnt⟩, hc.store⟩, rfl, rfl, rfl⟩,
      by rw [hp]; rfl⟩
    cases h
    exact hsh

theorem phase2_advances {s : State} {f : MicroFields} (hc : s.Coherent) (hp : s.phase = .phase2)
    (hm : s.mir = some f) (hf : s.fault = none) :
    ∃ t, runPhase s = .next t ∧
      (t.fault ≠ none ∨ Advanced s (s.endSubcycle t) ∧ (s.endSubcycle t).phase = s.phase.succ) := by
  have hr : runPhase s = .next { s with
      rdc := s.rdc + f.rd.toNat, wrc := s.wrc + f.wr.toNat } := by
    have e : runPhase s = phase2 f s := by unfold runPhase; rw [hp, hm]
    rw [e, phase2, requestRows]
    cases f.rd <;> cases f.wr <;> rfl
  refine ⟨_, hr, .inr ?_⟩
  have hcnt := hc.counters.2 (by simp [hp])
  have h1 := Bool.toNat_le f.rd
  have h2 := Bool.toNat_le f.wr
  simp only [State.endSubcycle, hf, hp]
  refine ⟨⟨rfl, ⟨hc.memory, hc.mpc, ⟨by simp [hm, Phase.succ], hc.staging.2⟩, ⟨fun _ => ?_, by simp [Phase.succ]⟩,
    hc.store⟩, rfl, rfl, rfl⟩, trivial⟩
  exact ⟨by dsimp only; omega, by dsimp only; omega⟩

theorem phase3_advances {s : State} {f : MicroFields} (hc : s.Coherent) (hp : s.phase = .phase3)
    (hm : s.mir = some f) (hf : s.fault = none) :
    ∃ t, runPhase s = .next t ∧
      (t.fault ≠ none ∨ Advanced s (s.endSubcycle t) ∧ (s.endSubcycle t).phase = s.phase.succ) := by
  have hsh := hc.staging.2 f hm
  obtain ⟨kmem, krdc, kwrc⟩ := complete_keeps s hc.memory
  obtain ⟨kmpc, kphase, kmir, kfault, kcs, knp, kreq⟩ := complete_control s
  obtain ⟨t, ht, st⟩ := runRows_data (rows := [f.amuxInstr]) (List.forall_mem_singleton.2 (amuxInstr_data f))
    (s.completeRead.completeWrite.latchA f.a)
  obtain ⟨u, hu, tu⟩ := runRows_data (commitRows_data hsh) (t.latchB f.b)
  have hrun : runPhase s = .next (u.present f) := by
    simp only [runPhase, hp, hm, phase3]
    rw [ht, andThen_next, hu, andThen_next]
  have k : SameControl (s.completeRead.completeWrite) (u.present f) := by
    have h1 := (SameControl.latchA s.completeRead.completeWrite f.a).trans st
    have h2 := (SameControl.latchB t f.b).trans tu
    have h3 : SameControl u (u.present f) := by
      unfold State.present
      split <;> exact ⟨rfl, rfl, rfl, rfl, rfl, rfl, rfl, rfl, rfl, rfl⟩
    exact (h1.trans h2).trans h3
  have nf : (u.present f).fault = none := k.fault.trans (kfault.trans hf)
  refine ⟨_, hrun, .inr ?_⟩
  have e : s.endSubcycle (u.present f) =
      { u.present f with phase := .phase4, cycles := (u.present f).cycles + 1 } := by
    simp only [State.endSubcycle, nf, k.phase.trans (kphase.trans hp), Phase.succ]
  rw [e]
  refine ⟨⟨nf, ⟨?_, ?_, ⟨?_, ?_⟩, ⟨by simp, fun _ => ⟨?_, ?_⟩⟩, ?_⟩, k.cs.trans kcs, k.nProg.trans knp,
    k.request.trans kreq⟩, by rw [hp]; rfl⟩
  · exact (congrArg Mem.wf k.mem).trans kmem
  · show (u.present f).mpc.toNat < 79
    rw [k.mpc, kmpc]; exact hc.mpc
  · have hmir := k.mir.trans (kmir.trans hm)
    constructor
    · intro h; cases h
    · intro h; exact absurd (hmir.symm.trans h) (by simp)
  · intro g hg
    exact hc.staging.2 g ((k.mir.trans kmir).symm.trans hg)
  · exact (k.rdc.le).trans krdc
  · exact (k.wrc.le).trans kwrc
  · exact (congrArg List.length (k.cs.trans kcs)).trans hc.store

theorem phase4_advances {s : State} {f : MicroFields} (hc : s.Coherent) (hp : s.phase = .phase4)
    (hm : s.mir = some f) (hf : s.fault = none) :
    ∃ t, runPhase s = .next t ∧
      (t.fault ≠ none ∨ Advanced s (s.endSubcycle t) ∧ (s.endSubcycle t).phase = s.phase.succ) := by
  obtain ⟨next, hn⟩ : ∃ next, exec f.condInstr s = .next (s.goMicro next) := by
    unfold MicroFields.condInstr
    split <;> exact ⟨_, rfl⟩
  have hr : runPhase s = .next { s.goMicro next with mir := none } := by
    simp only [runPhase, hp, hm, phase4, runRows_cons, hn, andThen_next, runRows_nil]
  refine ⟨_, hr, ?_⟩
  rcases s.goMicro_cases next with ⟨hlt, e⟩ | ⟨_, e⟩
  · right
    have hcnt := hc.counters.2 (by simp [hp])
    simp only [e, State.endSubcycle, hf, hp, Phase.succ]
    refine ⟨⟨rfl, ⟨hc.memory, ?_, ⟨by simp, by simp⟩, ⟨by simp, fun _ => hcnt⟩, hc.store⟩, rfl, rfl, rfl⟩, trivial⟩
    show (BitVec.ofNat 8 next).toNat < 79
    rw [BitVec.toNat_ofNat]; omega
  · left
    simp [e]

/-- A subcycle of a coherent machine faults, or it keeps it coherent and advances PHASE. -/
theorem subcycle_advances {s : State} (hc : s.Coherent) (hf : s.fault = none) :
    ∃ t, subcycle s = .next t ∧ (t.fault ≠ none ∨ Advanced s t ∧ t.phase = s.phase.succ) := by
  obtain ⟨t, ht, h⟩ : ∃ t, runPhase s = .next t ∧
      (t.fault ≠ none ∨ Advanced s (s.endSubcycle t) ∧ (s.endSubcycle t).phase = s.phase.succ) := by
    cases hp : s.phase with
    | phase1 => exact hp ▸ phase1_advances hc hp hf
    | phase2 =>
      obtain ⟨f, hm⟩ := Option.ne_none_iff_exists'.1 (fun h => by simpa [hp] using hc.staging.1.2 h)
      exact hp ▸ phase2_advances hc hp hm hf
    | phase3 =>
      obtain ⟨f, hm⟩ := Option.ne_none_iff_exists'.1 (fun h => by simpa [hp] using hc.staging.1.2 h)
      exact hp ▸ phase3_advances hc hp hm hf
    | phase4 =>
      obtain ⟨f, hm⟩ := Option.ne_none_iff_exists'.1 (fun h => by simpa [hp] using hc.staging.1.2 h)
      exact hp ▸ phase4_advances hc hp hm hf
  refine ⟨s.endSubcycle t, by simp only [subcycle, hf, ht, andThen_next], ?_⟩
  rcases h with h | h
  · left
    rcases s.endSubcycle_cases t with ⟨r, _, e⟩ | ⟨hn, _⟩
    · simp [e]
    · exact absurd hn h
  · exact .inr h

theorem subcycles_faulted (n : Nat) {s : State} (h : s.fault ≠ none) : subcycles n s = .next s := by
  induction n with
  | zero => rfl
  | succ n ih => rw [subcycles_succ, subcycle_faulted h, andThen_next, ih]

theorem subcycles_advance (n : Nat) {s : State} (hc : s.Coherent) (hf : s.fault = none) :
    ∃ t, subcycles n s = .next t ∧ (t.fault ≠ none ∨ Advanced s t ∧ t.phase = Phase.succ^[n] s.phase) := by
  induction n generalizing s with
  | zero => exact ⟨s, rfl, .inr ⟨⟨hf, hc, rfl, rfl, rfl⟩, rfl⟩⟩
  | succ n ih =>
    obtain ⟨t, ht, h | ⟨ha, hp⟩⟩ := subcycle_advances hc hf
    · exact ⟨t, by rw [subcycles_succ, ht, andThen_next, subcycles_faulted n h], .inl h⟩
    · obtain ⟨u, hu, h⟩ := ih ha.coherent ha.fault
      refine ⟨u, by rw [subcycles_succ, ht, andThen_next, hu], ?_⟩
      rcases h with h | ⟨hb, hq⟩
      · exact .inl h
      · exact .inr ⟨⟨hb.fault, hb.coherent, hb.cs.trans ha.cs, hb.nProg.trans ha.nProg,
          hb.request.trans ha.request⟩, by rw [hq, hp, Function.iterate_succ_apply]⟩

/-- A microinstruction of a coherent machine faults, or it keeps it coherent and ends before phase 1. -/
theorem microstep_advances {s : State} (hc : s.Coherent) (hf : s.fault = none) :
    ∃ t, microstep s = .next t ∧ (t.fault ≠ none ∨ Advanced s t ∧ t.phase = .phase1) := by
  obtain ⟨t, ht, h⟩ := subcycles_advance s.phase.remaining hc hf
  refine ⟨t, ht, h.imp_right fun ⟨ha, hp⟩ => ⟨ha, hp.trans ?_⟩⟩
  cases s.phase <;> rfl

/-! ### Enough microinstructions -/

/-- What one microinstruction leads to. -/
def microNext (s : State) : State :=
  match microstep s with
  | .next t => t
  | .fault _ => s
  | .refused _ => s

theorem microNext_of {s t : State} (h : microstep s = .next t) : microNext s = t := by
  simp only [microNext, h]

theorem microNext_bump (s : State) (c : Nat) : microNext (s.bump c) = (microNext s).bump c := by
  unfold microNext
  rw [microstep_bump]
  cases microstep s <;> rfl

/-- States that differ in CYCLES alone lead to states that do. -/
theorem microNext_noCycles {s t : State} (h : s.noCycles = t.noCycles) :
    (microNext s).noCycles = (microNext t).noCycles := by
  rw [← s.noCycles_bump, ← t.noCycles_bump, h, microNext_bump, microNext_bump]
  rfl

theorem microNext_iterate_noCycles {s t : State} (h : s.noCycles = t.noCycles) (n : Nat) :
    (microNext^[n] s).noCycles = (microNext^[n] t).noCycles := by
  induction n generalizing s t with
  | zero => exact h
  | succ n ih => exact ih (microNext_noCycles h)

/-- A configuration: 22 words, two addresses, a control-store address, four bits and the memory's reads, with the
widths as parameters so that no proof evaluates the number of configurations. -/
abbrev Configuration (word addr micro : Nat) :=
  (Fin 22 → BitVec word) × BitVec addr × BitVec addr × BitVec micro × Bool × Bool × Bool × Bool ×
    (BitVec addr → BitVec word)

theorem card_bitVec (n : Nat) : Fintype.card (BitVec n) = 2 ^ n := by
  rw [← FinEnum.card_eq_fintypeCard]
  rfl

theorem card_configuration (word addr micro : Nat) :
    Fintype.card (Configuration word addr micro) =
      2 ^ (word * 22 + (addr + (addr + (micro + (4 + word * 2 ^ addr))))) := by
  simp only [Fintype.card_prod, Fintype.card_fun, card_bitVec, Fintype.card_fin, Fintype.card_bool, pow_add, pow_mul]
  ring

theorem runBound_eq {n : Nat} (h : 65924 = n) : runBound = 2 ^ n + 1 := by
  rw [← h]
  unfold runBound
  rfl

/-- There are fewer configurations than `runBound`. -/
theorem card_lt_runBound : Fintype.card (Configuration 16 12 8) < runBound := by
  rw [card_configuration, runBound_eq (n := 16 * 22 + (12 + (12 + (8 + (4 + 16 * 2 ^ 12))))) (by norm_num)]
  exact Nat.lt_add_one _

/-- Every field that a microinstruction can change, but CYCLES, of a state before phase 1. -/
def State.configuration (s : State) : Configuration 16 12 8 :=
  (![s.regs.pc, s.regs.ac, s.regs.sp, s.regs.ir, s.regs.tir, s.regs.zero, s.regs.pone, s.regs.mone, s.regs.amask,
      s.regs.smask, s.regs.a, s.regs.b, s.regs.c, s.regs.d, s.regs.e, s.regs.f, s.alat, s.blat, s.aluout, s.shout,
      s.mbr, s.ain],
    s.mar, s.maddr, s.mpc, s.flagN, s.flagZ, decide (s.rdc = 0), decide (s.wrc = 0), s.mem.read)

theorem RegFile.ext_get {r r' : RegFile} (h : ∀ i : Reg, r.get i = r'.get i) : r = r' := by
  cases r
  cases r'
  simp only [RegFile.mk.injEq]
  exact ⟨h .pc, h .ac, h .sp, h .ir, h .tir, h .zero, h .pone, h .mone, h .amask, h .smask, h .a, h .b, h .c, h .d,
    h .e, h .f⟩

/-- A counter of 0 or 1 is known from whether it is 0. -/
theorem counter_eq {a b : Nat} (ha : a ≤ 1) (hb : b ≤ 1) (h : decide (a = 0) = decide (b = 0)) : a = b := by
  have : (a = 0) ↔ (b = 0) := decide_eq_decide.1 h
  omega

/-- Two states before phase 1, with the same parameters and host data and the same configuration, differ at most in
CYCLES. -/
theorem noCycles_eq_of_configuration {s t u : State} (hs : Advanced u s) (ht : Advanced u t) (ps : s.phase = .phase1)
    (pt : t.phase = .phase1) (h : s.configuration = t.configuration) : s.noCycles = t.noCycles := by
  have ms : s.mir = none := hs.coherent.staging.1.1 ps
  have mt : t.mir = none := ht.coherent.staging.1.1 pt
  obtain ⟨rs, ws⟩ := hs.coherent.counters.2 (by simp [ps])
  obtain ⟨rt, wt⟩ := ht.coherent.counters.2 (by simp [pt])
  have fs := hs.fault.trans ht.fault.symm
  have cs := hs.cs.trans ht.cs.symm
  have np := hs.nProg.trans ht.nProg.symm
  have rq := hs.request.trans ht.request.symm
  simp only [State.configuration, Prod.mk.injEq] at h
  obtain ⟨hw, h1, h2, h3, h4, h5, h6, h7, h8⟩ := h
  have hm : s.mem = t.mem := Mem.ext_from hs.coherent.memory ht.coherent.memory fun p => congrFun h8 p
  have hr := counter_eq rs rt h6
  have hq := counter_eq ws wt h7
  have regs : s.regs = t.regs := RegFile.ext_get fun i => by
    cases i
    · exact congrFun hw 0
    · exact congrFun hw 1
    · exact congrFun hw 2
    · exact congrFun hw 3
    · exact congrFun hw 4
    · exact congrFun hw 5
    · exact congrFun hw 6
    · exact congrFun hw 7
    · exact congrFun hw 8
    · exact congrFun hw 9
    · exact congrFun hw 10
    · exact congrFun hw 11
    · exact congrFun hw 12
    · exact congrFun hw 13
    · exact congrFun hw 14
    · exact congrFun hw 15
  simp only [State.noCycles, State.mk.injEq]
  exact ⟨regs, h3, ps.trans pt.symm, ms.trans mt.symm, h4, h5, h1, congrFun hw 20, congrFun hw 16, congrFun hw 17,
    congrFun hw 18, congrFun hw 19, h2, hr, hq, hm, trivial, fs, cs, np, congrFun hw 21, rq⟩

theorem macroEnded_false_fault {s : State} (h : s.macroEnded = false) : s.fault = none := by
  simp only [State.macroEnded, Bool.or_eq_false_iff] at h
  simpa using h.2

/-- A run that has ended is the same however many microinstructions are allowed beyond it. -/
theorem runMicroprogram_mono {n m : Nat} {s t : State} (h : runMicroprogram n s = .next t) (hn : 0 < n)
    (hnm : n ≤ m) (ht : t.macroEnded = true) : runMicroprogram m s = .next t := by
  induction n generalizing s m with
  | zero => omega
  | succ n ih =>
    obtain ⟨m, rfl⟩ : ∃ k, m = k + 1 := ⟨m - 1, by omega⟩
    obtain ⟨u, hu, hr⟩ := andThen_eq_next.1 h
    rw [runMicroprogram, hu, andThen_next]
    cases hue : u.macroEnded with
    | true => rw [if_pos hue] at hr; exact (if_pos rfl).trans hr
    | false =>
      rw [if_neg (by simp [hue])] at hr
      rw [if_neg (by simp)]
      rcases Nat.eq_zero_or_pos n with rfl | hp
      · rw [← Host.Outcome.next.inj hr, hue] at ht
        cases ht
      · exact ih hr hp (by omega)

/-- A run that ends within `n` microinstructions ends at the first boundary or fault. -/
theorem runMicroprogram_ended {n : Nat} {s t : State} (h : runMicroprogram n s = .next t) (hn : 0 < n)
    (ht : t.macroEnded = true) :
    ∃ j, 0 < j ∧ j ≤ n ∧ t = microNext^[j] s ∧ ∀ i, 0 < i → i < j → (microNext^[i] s).macroEnded = false := by
  induction n generalizing s with
  | zero => omega
  | succ n ih =>
    obtain ⟨u, hu, hr⟩ := andThen_eq_next.1 h
    cases hue : u.macroEnded with
    | true =>
      rw [if_pos hue] at hr
      refine ⟨1, by omega, by omega, ?_, fun i _ _ => by omega⟩
      rw [Function.iterate_one, microNext_of hu]
      exact (Host.Outcome.next.inj hr).symm
    | false =>
      rw [if_neg (by simp [hue])] at hr
      have hn' : 0 < n := by
        rcases Nat.eq_zero_or_pos n with rfl | hp
        · rw [← Host.Outcome.next.inj hr, hue] at ht
          cases ht
        · exact hp
      obtain ⟨j, hj, hjn, hjt, hb⟩ := ih hr hn'
      refine ⟨j + 1, by omega, by omega, ?_, fun i hi hij => ?_⟩
      · rw [Function.iterate_succ_apply, microNext_of hu]; exact hjt
      · obtain ⟨k, rfl⟩ : ∃ k, i = k + 1 := ⟨i - 1, by omega⟩
        rw [Function.iterate_succ_apply, microNext_of hu]
        rcases Nat.eq_zero_or_pos k with rfl | hk
        · exact hue
        · exact hb k hk (by omega)

/-- Before its end a run of a coherent machine stays coherent and healthy, each microinstruction ending before
phase 1. -/
theorem iterate_advanced {s : State} (hc : s.Coherent) (hf : s.fault = none) (i : Nat)
    (h : ∀ k, 0 < k → k ≤ i + 1 → (microNext^[k] s).macroEnded = false) :
    Advanced s (microNext^[i + 1] s) ∧ (microNext^[i + 1] s).phase = .phase1 := by
  have one : ∀ {u : State}, u.Coherent → u.fault = none → (microNext u).macroEnded = false →
      Advanced u (microNext u) ∧ (microNext u).phase = .phase1 := by
    intro u huc huf hue
    obtain ⟨v, hv, hfault | ha⟩ := microstep_advances huc huf
    · rw [microNext_of hv] at hue
      exact absurd (macroEnded_false_fault hue) hfault
    · rw [microNext_of hv]
      exact ha
  induction i with
  | zero => exact one hc hf (h 1 (by omega) (by omega))
  | succ i ih =>
    obtain ⟨ha, _⟩ := ih fun k hk hki => h k hk (by omega)
    have he := h (i + 1 + 1) (by omega) (by omega)
    rw [Function.iterate_succ_apply'] at he ⊢
    obtain ⟨hb, hp⟩ := one ha.coherent ha.fault he
    exact ⟨⟨hb.fault, hb.coherent, hb.cs.trans ha.cs, hb.nProg.trans ha.nProg, hb.request.trans ha.request⟩, hp⟩

/-- A run with enough microinstructions ends where the first boundary or fault is. -/
theorem runMicroprogram_of_first {j n : Nat} {s : State} (hc : s.Coherent) (hf : s.fault = none) (hj : 0 < j)
    (hjn : j ≤ n) (he : (microNext^[j] s).macroEnded = true)
    (hb : ∀ i, 0 < i → i < j → (microNext^[i] s).macroEnded = false) :
    runMicroprogram n s = .next (microNext^[j] s) := by
  induction j generalizing s n with
  | zero => omega
  | succ j ih =>
    obtain ⟨n, rfl⟩ : ∃ m, n = m + 1 := ⟨n - 1, by omega⟩
    obtain ⟨u, hu, hadv⟩ := microstep_advances hc hf
    rw [Function.iterate_succ_apply, microNext_of hu] at he ⊢
    rw [runMicroprogram, hu, andThen_next]
    rcases Nat.eq_zero_or_pos j with rfl | hj'
    · exact if_pos he
    · have hue : u.macroEnded = false := by
        have := hb 1 (by omega) (by omega)
        rwa [Function.iterate_one, microNext_of hu] at this
      rw [if_neg (by simp [hue])]
      rcases hadv with hfault | ⟨ha, _⟩
      · exact absurd (macroEnded_false_fault hue) hfault
      · refine ih ha.coherent ha.fault hj' (by omega) he fun i hi hij => ?_
        have := hb (i + 1) (by omega) (by omega)
        rwa [Function.iterate_succ_apply, microNext_of hu] at this

/-- `run_macro()` is exact (R183): if the microprogram of a coherent machine comes to a boundary or a fault at all,
however long it takes and whatever the control store holds, then `runBound` microinstructions lead there. By the
pigeonhole principle a longer run would pass one configuration twice, and so never end. -/
theorem runMicroprogram_runBound_exact {n : Nat} {s t : State} (hc : s.Coherent) (hf : s.fault = none) (hn : 0 < n)
    (h : runMicroprogram n s = .next t) (ht : t.macroEnded = true) : runMicroprogram runBound s = .next t := by
  obtain ⟨j, hj, -, rfl, hb⟩ := runMicroprogram_ended h hn ht
  by_cases hle : j ≤ runBound
  · exact runMicroprogram_of_first hc hf hj hle ht hb
  · exfalso
    have adv : ∀ i, i < runBound →
        Advanced s (microNext^[i + 1] s) ∧ (microNext^[i + 1] s).phase = .phase1 := fun i hi =>
      iterate_advanced hc hf i fun k hk hki => hb k hk (by omega)
    obtain ⟨a, b, hab, hconf⟩ := Fintype.exists_ne_map_eq_of_card_lt
      (fun i : Fin runBound => (microNext^[i.val + 1] s).configuration)
      (by rw [Fintype.card_fin]; exact card_lt_runBound)
    have repeats : ∀ x y : Nat, x < y → y < runBound →
        (microNext^[x + 1] s).configuration = (microNext^[y + 1] s).configuration → False := by
      intro x y hxy hy hc'
      obtain ⟨hx, px⟩ := adv x (by omega)
      obtain ⟨hy', py⟩ := adv y hy
      have hcyc := microNext_iterate_noCycles (noCycles_eq_of_configuration hx hy' px py hc') (j - (y + 1))
      rw [← Function.iterate_add_apply, ← Function.iterate_add_apply] at hcyc
      have hend := congrArg State.macroEnded hcyc
      rw [State.noCycles_macroEnded, State.noCycles_macroEnded, show j - (y + 1) + (y + 1) = j by omega, ht,
        hb _ (by omega) (by omega)] at hend
      cases hend
    rcases Nat.lt_or_gt_of_ne (fun e => hab (Fin.ext e)) with l | l
    · exact repeats a b l b.isLt hconf
    · exact repeats b a l a.isLt hconf.symm

/-- A `run_macro()` that is left between boundaries without a fault is a hang (R179): no number of
microinstructions leads to a boundary or a fault. -/
theorem runMicroprogram_hangs {n : Nat} {s t u : State} (hc : s.Coherent) (hf : s.fault = none)
    (h : runMicroprogram runBound s = .next t) (ht : t.macroEnded = false) (hn : 0 < n)
    (hu : runMicroprogram n s = .next u) : u.macroEnded = false := by
  cases he : u.macroEnded with
  | false => rfl
  | true =>
    have := runMicroprogram_runBound_exact hc hf hn hu he
    rw [h] at this
    rw [← Host.Outcome.next.inj this, ht] at he
    cases he

end Sys2Proof.Machine
end

