-- ==== Sys2Proof/Tests/Slice0.lean ====
section
/-! SUPPORT. The model's own tests: expected values come from 95_test_vectors.md (the vector's id is named) or
from the encodings of 30_encoding.md, and a witness for the hypotheses of each statement. -/

namespace Sys2Proof.Tests

open Sys2Proof Sys2Proof.Machine

/-! ### Helpers -/

/-- The next state of an outcome. -/
def nextOf : Host.Outcome State Fault Refusal → Option State
  | .next s => some s
  | .fault _ => none
  | .refused _ => none

/-- Cells written one after another. -/
def wrote : Mem → List (Addr × Word) → Mem
  | m, [] => m
  | m, (a, v) :: rest => wrote (m.write a v) rest

/-- Reset, then PC, AC, SP and cells set, and the word placed at PC. -/
def boot (w pc ac sp : Word) (cells : List (Addr × Word)) : State :=
  let s := { State.resetWith sp with mem := wrote [] ((low12 pc, w) :: cells) }
  (s.setReg .pc pc).setReg .ac ac

/-- What the macro vectors list: memory, N, Z, CYCLES, and PC, AC, SP, A, MAR, MBR. -/
def ends (o : Host.Outcome State Fault Refusal) : Option (Mem × Bool × Bool × Nat × List Word) :=
  (nextOf o).map fun t =>
    (t.mem, t.flagN, t.flagZ, t.cycles,
      [t.reg .pc, t.reg .ac, t.reg .sp, t.reg .a, t.mar.zeroExtend 16, t.mbr])

/-- Reset with the microinstruction in CS[0], 0x60000000 in the other entries, and microstep requested. -/
def micro (w : MicroWord) : State :=
  { State.reset with cs := w :: List.replicate 78 0x60000000#32, request := .microstep }

/-- One field of the state after a step. -/
def after {α : Type} (s : State) (field : State → α) : Option α := (nextOf (step s)).map field

/-! ### WellFormed refuses ill-formed terms -/

theorem test_wf_reserved_shift : Instr.wellFormed .shReserved = false := by decide

theorem test_wf_cond_unconditional_target : Instr.wellFormed (.condUnconditional 79#8) = false := by decide

theorem test_wf_cond_ifN_target : Instr.wellFormed (.condIfN 79#8) = false := by decide

theorem test_wf_cond_ifZ_target : Instr.wellFormed (.condIfZ 79#8) = false := by decide

theorem test_wf_cond_always_target : Instr.wellFormed (.condAlways 79#8) = false := by decide

theorem test_wf_last_target : Instr.wellFormed (.condAlways 78#8) = true := by decide

theorem test_wf_fields_reserved_shift :
    { MicroFields.blank with sh := .reserved }.wellFormedAt 0 = false := by decide

theorem test_wf_fields_target : { MicroFields.blank with addr := 79#8 }.wellFormedAt 0 = false := by decide

theorem test_wf_fields_fall_through :
    { MicroFields.blank with cond := .ifN }.wellFormedAt 78 = false ∧
      { MicroFields.blank with cond := .ifZ }.wellFormedAt 78 = false ∧
      { MicroFields.blank with cond := .ifN }.wellFormedAt 77 = true := by decide

theorem test_wf_store_length : controlStoreWf (decidedStore.take 78) = false := by decide

theorem test_wf_store_entry : controlStoreWf (decidedStore.set 5 0x06000000#32) = false := by decide

theorem test_wf_macro : Instr.wellFormed (.lodd 4095#12) = true ∧ Instr.wellFormed (.desp 255#8) = true := by
  decide

/-! ### Words written out from the encodings -/

theorem test_decode_memory_arith :
    decodeTableWord 16 0b0000000001100100 = some (.lodd 100#12) ∧
      decodeTableWord 16 0b0001000001100100 = some (.stod 100#12) ∧
      decodeTableWord 16 0b0010000001100100 = some (.addd 100#12) ∧
      decodeTableWord 16 0b0011000001100100 = some (.subd 100#12) ∧
      decodeTableWord 16 0b0111111111111111 = some (.loco 4095#12) ∧
      decodeTableWord 16 0b1000000000000010 = some (.lodl 2#12) ∧
      decodeTableWord 16 0b1001000000000011 = some (.stol 3#12) ∧
      decodeTableWord 16 0b1010000000000001 = some (.addl 1#12) ∧
      decodeTableWord 16 0b1011000000000001 = some (.subl 1#12) := by decide

theorem test_decode_control :
    decodeTableWord 16 0b0100000000110010 = some (.jpos 50#12) ∧
      decodeTableWord 16 0b0101000000110010 = some (.jzer 50#12) ∧
      decodeTableWord 16 0b0110111111111111 = some (.jump 4095#12) ∧
      decodeTableWord 16 0b1100000000110010 = some (.jneg 50#12) ∧
      decodeTableWord 16 0b1101000000110010 = some (.jnze 50#12) ∧
      decodeTableWord 16 0b1110000000000000 = some (.call 0#12) ∧
      decodeTableWord 16 0b1111100000000000 = some .retn := by decide

/-- S11, and the ignored bits of R105. -/
theorem test_decode_stack :
    decodeTableWord 16 0b1111000000000000 = some .pshi ∧ decodeTableWord 16 0b1111000111111111 = some .pshi ∧
      decodeTableWord 16 0b1111001000000000 = some .popi ∧ decodeTableWord 16 0b1111010000000000 = some .push ∧
      decodeTableWord 16 0b1111011000000000 = some .pop ∧ decodeTableWord 16 0b1111101000000000 = some .swap ∧
      decodeTableWord 16 0b1111110000000101 = some (.insp 5#8) ∧
      decodeTableWord 16 0b1111110100000101 = some (.insp 5#8) ∧
      decodeTableWord 16 0b1111111000000101 = some (.desp 5#8) ∧
      decodeTableWord 16 0b1111111111111111 = some (.desp 255#8) := by decide

/-- HALT at position 1 is the self-jump (S1). -/
theorem test_decode_halt :
    encode (.halt 1#12) = .macroWord 0b0110000000000001#16 ∧
      decodeTableWord 16 0b0110000000000001 = some (.jump 1#12) := by decide

theorem test_decode_alu :
    (decodeMicro 0b0_00_00_00_0_0_0_0_0_0000_0000_0000_00000000#32).aluInstr = .aluAdd ∧
      (decodeMicro 0b0_00_01_00_0_0_0_0_0_0000_0000_0000_00000000#32).aluInstr = .aluAnd ∧
      (decodeMicro 0b0_00_10_00_0_0_0_0_0_0000_0000_0000_00000000#32).aluInstr = .aluPassA ∧
      (decodeMicro 0b0_00_11_00_0_0_0_0_0_0000_0000_0000_00000000#32).aluInstr = .aluNotA := by decide

theorem test_decode_shift :
    (decodeMicro 0b0_00_00_00_0_0_0_0_0_0000_0000_0000_00000000#32).shiftInstr = .shIdentity ∧
      (decodeMicro 0b0_00_00_01_0_0_0_0_0_0000_0000_0000_00000000#32).shiftInstr = .shRight1 ∧
      (decodeMicro 0b0_00_00_10_0_0_0_0_0_0000_0000_0000_00000000#32).shiftInstr = .shLeft1 ∧
      (decodeMicro 0b0_00_00_11_0_0_0_0_0_0000_0000_0000_00000000#32).shiftInstr = .shReserved := by decide

theorem test_decode_amux :
    (decodeMicro 0b0_00_00_00_0_0_0_0_0_0000_0000_0000_00000000#32).amuxInstr = .amuxAlat ∧
      (decodeMicro 0b1_00_00_00_0_0_0_0_0_0000_0000_0000_00000000#32).amuxInstr = .amuxMbr := by decide

theorem test_decode_cond :
    (decodeMicro 0b0_00_00_00_0_0_0_0_0_0000_0000_0000_01001110#32).condInstr = .condUnconditional 78#8 ∧
      (decodeMicro 0b0_01_00_00_0_0_0_0_0_0000_0000_0000_01001110#32).condInstr = .condIfN 78#8 ∧
      (decodeMicro 0b0_10_00_00_0_0_0_0_0_0000_0000_0000_01001110#32).condInstr = .condIfZ 78#8 ∧
      (decodeMicro 0b0_11_00_00_0_0_0_0_0_0000_0000_0000_01001110#32).condInstr = .condAlways 78#8 := by decide

theorem test_decode_single_bits :
    decodeTableWord 32 0b0_00_00_00_1_0_0_0_0_0000_0000_0000_00000000 = some .mbrLatch ∧
      decodeTableWord 24 0b0_00_00_00_0_1_0_0_0_0000_0000_0000_00000000 = some .marLatch ∧
      decodeTableWord 24 0b0_00_00_00_0_0_1_0_0_0000_0000_0000_00000000 = some .rdBeginRead ∧
      decodeTableWord 24 0b0_00_00_00_0_0_0_1_0_0000_0000_0000_00000000 = some .wrBeginWrite ∧
      decodeTableWord 24 0b0_00_00_00_0_0_0_0_1_1010_0000_0000_00000000 = some (.encWriteback .a) := by decide

/-- Entry 0 of the decided store, the fetch entry 0x10C00001 of H7. -/
theorem test_decode_fetch_entry :
    decodeMicro 0x10C00001#32 =
      { MicroFields.blank with alu := .passA, mar := true, rd := true, addr := 1#8 } := by decide

theorem test_canonical_words :
    isCanonicalWord 0xFC05#16 = true ∧ isCanonicalWord 0xFD05#16 = false ∧ isCanonicalWord 0xF1FF#16 = false ∧
      isCanonicalWord 0xFFFF#16 = false ∧ isCanonicalWord 0xFA00#16 = true := by decide

theorem test_no_longer_word : decodeTableWord 33 0 = none ∧ decodeTableWord 0 0 = none := by decide

/-! ### The macro vectors -/

/-- V2: LODD 100 neg (R300). -/
theorem test_lodd_V2 :
    ends (step (boot 0x0064#16 0x0000#16 0x0007#16 0x0FFF#16 [(0x064#12, 0x8001#16)])) =
      some (wrote (boot 0x0064#16 0x0000#16 0x0007#16 0x0FFF#16 [(0x064#12, 0x8001#16)]).mem [], true, false, 36,
        [0x0001#16, 0x8001#16, 0x0FFF#16, 0x0000#16, 0x0064#16, 0x8001#16]) := by decide

/-- V48: LODD 0 self (R300). -/
theorem test_lodd_V48 :
    ends (step (boot 0x0000#16 0x0000#16 0x0007#16 0x0FFF#16 [])) =
      some (wrote (boot 0x0000#16 0x0000#16 0x0007#16 0x0FFF#16 []).mem [], false, true, 36,
        [0x0001#16, 0x0000#16, 0x0FFF#16, 0x0000#16, 0x0000#16, 0x0000#16]) := by decide

/-- V4: STOD 100 (R301). -/
theorem test_stod_V4 :
    ends (step (boot 0x1064#16 0x0000#16 0x0ABC#16 0x0FFF#16 [])) =
      some (wrote (boot 0x1064#16 0x0000#16 0x0ABC#16 0x0FFF#16 []).mem [(0x064#12, 0x0ABC#16)], false, false, 32,
        [0x0001#16, 0x0ABC#16, 0x0FFF#16, 0x0000#16, 0x0064#16, 0x0ABC#16]) := by decide

/-- V49: STOD 0 self (R301). -/
theorem test_stod_V49 :
    ends (step (boot 0x1000#16 0x0000#16 0x0ABC#16 0x0FFF#16 [])) =
      some (wrote (boot 0x1000#16 0x0000#16 0x0ABC#16 0x0FFF#16 []).mem [(0x000#12, 0x0ABC#16)], false, false, 32,
        [0x0001#16, 0x0ABC#16, 0x0FFF#16, 0x0000#16, 0x0000#16, 0x0ABC#16]) := by decide

/-- V6: ADDD 100 ovf (R302). -/
theorem test_addd_V6 :
    ends (step (boot 0x2064#16 0x0000#16 0x7FFF#16 0x0FFF#16 [(0x064#12, 0x0001#16)])) =
      some (wrote (boot 0x2064#16 0x0000#16 0x7FFF#16 0x0FFF#16 [(0x064#12, 0x0001#16)]).mem [], true, false, 36,
        [0x0001#16, 0x8000#16, 0x0FFF#16, 0x0000#16, 0x0064#16, 0x0001#16]) := by decide

/-- V7: ADDD 100 wrap0 (R302). -/
theorem test_addd_V7 :
    ends (step (boot 0x2064#16 0x0000#16 0xFFFF#16 0x0FFF#16 [(0x064#12, 0x0001#16)])) =
      some (wrote (boot 0x2064#16 0x0000#16 0xFFFF#16 0x0FFF#16 [(0x064#12, 0x0001#16)]).mem [], false, true, 36,
        [0x0001#16, 0x0000#16, 0x0FFF#16, 0x0000#16, 0x0064#16, 0x0001#16]) := by decide

/-- V8: SUBD 100 (R303). -/
theorem test_subd_V8 :
    ends (step (boot 0x3064#16 0x0000#16 0x0005#16 0x0FFF#16 [(0x064#12, 0x0007#16)])) =
      some (wrote (boot 0x3064#16 0x0000#16 0x0005#16 0x0FFF#16 [(0x064#12, 0x0007#16)]).mem [], true, false, 40,
        [0x0001#16, 0xFFFE#16, 0x0FFF#16, 0xFFF8#16, 0x0064#16, 0x0007#16]) := by decide

/-- V10: SUBD 100 ovf (R303). -/
theorem test_subd_V10 :
    ends (step (boot 0x3064#16 0x0000#16 0x8000#16 0x0FFF#16 [(0x064#12, 0x0001#16)])) =
      some (wrote (boot 0x3064#16 0x0000#16 0x8000#16 0x0FFF#16 [(0x064#12, 0x0001#16)]).mem [], false, false, 40,
        [0x0001#16, 0x7FFF#16, 0x0FFF#16, 0xFFFE#16, 0x0064#16, 0x0001#16]) := by decide

/-- V11: JPOS 50 ac=0 (R340). -/
theorem test_jpos_V11 :
    ends (step (boot 0x4032#16 0x0000#16 0x0000#16 0x0FFF#16 [])) =
      some (wrote (boot 0x4032#16 0x0000#16 0x0000#16 0x0FFF#16 []).mem [], false, false, 32,
        [0x0032#16, 0x0000#16, 0x0FFF#16, 0x0000#16, 0x0000#16, 0x4032#16]) := by decide

/-- V12: JPOS 50 ac=-1 (R340). -/
theorem test_jpos_V12 :
    ends (step (boot 0x4032#16 0x0000#16 0xFFFF#16 0x0FFF#16 [])) =
      some (wrote (boot 0x4032#16 0x0000#16 0xFFFF#16 0x0FFF#16 []).mem [], true, false, 28,
        [0x0001#16, 0xFFFF#16, 0x0FFF#16, 0x0000#16, 0x0000#16, 0x4032#16]) := by decide

/-- V13: JZER 50 ac=0 (R341). -/
theorem test_jzer_V13 :
    ends (step (boot 0x5032#16 0x0000#16 0x0000#16 0x0FFF#16 [])) =
      some (wrote (boot 0x5032#16 0x0000#16 0x0000#16 0x0FFF#16 []).mem [], false, false, 32,
        [0x0032#16, 0x0000#16, 0x0FFF#16, 0x0000#16, 0x0000#16, 0x5032#16]) := by decide

/-- V14: JZER 50 ac=3 (R341). -/
theorem test_jzer_V14 :
    ends (step (boot 0x5032#16 0x0000#16 0x0003#16 0x0FFF#16 [])) =
      some (wrote (boot 0x5032#16 0x0000#16 0x0003#16 0x0FFF#16 []).mem [], false, false, 32,
        [0x0001#16, 0x0003#16, 0x0FFF#16, 0x0000#16, 0x0000#16, 0x5032#16]) := by decide

/-- V15: JUMP 50 (R342). -/
theorem test_jump_V15 :
    ends (step (boot 0x6032#16 0x0000#16 0x0003#16 0x0FFF#16 [])) =
      some (wrote (boot 0x6032#16 0x0000#16 0x0003#16 0x0FFF#16 []).mem [], false, false, 28,
        [0x0032#16, 0x0003#16, 0x0FFF#16, 0x0000#16, 0x0000#16, 0x6032#16]) := by decide

/-- V51: JUMP 4095 (R342). -/
theorem test_jump_V51 :
    ends (step (boot 0x6FFF#16 0x0000#16 0x0000#16 0x0FFF#16 [])) =
      some (wrote (boot 0x6FFF#16 0x0000#16 0x0000#16 0x0FFF#16 []).mem [], false, false, 28,
        [0x0FFF#16, 0x0000#16, 0x0FFF#16, 0x0000#16, 0x0000#16, 0x6FFF#16]) := by decide

/-- V17: LOCO 0 (R304). -/
theorem test_loco_V17 :
    ends (step (boot 0x7000#16 0x0000#16 0x0003#16 0x0FFF#16 [])) =
      some (wrote (boot 0x7000#16 0x0000#16 0x0003#16 0x0FFF#16 []).mem [], false, true, 28,
        [0x0001#16, 0x0000#16, 0x0FFF#16, 0x0000#16, 0x0000#16, 0x7000#16]) := by decide

/-- V50: LOCO 4095 pc=4095 (R304). -/
theorem test_loco_V50 :
    ends (step (boot 0x7FFF#16 0x0FFF#16 0x0000#16 0x0FFF#16 [])) =
      some (wrote (boot 0x7FFF#16 0x0FFF#16 0x0000#16 0x0FFF#16 []).mem [], false, false, 28,
        [0x1000#16, 0x0FFF#16, 0x0FFF#16, 0x0000#16, 0x0FFF#16, 0x7FFF#16]) := by decide

/-- V18: LODL 2 (R305). -/
theorem test_lodl_V18 :
    ends (step (boot 0x8002#16 0x0000#16 0x0000#16 0x0F00#16 [(0xF02#12, 0x00AA#16)])) =
      some (wrote (boot 0x8002#16 0x0000#16 0x0000#16 0x0F00#16 [(0xF02#12, 0x00AA#16)]).mem [], false, false, 40,
        [0x0001#16, 0x00AA#16, 0x0F00#16, 0x8F02#16, 0x0F02#16, 0x00AA#16]) := by decide

/-- V19: LODL wrap (R305). -/
theorem test_lodl_V19 :
    ends (step (boot 0x8002#16 0x0000#16 0x0000#16 0x0FFF#16 [(0x001#12, 0x00AB#16)])) =
      some (wrote (boot 0x8002#16 0x0000#16 0x0000#16 0x0FFF#16 [(0x001#12, 0x00AB#16)]).mem [], false, false, 40,
        [0x0001#16, 0x00AB#16, 0x0FFF#16, 0x9001#16, 0x0001#16, 0x00AB#16]) := by decide

/-- V20: STOL 3 (R306). -/
theorem test_stol_V20 :
    ends (step (boot 0x9003#16 0x0000#16 0x0055#16 0x0F00#16 [])) =
      some (wrote (boot 0x9003#16 0x0000#16 0x0055#16 0x0F00#16 []).mem [(0xF03#12, 0x0055#16)], false, false, 36,
        [0x0001#16, 0x0055#16, 0x0F00#16, 0x9F03#16, 0x0F03#16, 0x0055#16]) := by decide

/-- V54: STOL wrap (R306). -/
theorem test_stol_V54 :
    ends (step (boot 0x9FFF#16 0x0000#16 0x0077#16 0x0F00#16 [])) =
      some (wrote (boot 0x9FFF#16 0x0000#16 0x0077#16 0x0F00#16 []).mem [(0xEFF#12, 0x0077#16)], false, false, 36,
        [0x0001#16, 0x0077#16, 0x0F00#16, 0xAEFF#16, 0x0EFF#16, 0x0077#16]) := by decide

/-- V21: ADDL 1 (R307). -/
theorem test_addl_V21 :
    ends (step (boot 0xA001#16 0x0000#16 0x000A#16 0x0F00#16 [(0xF01#12, 0x0014#16)])) =
      some (wrote (boot 0xA001#16 0x0000#16 0x000A#16 0x0F00#16 [(0xF01#12, 0x0014#16)]).mem [], false, false, 40,
        [0x0001#16, 0x001E#16, 0x0F00#16, 0xAF01#16, 0x0F01#16, 0x0014#16]) := by decide

/-- V55: ADDL 0 (R307). -/
theorem test_addl_V55 :
    ends (step (boot 0xA000#16 0x0000#16 0xFFFF#16 0x0F00#16 [(0xF00#12, 0x0001#16)])) =
      some (wrote (boot 0xA000#16 0x0000#16 0xFFFF#16 0x0F00#16 [(0xF00#12, 0x0001#16)]).mem [], false, true, 40,
        [0x0001#16, 0x0000#16, 0x0F00#16, 0xAF00#16, 0x0F00#16, 0x0001#16]) := by decide

/-- V22: SUBL 1 (R308). -/
theorem test_subl_V22 :
    ends (step (boot 0xB001#16 0x0000#16 0x000A#16 0x0F00#16 [(0xF01#12, 0x0014#16)])) =
      some (wrote (boot 0xB001#16 0x0000#16 0x000A#16 0x0F00#16 [(0xF01#12, 0x0014#16)]).mem [], true, false, 44,
        [0x0001#16, 0xFFF6#16, 0x0F00#16, 0xFFEB#16, 0x0F01#16, 0x0014#16]) := by decide

/-- V56: SUBL 0 eq (R308). -/
theorem test_subl_V56 :
    ends (step (boot 0xB000#16 0x0000#16 0x0004#16 0x0F00#16 [(0xF00#12, 0x0004#16)])) =
      some (wrote (boot 0xB000#16 0x0000#16 0x0004#16 0x0F00#16 [(0xF00#12, 0x0004#16)]).mem [], false, true, 44,
        [0x0001#16, 0x0000#16, 0x0F00#16, 0xFFFB#16, 0x0F00#16, 0x0004#16]) := by decide

/-- V58: JNEG 50 ac=8000 (R343). -/
theorem test_jneg_V58 :
    ends (step (boot 0xC032#16 0x0000#16 0x8000#16 0x0FFF#16 [])) =
      some (wrote (boot 0xC032#16 0x0000#16 0x8000#16 0x0FFF#16 []).mem [], false, false, 32,
        [0x0032#16, 0x8000#16, 0x0FFF#16, 0x0000#16, 0x0000#16, 0xC032#16]) := by decide

/-- V24: JNEG 50 ac=0 (R343). -/
theorem test_jneg_V24 :
    ends (step (boot 0xC032#16 0x0000#16 0x0000#16 0x0FFF#16 [])) =
      some (wrote (boot 0xC032#16 0x0000#16 0x0000#16 0x0FFF#16 []).mem [], false, false, 32,
        [0x0001#16, 0x0000#16, 0x0FFF#16, 0x0000#16, 0x0000#16, 0xC032#16]) := by decide

/-- V25: JNZE 50 ac=0 (R344). -/
theorem test_jnze_V25 :
    ends (step (boot 0xD032#16 0x0000#16 0x0000#16 0x0FFF#16 [])) =
      some (wrote (boot 0xD032#16 0x0000#16 0x0000#16 0x0FFF#16 []).mem [], false, true, 28,
        [0x0001#16, 0x0000#16, 0x0FFF#16, 0x0000#16, 0x0000#16, 0xD032#16]) := by decide

/-- V26: JNZE 50 ac=2 (R344). -/
theorem test_jnze_V26 :
    ends (step (boot 0xD032#16 0x0000#16 0x0002#16 0x0FFF#16 [])) =
      some (wrote (boot 0xD032#16 0x0000#16 0x0002#16 0x0FFF#16 []).mem [], false, false, 32,
        [0x0032#16, 0x0002#16, 0x0FFF#16, 0x0000#16, 0x0000#16, 0xD032#16]) := by decide

/-- V27: CALL 50 (R345). -/
theorem test_call_V27 :
    ends (step (boot 0xE032#16 0x0007#16 0x0000#16 0x0F00#16 [])) =
      some (wrote (boot 0xE032#16 0x0007#16 0x0000#16 0x0F00#16 []).mem [(0xEFF#12, 0x0008#16)], false, false, 36,
        [0x0032#16, 0x0000#16, 0x0EFF#16, 0x0000#16, 0x0EFF#16, 0x0008#16]) := by decide

/-- V52: CALL 0 sp=0 (R345). -/
theorem test_call_V52 :
    ends (step (boot 0xE000#16 0x0003#16 0x0000#16 0x0000#16 [])) =
      some (wrote (boot 0xE000#16 0x0003#16 0x0000#16 0x0000#16 []).mem [(0xFFF#12, 0x0004#16)], false, true, 36,
        [0x0000#16, 0x0000#16, 0xFFFF#16, 0x0000#16, 0x0FFF#16, 0x0004#16]) := by decide

/-- V38: F1FF (=PSHI) (R105, R380). -/
theorem test_pshi_V38 :
    ends (step (boot 0xF1FF#16 0x0000#16 0x0064#16 0x0F00#16 [(0x064#12, 0x4321#16)])) =
      some (wrote (boot 0xF1FF#16 0x0000#16 0x0064#16 0x0F00#16 [(0x064#12, 0x4321#16)]).mem [(0xEFF#12, 0x4321#16)], false, false, 52,
        [0x0001#16, 0x0064#16, 0x0EFF#16, 0x0000#16, 0x0EFF#16, 0x4321#16]) := by decide

/-- V45: PSHI self (R380). -/
theorem test_pshi_V45 :
    ends (step (boot 0xF000#16 0x0000#16 0x0EFF#16 0x0F00#16 [(0xEFF#12, 0x1111#16)])) =
      some (wrote (boot 0xF000#16 0x0000#16 0x0EFF#16 0x0F00#16 [(0xEFF#12, 0x1111#16)]).mem [], false, false, 52,
        [0x0001#16, 0x0EFF#16, 0x0EFF#16, 0x0000#16, 0x0EFF#16, 0x1111#16]) := by decide

/-- V29: POPI (R381). -/
theorem test_popi_V29 :
    ends (step (boot 0xF200#16 0x0000#16 0x0064#16 0x0F00#16 [(0xF00#12, 0x0777#16)])) =
      some (wrote (boot 0xF200#16 0x0000#16 0x0064#16 0x0F00#16 [(0xF00#12, 0x0777#16)]).mem [(0x064#12, 0x0777#16)], false, false, 52,
        [0x0001#16, 0x0064#16, 0x0F01#16, 0x0000#16, 0x0064#16, 0x0777#16]) := by decide

/-- V30: PUSH (R382). -/
theorem test_push_V30 :
    ends (step (boot 0xF400#16 0x0000#16 0x0123#16 0x0F00#16 [])) =
      some (wrote (boot 0xF400#16 0x0000#16 0x0123#16 0x0F00#16 []).mem [(0xEFF#12, 0x0123#16)], false, false, 48,
        [0x0001#16, 0x0123#16, 0x0EFF#16, 0x0000#16, 0x0EFF#16, 0x0123#16]) := by decide

/-- V42: SP wrap PUSH sp=0 (R382). -/
theorem test_push_V42 :
    ends (step (boot 0xF400#16 0x0000#16 0x0042#16 0x0000#16 [])) =
      some (wrote (boot 0xF400#16 0x0000#16 0x0042#16 0x0000#16 []).mem [(0xFFF#12, 0x0042#16)], false, false, 48,
        [0x0001#16, 0x0042#16, 0xFFFF#16, 0x0000#16, 0x0FFF#16, 0x0042#16]) := by decide

/-- V31: POP (R383). -/
theorem test_pop_V31 :
    ends (step (boot 0xF600#16 0x0000#16 0x0000#16 0x0F00#16 [(0xF00#12, 0xFFFE#16)])) =
      some (wrote (boot 0xF600#16 0x0000#16 0x0000#16 0x0F00#16 [(0xF00#12, 0xFFFE#16)]).mem [], true, false, 48,
        [0x0001#16, 0xFFFE#16, 0x0F01#16, 0x0000#16, 0x0F00#16, 0xFFFE#16]) := by decide

/-- V46: POP sp=FFFF (R383). -/
theorem test_pop_V46 :
    ends (step (boot 0xF600#16 0x0000#16 0x0000#16 0xFFFF#16 [(0xFFF#12, 0x0005#16)])) =
      some (wrote (boot 0xF600#16 0x0000#16 0x0000#16 0xFFFF#16 [(0xFFF#12, 0x0005#16)]).mem [], false, false, 48,
        [0x0001#16, 0x0005#16, 0x0000#16, 0x0000#16, 0x0FFF#16, 0x0005#16]) := by decide

/-- V32: RETN (R346). -/
theorem test_retn_V32 :
    ends (step (boot 0xF800#16 0x0000#16 0x0000#16 0x0F00#16 [(0xF00#12, 0x0009#16)])) =
      some (wrote (boot 0xF800#16 0x0000#16 0x0000#16 0x0F00#16 [(0xF00#12, 0x0009#16)]).mem [], false, false, 48,
        [0x0009#16, 0x0000#16, 0x0F01#16, 0x0000#16, 0x0F00#16, 0x0009#16]) := by decide

/-- V47: RETN sp=FFFF (R346). -/
theorem test_retn_V47 :
    ends (step (boot 0xF800#16 0x0000#16 0x0000#16 0xFFFF#16 [(0xFFF#12, 0x0003#16)])) =
      some (wrote (boot 0xF800#16 0x0000#16 0x0000#16 0xFFFF#16 [(0xFFF#12, 0x0003#16)]).mem [], false, false, 48,
        [0x0003#16, 0x0000#16, 0x0000#16, 0x0000#16, 0x0FFF#16, 0x0003#16]) := by decide

/-- V41: FB00 (=SWAP) (R105, R384). -/
theorem test_swap_V41 :
    ends (step (boot 0xFB00#16 0x0000#16 0x0011#16 0x0F00#16 [])) =
      some (wrote (boot 0xFB00#16 0x0000#16 0x0011#16 0x0F00#16 []).mem [], false, false, 48,
        [0x0001#16, 0x0F00#16, 0x0011#16, 0x0011#16, 0x0000#16, 0xFB00#16]) := by decide

/-- V53: SWAP neg (R384). -/
theorem test_swap_V53 :
    ends (step (boot 0xFA00#16 0x0000#16 0x8000#16 0x0F00#16 [])) =
      some (wrote (boot 0xFA00#16 0x0000#16 0x8000#16 0x0F00#16 []).mem [], true, false, 48,
        [0x0001#16, 0x0F00#16, 0x8000#16, 0x8000#16, 0x0000#16, 0xFA00#16]) := by decide

/-- V39: FD05 (=INSP) (R105, R385). -/
theorem test_insp_V39 :
    ends (step (boot 0xFD05#16 0x0000#16 0x0000#16 0x0F00#16 [])) =
      some (wrote (boot 0xFD05#16 0x0000#16 0x0000#16 0x0F00#16 []).mem [], false, false, 44,
        [0x0001#16, 0x0000#16, 0x0F05#16, 0x0005#16, 0x0000#16, 0xFD05#16]) := by decide

/-- V43: INSP 1 sp=FFFF (R385). -/
theorem test_insp_V43 :
    ends (step (boot 0xFC01#16 0x0000#16 0x0000#16 0xFFFF#16 [])) =
      some (wrote (boot 0xFC01#16 0x0000#16 0x0000#16 0xFFFF#16 []).mem [], false, true, 44,
        [0x0001#16, 0x0000#16, 0x0000#16, 0x0001#16, 0x0000#16, 0xFC01#16]) := by decide

/-- V40: FF05 (=DESP) (R105, R386). -/
theorem test_desp_V40 :
    ends (step (boot 0xFF05#16 0x0000#16 0x0000#16 0x0F00#16 [])) =
      some (wrote (boot 0xFF05#16 0x0000#16 0x0000#16 0x0F00#16 []).mem [], false, false, 52,
        [0x0001#16, 0x0000#16, 0x0EFB#16, 0xFFFB#16, 0x0000#16, 0xFF05#16]) := by decide

/-- V44: DESP 1 sp=0 (R386). -/
theorem test_desp_V44 :
    ends (step (boot 0xFE01#16 0x0000#16 0x0000#16 0x0000#16 [])) =
      some (wrote (boot 0xFE01#16 0x0000#16 0x0000#16 0x0000#16 []).mem [], true, false, 52,
        [0x0001#16, 0x0000#16, 0xFFFF#16, 0xFFFF#16, 0x0000#16, 0xFE01#16]) := by decide

/-- HALT at position 5 runs as JUMP 5 (R115, R342): 7 microinstructions. -/
theorem test_halt_runs_as_jump :
    ends (exec (.halt 5#12) (boot 0x6005#16 0x0005#16 0x0003#16 0x0FFF#16 [])) =
      some ([(5, 0x6005#16)], false, false, 28,
        [0x0005#16, 0x0003#16, 0x0FFF#16, 0x0000#16, 0x0005#16, 0x6005#16]) := by decide

/-- IR and TIR of P0's LOCO 5 (S1). -/
theorem test_fetch_leaves_ir_and_tir :
    (nextOf (step (boot 0x7005#16 0#16 0#16 0x0FFF#16 []))).map (fun t => (t.reg .ir, t.reg .tir)) =
      some (0x7005#16, 0x8028#16) := by decide

/-! ### The microinstruction vectors -/

/-- U2: ADD overflows silently. -/
theorem test_alu_add_U2 :
    after (((micro 0x601ABA00#32).setReg .a 0x7FFF#16).setReg .b 0x0001#16)
        (fun t => (t.reg .a, t.flagN, t.flagZ, t.mpc)) = some (0x8000#16, true, false, 0#8) := by decide

/-- U5: AND with SMASK. -/
theorem test_alu_and_U5 :
    after ((micro 0x681A9A00#32).setReg .a 0xABCD#16) (fun t => (t.reg .a, t.flagN, t.flagZ)) =
      some (0x00CD#16, false, false) := by decide

/-- U6: PASS A. -/
theorem test_alu_pass_a_U6 :
    after ((micro 0x701A0A00#32).setReg .a 0x8001#16) (fun t => (t.reg .a, t.flagN, t.flagZ)) =
      some (0x8001#16, true, false) := by decide

/-- U8: NOT A to zero. -/
theorem test_alu_not_a_U8 :
    after ((micro 0x781A0A00#32).setReg .a 0xFFFF#16) (fun t => (t.reg .a, t.flagN, t.flagZ)) =
      some (0x0000#16, false, true) := by decide

/-- U9 and U10: the right shift in either mode. -/
theorem test_shift_right_U9_U10 :
    shiftRight1 .arithmetic 0x8002#16 = 0xC001#16 ∧ shiftRight1 .logical 0x8002#16 = 0x4001#16 := by decide

/-- U9: the flags come from ALUOUT, whatever the mode. -/
theorem test_shift_right_flags_U9 :
    after ((micro 0x721A0A00#32).setReg .a 0x8002#16) (fun t => (t.aluout, t.flagN, t.flagZ)) =
      some (0x8002#16, true, false) := by rfl

/-- U11: the left shift drops bit 15, and N holds it. -/
theorem test_shift_left_U11 :
    after ((micro 0x741A0A00#32).setReg .a 0x8000#16) (fun t => (t.reg .a, t.aluout, t.flagN, t.flagZ)) =
      some (0x0000#16, 0x8000#16, true, false) := by decide

/-- U12. -/
theorem test_shift_left_U12 :
    after ((micro 0x741A0A00#32).setReg .a 0x4000#16) (fun t => (t.reg .a, t.flagN)) =
      some (0x8000#16, false) := by decide

/-- R139's example: IDENTITY. -/
theorem test_shift_identity :
    (nextOf (exec .shIdentity { State.reset with aluout := 0x1234#16 })).map State.shout = some 0x1234#16 := by
  decide

/-- U30: SH = 3 faults and changes FAULT alone. -/
theorem test_shift_reserved_U30 :
    nextOf (step (micro 0x66000000#32)) =
      some { micro 0x66000000#32 with fault := some (.reservedShift 0) } := by decide

/-- U13: AMUX = 1. -/
theorem test_amux_mbr_U13 :
    after { micro 0xF01A0000#32 with mbr := 0x1234#16 } (fun t => (t.reg .a, t.mbr)) =
      some (0x1234#16, 0x1234#16) := by decide

/-- U14: AMUX = 0; both latches read the old value. -/
theorem test_amux_alat_U14 :
    after ((micro 0x601AAA00#32).setReg .a 0x0003#16) (fun t => t.reg .a) = some 0x0006#16 := by decide

/-- U15: no writeback without ENC. -/
theorem test_writeback_U15 :
    after ((micro 0x780A0A00#32).setReg .a 0x0003#16) (fun t => (t.reg .a, t.aluout)) =
      some (0x0003#16, 0xFFFC#16) := by decide

/-- A writeback to a constant cell takes effect (R22). -/
theorem test_writeback_constant :
    (nextOf (exec (.encWriteback .amask) { State.reset with shout := 0x1234#16 })).map (fun t => t.reg .amask) =
      some 0x1234#16 := by decide

/-- U16: the MAR latch keeps 12 bits. -/
theorem test_mar_latch_U16 :
    after ((micro 0x7080BA00#32).setReg .b 0xF123#16) (fun t => (t.mar, t.flagZ)) =
      some (0x123#12, true) := by decide

/-- U17: the MBR latch. -/
theorem test_mbr_latch_U17 :
    after ((micro 0x79000A00#32).setReg .a 0x00FF#16) State.mbr = some 0xFF00#16 := by decide

/-- U28: the MBR latch comes after the word read. -/
theorem test_mbr_latch_U28 :
    after { micro 0x79400A00#32 with rdc := 1, maddr := 5#12, mem := [(5, 0x5555#16)] }
        (fun t => (t.mbr, t.rdc)) = some (0xFFFF#16, 0) := by decide

/-- U18 and U19: COND = 1. -/
theorem test_cond_ifN_U18_U19 :
    after ((micro 0x30000A07#32).setReg .a 0x8000#16) State.mpc = some 7#8 ∧
      after ((micro 0x30000A07#32).setReg .a 0x0001#16) State.mpc = some 1#8 := by decide

/-- U20 and U21: COND = 2. -/
theorem test_cond_ifZ_U20_U21 :
    after ((micro 0x50000A07#32).setReg .a 0x0000#16) State.mpc = some 7#8 ∧
      after ((micro 0x50000A07#32).setReg .a 0x0005#16) State.mpc = some 1#8 := by decide

/-- U22: COND = 0 goes to ADDR. -/
theorem test_cond_unconditional_U22 :
    after ((micro 0x10000A09#32).setReg .a 0x0005#16) State.mpc = some 9#8 := by decide

/-- U23: COND = 3 goes to ADDR. -/
theorem test_cond_always_U23 :
    after ((micro 0x70000A09#32).setReg .a 0x0005#16) State.mpc = some 9#8 := by decide

/-- U31: next address 79 faults in phase 4. -/
theorem test_cond_always_U31 :
    after (micro 0x6000004F#32) (fun t => (t.fault, t.cycles, t.phase, t.mpc, t.flagZ)) =
      some (some (.nextAddressOutOfRange 0 79), 3, .phase4, 0#8, true) := by decide

/-- U32 and U33: falling through past entry 78, and the branch taken. -/
theorem test_cond_fall_through_U32_U33 :
    let s := { micro 0x6000004E#32 with
      cs := (micro 0x6000004E#32).cs.set 78 0x30000A00#32, mpc := 78#8, cycles := 4 }
    after s (fun t => (t.fault, t.cycles)) = some (some (.nextAddressOutOfRange 78 79), 7) ∧
      after (s.setReg .a 0x8000#16) (fun t => (t.fault, t.cycles, t.mpc)) = some (none, 8, 0#8) := by decide

/-- U24: the first RD of a pair. -/
theorem test_read_U24 :
    after { (micro 0x70C0B000#32).setReg .b 0x0005#16 with mem := [(5, 0x5555#16)] }
        (fun t => (t.rdc, t.mar, t.maddr, t.mbr)) = some (1, 5#12, 5#12, 0x0000#16) := by decide

/-- U25: the second RD completes, and step 10 presents MAR again. -/
theorem test_read_U25 :
    after { micro 0x70400000#32 with rdc := 1, maddr := 5#12, mem := [(5, 0x5555#16)] }
        (fun t => (t.mbr, t.rdc, t.maddr)) = some (0x5555#16, 0, 0#12) := by decide

/-- U26: the second WR completes. -/
theorem test_write_U26 :
    after { micro 0x70200000#32 with wrc := 1, maddr := 5#12, mbr := 0x0777#16 }
        (fun t => (t.mem, t.wrc, t.maddr)) = some ([(5, 0x0777#16)], 0, 0#12) := by decide

/-- U27: a read and a write that complete together. -/
theorem test_read_write_U27 :
    after { micro 0x70600000#32 with
        rdc := 1, wrc := 1, maddr := 5#12, mbr := 0x0777#16, mem := [(5, 0x5555#16)] }
        (fun t => (t.mbr, t.mem, t.rdc, t.wrc)) = some (0x5555#16, [(5, 0x5555#16)], 0, 0) := by decide

/-- U34: a faulted core is stuck, and the host sees the fault. -/
theorem test_faulted_U34 :
    let s := { State.reset with fault := some (.reservedShift 0) }
    nextOf (subcycle s) = some s ∧ nextOf (step s) = none ∧ (hostReset 0x0FFF#16 s).fault = none := by decide

/-- H7: four subcycles from reset run the fetch entry. -/
theorem test_four_subcycles_H7 :
    (nextOf (subcycles 4 State.reset)).map (fun t => (t.rdc, t.mar, t.maddr, t.mpc, t.phase, t.cycles)) =
      some (1, 0#12, 0#12, 1#8, .phase1, 4) := by decide

/-- Another well-formed store (R200): entries 0 to 12 go to the next entry by COND = 0, entry 13 goes to 0. -/
def longRoutine : State :=
  { State.reset with
    cs := (List.range 79).map fun k => if k = 13 then 0x70000000#32 else BitVec.ofNat 32 (0x10000001 + k) }

/-- R183: run_macro runs until mpc = 0, here 14 microinstructions. -/
theorem test_long_routine_runs_to_its_boundary :
    after longRoutine (fun t => (t.mpc, t.phase, t.cycles)) = some (0#8, .phase1, 56) := by decide +kernel

/-! ### Memory -/

/-- Writing what an unlisted address reads as removes the entry; entries stay sorted. -/
theorem test_memory_canonical :
    wrote [] [(7#12, 1#16), (3#12, 2#16), (7#12, 0#16)] = [(3, 2#16)] ∧
      wrote [] [(7#12, 1#16), (3#12, 2#16)] = [(3, 2#16), (7, 1#16)] ∧
      Mem.wf [(7, 1#16), (3, 2#16)] = false ∧ Mem.wf [(3, 0#16)] = false ∧ Mem.wf [(4096, 1#16)] = false := by
  decide

/-! ### The host and the assembler -/

/-- H2: load writes the image and N_prog, and resets nothing. -/
theorem test_load_H2 :
    (hostLoad [0x1234, 0x0001, 0x0002] { State.reset with mem := [(0, 0x7005#16), (1, 0x6001#16)], cycles := 28 }).map
        (fun t => (t.mem, t.nProg, t.cycles)) =
      some ([(0, 0x1234#16), (1, 1#16), (2, 2#16)], 3, 28) := by decide

/-- H4, H5 and H6: the order of the end-of-run conditions. -/
theorem test_run_status_H4_H5_H6 :
    runStatus [] 4096 (State.reset.setReg .pc 0x1000#16) = some .outOfBounds ∧
      runStatus [5] 3 (State.reset.setReg .pc 5#16) = some .halted ∧
      runStatus [0] 0 { State.reset with fault := some (.mpcOutOfRange 80) } =
        some (.fault (.mpcOutOfRange 80)) ∧
      runStatus [5] 3 (State.reset.setReg .pc 2#16) = none := by decide

/-- P0 (S1): LOCO 5, HALT, loaded after reset. -/
def runP0 : Option (Host.Outcome State Fault Refusal × Option RunStatus) :=
  (hostLoad [0x7005, 0x6001] State.reset).map (hostRun [1] 2 2)

theorem test_run_P0_status : (runP0.bind fun r => r.2) = some .halted := by decide

theorem test_run_P0_state :
    (runP0.bind fun r => ends r.1) =
      some ([(0, 0x7005#16), (1, 0x6001#16)], false, false, 28,
        [0x0001#16, 0x0005#16, 0x0FFF#16, 0x0000#16, 0x0000#16, 0x7005#16]) := by decide

/-- S6: register writes of integers. -/
theorem test_register_truncation_S6 :
    to16 65536 = 0#16 ∧ to16 (-1) = 0xFFFF#16 ∧ to16 32768 = 0x8000#16 ∧ to16 70000 = 0x1170#16 := by decide

/-- What the assembler makes of source text. -/
def asm (lines : List String) : Sum (Nat × AsmProblem) (List Word × List Nat) :=
  match assemble (lines.map String.toList) with
  | .ok o => .inr (o.words, o.haltAddrs)
  | .error e => .inl (e.line, e.problem)

/-- A2. -/
theorem test_assemble_A2 :
    asm ["  ; c", "", "lodd 12", " halt"] = .inr ([0x000C#16, 0x6001#16], [1]) := by decide

/-- A5, A6 and A7. -/
theorem test_assemble_A5_A6_A7 :
    asm ["INSP 255", "DESP 0", "LODD +7", "LODD 012"] =
      .inr ([0xFCFF#16, 0xFE00#16, 0x0007#16, 0x000C#16], []) := by decide

/-- A8, A9, S3: ranges. -/
theorem test_assemble_ranges :
    asm ["LODD -1"] = .inl (1, .addressRange) ∧ asm ["; a", "LOCO 1", "LOCO 4096"] = .inl (2, .addressRange) ∧
      asm ["INSP 300"] = .inl (1, .byteRange) := by decide

/-- A10 to A15. -/
theorem test_assemble_errors :
    asm ["PUSH 3"] = .inl (1, .unexpectedOperand) ∧ asm ["LODD"] = .inl (1, .missingOperand) ∧
      asm ["LODD x"] = .inl (1, .nonIntegerOperand) ∧ asm ["LODD 0x10"] = .inl (1, .nonIntegerOperand) ∧
      asm ["FOO 1"] = .inl (1, .unknownMnemonic) ∧ asm ["LODD 1 2"] = .inl (1, .extraToken) := by decide

/-! ### Witnesses: states and operands that meet the hypotheses of each statement -/

/-- A staged microinstruction at a phase. -/
def staged (f : MicroFields) (p : Phase) : State := { State.reset with mir := some f, phase := p }

/-- A faulted core. -/
def faulted : State := { State.reset with fault := some (.reservedShift 7) }

/-- The decided store half way through the fetch's second entry (phase 3, RDC = 2). -/
def midFetch : State :=
  { State.reset with
    mpc := 1#8, phase := .phase3, mir := some (decodeMicro (decidedStore.getD 1 0#32)), rdc := 2, cycles := 6 }

theorem witness_LoadWritesTheProgramImage :
    State.reset.mem.wf = true ∧ (List.replicate 4096 (0 : Int)).length ≤ 4096 ∧
      4096 < (List.replicate 4097 (0 : Int)).length ∧
      assemble [['F', 'O', 'O']] = .error ⟨1, .unknownMnemonic⟩ := by
  refine ⟨by decide, ?_, ?_, by rfl⟩ <;> simp only [List.length_replicate] <;> decide

theorem witness_BootLoadsTheAssembledProgram :
    ∃ o, assemble [['L', 'O', 'C', 'O', ' ', '5'], ['H', 'A', 'L', 'T']] = .ok o ∧
      o.words = [0x7005#16, 0x6001#16] := ⟨_, rfl, by decide⟩

theorem witness_StepRunsTheDecodedInstruction :
    faulted.fault = some (.reservedShift 7) ∧
      (State.reset.fault = none ∧ State.reset.request = .runMacro ∧ State.reset.macroReady = true) ∧
      (midFetch.fault = none ∧ midFetch.request = .runMacro ∧ midFetch.macroReady = false) ∧
      ((micro 0#32).fault = none ∧ (micro 0#32).request = .microstep ∧ (micro 0#32).phase = .phase1) ∧
      ({ midFetch with request := .subcycle }.fault = none ∧
        { midFetch with request := .subcycle }.request = .subcycle) := by decide

/-- The clause on any control store. -/
theorem witness_StepRunsTheDecodedInstruction_anyStore :
    longRoutine.fault = none ∧ longRoutine.request = .runMacro ∧ longRoutine.macroReady = false ∧
      longRoutine.Coherent ∧ ∃ t, runMicroprogram (13 + 1) longRoutine = .next t ∧ t.atBoundary = true := by
  refine ⟨by decide, by decide, by decide, ⟨by decide, by unfold State.mpcInRange; decide, ⟨by decide, ?_⟩,
    ⟨by decide, by decide⟩, by decide⟩, _, rfl, by decide⟩
  intro f h
  cases h

theorem witness_StagedSubcyclesRunTheirTableRows :
    let f := { MicroFields.blank with rd := true, wr := true, mar := true, mbr := true, enc := true }
    ∀ p ∈ [Phase.phase2, .phase3, .phase4],
      (staged f p).fault = none ∧ (staged f p).mir = some f ∧ (staged f p).phase = p := by decide

theorem witness_StoredWordIsTheNextToRun :
    State.reset.mem.wf = true ∧ State.reset.constantsIntact = true := by decide

theorem witness_MacroDecodeOfEncodeIsTheInstruction :
    (Instr.desp 255#8).isMacroLevel = true ∧ (Instr.halt 4095#12).isMacroLevel = true := by decide

theorem witness_EveryWordSelectsOneRoutine :
    (0xEFFF#16).toNat / 4096 < 15 ∧ (0x0000#16).toNat / 4096 < 15 ∧ (0xF000#16).toNat / 4096 = 15 ∧
      (0xFFFF#16).toNat / 4096 = 15 := by decide

theorem witness_DecidedStoreStaticProperties :
    (decodeMicro (decidedStore.getD 0 0#32)).cond = .unconditional ∧
      (decodeMicro (decidedStore.getD 1 0#32)).enc = true := by decide

/-- The clauses on N and Z, with a next address on either side of the bound. -/
theorem witness_ConditionRowsChooseTheNextAddress :
    ({ State.reset with flagN := true }.flagN = true ∧ State.reset.flagN = false) ∧
      ({ State.reset with flagZ := true }.flagZ = true ∧ State.reset.flagZ = false) ∧
      ((78#8).toNat < 79 ∧ 79 ≤ (79#8).toNat) ∧
      ({ State.reset with mpc := 77#8 }.mpc.toNat + 1 < 79 ∧ 79 ≤ { State.reset with mpc := 78#8 }.mpc.toNat + 1) := by
  decide

theorem witness_PhaseOneStagesTheFields :
    let s := { micro 0#32 with mpc := 78#8 }
    ((micro 0#32).fault = none ∧ (micro 0#32).phase = .phase1 ∧ (micro 0#32).cs.length = 79) ∧
      (79 ≤ { s with mpc := 79#8 }.mpc.toNat ∧ { s with mpc := 79#8 }.cs.length = 79) ∧
      (s.mpc.toNat < 79 ∧ s.cs[s.mpc.toNat]? = some 0x60000000#32 ∧
        (0x60000000#32).extractLsb' 25 2 ≠ 3#2) ∧
      ((micro 0x06000000#32).mpc.toNat < 79 ∧
        (micro 0x06000000#32).cs[(micro 0x06000000#32).mpc.toNat]? = some 0x06000000#32 ∧
        (0x06000000#32).extractLsb' 25 2 = 3#2) := by decide

theorem witness_PhaseTwoRaisesTheCounters :
    let f := { MicroFields.blank with rd := true }
    (staged f .phase2).fault = none ∧ (staged f .phase2).phase = .phase2 ∧ (staged f .phase2).mir = some f := by
  decide

theorem witness_PhaseThreeIsTheTenSteps :
    midFetch.fault = none ∧ midFetch.phase = .phase3 ∧
      midFetch.mir = some (decodeMicro (decidedStore.getD 1 0#32)) ∧
      (decodeMicro (decidedStore.getD 1 0#32)).sh ≠ .reserved := by decide

theorem witness_PhaseFourBranchesAndClearsTheFields :
    let f := { MicroFields.blank with addr := 78#8 }
    let g := { MicroFields.blank with addr := 79#8 }
    ((staged f .phase4).fault = none ∧ (staged f .phase4).phase = .phase4 ∧ (staged f .phase4).mir = some f ∧
        nextAddr f (staged f .phase4).flagN (staged f .phase4).flagZ (staged f .phase4).mpc.toNat < 79) ∧
      ((staged g .phase4).mir = some g ∧
        79 ≤ nextAddr g (staged g .phase4).flagN (staged g .phase4).flagZ (staged g .phase4).mpc.toNat) := by
  decide

/-- MPC out of range, and the hypotheses that the other three clauses share. -/
theorem witness_MicrostepIsItsClosedForm_mpc :
    { micro 0#32 with mpc := 79#8 }.fault = none ∧ { micro 0#32 with mpc := 79#8 }.phase = .phase1 ∧
      79 ≤ { micro 0#32 with mpc := 79#8 }.mpc.toNat := by decide

theorem witness_MicrostepIsItsClosedForm :
    ∀ w ∈ [0x06000000#32, 0x6000004E#32, 0x6000004F#32],
      (micro w).fault = none ∧ (micro w).phase = .phase1 ∧ (micro w).mpc.toNat < 79 ∧
        (micro w).cs[(micro w).mpc.toNat]? = some w := by
  intro w hw
  exact ⟨rfl, rfl, (by decide : (0 : Nat) < 79), rfl⟩

/-- The clauses' own hypotheses, the next address being 78 or 79 whatever the flags are. -/
theorem witness_MicrostepIsItsClosedForm_clauses :
    (decodeMicro 0x06000000#32).sh = .reserved ∧
      ((decodeMicro 0x6000004E#32).sh ≠ .reserved ∧ ∀ n z, nextAddr (decodeMicro 0x6000004E#32) n z 0 < 79) ∧
      ((decodeMicro 0x6000004F#32).sh ≠ .reserved ∧ ∀ n z, 79 ≤ nextAddr (decodeMicro 0x6000004F#32) n z 0) := by
  decide

theorem witness_SubcycleAdvancesThePhase :
    ∀ p ∈ [Phase.phase1, .phase2, .phase3, .phase4],
      (staged MicroFields.blank p).fault = none ∧ (staged MicroFields.blank p).phase = p ∧
        ((nextOf (subcycle (staged MicroFields.blank p))).map State.fault) = some none := by decide

theorem witness_FaultsArePreciseAndPermanent :
    (hostLoad [1] faulted).isSome = true ∧
    ((micro 0x06000000#32).fault = none ∧
      ((nextOf (subcycle (micro 0x06000000#32))).map State.fault) = some (some (.reservedShift 0))) ∧
      faulted.fault = some (.reservedShift 7) := by decide

theorem witness_CountersStayInRange :
    midFetch.stagingConsistent ∧ midFetch.countersInRange ∧
      (nextOf (subcycle midFetch)).map State.fault = some none ∧ midFetch.fault = none := by
  refine ⟨⟨by decide, fun f h => ?_⟩, ⟨by decide, by decide⟩, by decide, by decide⟩
  cases h
  decide

/-- A pair of RD = 1 microinstructions, the second of which also passes MBR through the multiplexer. -/
def readPair : State :=
  { micro 0x00C0B001#32 with cs := 0x00C0B001#32 :: List.replicate 78 0x90400000#32, mem := [(0, 0x5555#16)] }

theorem witness_PairedReadCompletesInTheSecond :
    readPair.fault = none ∧ readPair.phase = .phase1 ∧ readPair.rdc = 0 ∧
      (readPair.microWord.map decodeMicro).map MicroFields.rd = some true ∧
      (readPair.microWord.map decodeMicro).map MicroFields.mbr = some false ∧
      ∃ t, microstep readPair = .next t ∧ t.fault = none ∧
        (t.microWord.map decodeMicro).map MicroFields.rd = some true ∧
        (t.microWord.map decodeMicro).map MicroFields.amux = some .mbr ∧
        ∃ u, microstep t = .next u ∧ u.fault = none :=
  ⟨by decide, by decide, by decide, by decide, by decide, _, rfl, by decide, by decide, by decide, _, rfl,
    by decide⟩

/-- A pair of WR = 1 microinstructions, the first of which latches MBR. -/
def writePair : State :=
  { micro 0x19A0B001#32 with cs := 0x19A0B001#32 :: List.replicate 78 0x10200000#32 }

theorem witness_PairedWriteCompletesInTheSecond :
    writePair.fault = none ∧ writePair.phase = .phase1 ∧ writePair.wrc = 0 ∧ writePair.mem.wf = true ∧
      (writePair.microWord.map decodeMicro).map MicroFields.wr = some true ∧
      (writePair.microWord.map decodeMicro).map MicroFields.mbr = some true ∧
      ∃ t, microstep writePair = .next t ∧ t.fault = none ∧
        (t.microWord.map decodeMicro).map MicroFields.wr = some true ∧ t.rdc = 0 ∧
        ∃ u, microstep t = .next u ∧ u.fault = none :=
  ⟨by decide, by decide, by decide, by decide, by decide, by decide, _, rfl, by decide, by decide, by decide, _, rfl,
    by decide⟩

/-- Every clause: RDC = 1 and WRC = 1 without RD and WR, and RDC = 1 with RD. -/
theorem witness_LoneRequestsStayPending :
    let s := { micro 0x60000000#32 with rdc := 1, wrc := 1 }
    let s' := { micro 0x60400000#32 with rdc := 1 }
    (s.fault = none ∧ s.phase = .phase1 ∧ s.microWord.map decodeMicro = some (decodeMicro 0x60000000#32) ∧
      (nextOf (microstep s)).map State.fault = some none ∧ s.rdc = 1 ∧ s.wrc = 1 ∧
      (decodeMicro 0x60000000#32).rd = false ∧ (decodeMicro 0x60000000#32).wr = false) ∧
    (s'.microWord.map decodeMicro = some (decodeMicro 0x60400000#32) ∧ s'.rdc = 1 ∧
      (nextOf (microstep s')).map State.fault = some none ∧ (decodeMicro 0x60400000#32).rd = true ∧
      (decodeMicro 0x60400000#32).mbr = false) := by decide

theorem witness_SimultaneousCompletionReadsFirst :
    let s := { staged MicroFields.blank .phase3 with rdc := 2, wrc := 2, mem := [(0, 0x5555#16)] }
    s.fault = none ∧ s.phase = .phase3 ∧ s.mir = some MicroFields.blank ∧ MicroFields.blank.sh ≠ .reserved ∧
      s.mem.wf = true ∧ 2 ≤ s.rdc ∧ 2 ≤ s.wrc ∧ (nextOf (subcycle s)).isSome = true ∧
      MicroFields.blank.mbr = false := by decide

theorem midFetch_coherent : midFetch.Coherent where
  memory := by decide
  mpc := by unfold State.mpcInRange; decide
  staging := ⟨by decide, fun f h => by cases h; decide⟩
  counters := ⟨by decide, by decide⟩
  store := by decide

theorem midFetch_underDecidedStore : midFetch.UnderDecidedStore where
  store := by decide
  constants := by decide
  staged := fun f h => by cases h; decide

theorem midFetch_accessesPaired : midFetch.accessesPaired := by
  simp only [State.accessesPaired, midFetch]
  refine ⟨fun _ => by decide, fun h => absurd (by decide) h, fun h => absurd ⟨_, rfl, by decide⟩ h,
    fun h => absurd h (by decide), fun _ h => ?_, fun _ => by decide⟩
  obtain ⟨f, hf, hw⟩ := h
  cases hf
  exact absurd hw (by decide)

/-- The invariants hold together in the middle of a microinstruction, and a step from there answers next. -/
theorem witness_StepKeepsTheInvariants :
    midFetch.Coherent ∧ midFetch.UnderDecidedStore ∧ midFetch.accessesPaired ∧ midFetch.fault = none ∧
      ∃ t, step { midFetch with request := .subcycle } = .next t :=
  ⟨midFetch_coherent, midFetch_underDecidedStore, midFetch_accessesPaired, by decide, _, rfl⟩

theorem witness_StepKeepsAccessesPaired_boundary :
    State.reset.accessesPaired ∧ State.reset.atBoundary = true := by
  refine ⟨?_, by decide⟩
  simp only [State.accessesPaired, State.reset, State.resetWith]
  decide

theorem witness_ControlStoreIsNeverWritten :
    (nextOf (step State.reset)).isSome = true ∧ (hostLoad [1, 2] State.reset).isSome = true := by decide

theorem witness_CyclesCountSubcyclesAndAreNeverRead :
    State.reset.fault = none ∧ (nextOf (subcycle State.reset)).map State.fault = some none ∧
      (nextOf (step State.reset)).isSome = true := by decide

theorem witness_CanonicalMemoriesAreTheirReads :
    let m : Mem := [(3, 0x0007#16), (4095, 0xFFFF#16)]
    m.wf = true ∧ ∀ p : Addr, m.read p = m.read p :=
  ⟨by decide, fun _ => rfl⟩

/-- MacroMeaningIsItsMicroprogram (from 13 microinstructions on), MicroprogramFollowsTheListedPaths. -/
theorem witness_macroReady : State.reset.macroReady = true := by decide

theorem witness_MacroResultsIgnoreHiddenState :
    let s' := { State.reset.setReg .b 0x1234#16 with mbr := 0x5555#16, flagN := true, cycles := 9 }
    State.reset.macroReady = true ∧ s'.macroReady = true ∧ State.reset.mem = s'.mem ∧
      ∀ r : Reg, r ∉ [Reg.b, .c, .d, .e, .f] → State.reset.reg r = s'.reg r := by
  refine ⟨by decide, by decide, rfl, fun r hr => ?_⟩
  cases r <;> first | rfl | exact absurd (by decide) hr

theorem witness_MacroInstructionsWriteOnlyTheirRegisters :
    (Instr.lodd 0#12).isMacroLevel = true ∧ Instr.lodd 0#12 ∉ [Instr.retn] ∧
      ∀ x, Instr.lodd 0#12 ∉ [Instr.jpos x, .jzer x, .jump x, .halt x, .jneg x, .jnze x, .call x] := by
  refine ⟨by decide, by decide, fun x => ?_⟩
  simp

/-- StoreInstructionsWriteOneWord, CallAndReturnUseTheStack, PushAndPopMoveTheAccumulator,
IndirectStackInstructionsCopyOneWord: a canonical memory, the accumulator naming the stack's cells. -/
theorem witness_canonical_memory_and_aliased_cells :
    let s := boot 0xF000#16 0#16 0x0EFF#16 0x0F00#16 [(0xEFF#12, 0x1111#16)]
    let s' := boot 0xF200#16 0#16 0x0F00#16 0x0F00#16 [(0xF00#12, 0x1111#16)]
    s.mem.wf = true ∧ low12 (s.reg .ac) = low12 (s.reg .sp - 1#16) ∧ s'.mem.wf = true ∧
      low12 (s'.reg .ac) = low12 (s'.reg .sp) := by decide

/-- AC at 0x7FFF, 0x0000, 0x8000 and 0xFFFF meets each clause. -/
theorem witness_ConditionalJumpsTestTheAccumulator :
    (0 ≤ sgn16 0x7FFF#16 ∧ 0 ≤ sgn16 0x0000#16) ∧ (sgn16 0x8000#16 < 0 ∧ sgn16 0xFFFF#16 < 0) ∧
      (0x8000#16 : Word) ≠ 0x0000#16 ∧ (0x0001#16 : Word) ≠ 0x0000#16 ∧
      (State.reset.setReg .ac 0x8000#16).reg .ac = 0x8000#16 ∧
      (State.reset.setReg .ac 0x0000#16).reg .ac = 0x0000#16 := by decide

theorem witness_JumpAndHaltSetThePc :
    (State.reset.setReg .pc 0x0FFF#16).reg .pc = zext12 0xFFF#12 := by decide

theorem witness_StoreIsSeenByTheNextFetch :
    let s := State.reset.setReg .pc 0x0FFF#16
    s.mem.wf = true ∧ 0#12 = low12 (s.reg .pc + 1#16) := by decide

/-- Each clause: between boundaries, a fault, a HALT line, PC at N_prog, PC = 0x1000 with the longest program, and
a run that goes on at the last word of a program. -/
theorem witness_RunChecksItsConditionsInOrder :
    (midFetch.atBoundary = false ∧ midFetch.fault = none ∧ (nextOf (runMacro midFetch)).isSome = true) ∧
    (faulted.atBoundary = true ∧ faulted.fault = some (.reservedShift 7)) ∧
      (State.reset.atBoundary = true ∧ State.reset.fault = none ∧ (State.reset.reg .pc).toNat ∈ [0]) ∧
      ((State.reset.reg .pc).toNat ∉ ([] : List Nat) ∧ 0 ≤ (State.reset.reg .pc).toNat) ∧
      ((State.reset.setReg .pc 0x1000#16).atBoundary = true ∧
        0x1000 ≤ ((State.reset.setReg .pc 0x1000#16).reg .pc).toNat) ∧
      ((State.reset.reg .pc).toNat < 1 ∧ (nextOf (runMacro State.reset)).isSome = true) := by decide +kernel

theorem witness_AssembledWordsAreCanonical :
    ∃ o, assemble [['H', 'A', 'L', 'T']] = .ok o ∧ 0x6000#16 ∈ o.words ∧ 0 ∈ o.haltAddrs :=
  ⟨_, rfl, by decide, by decide⟩

/-- Both formats, with an operand on either side of each bound. -/
theorem witness_AssemblerChecksOperandRanges :
    (∀ v ∈ [(-1 : Int), 0, 255, 256, 4095, 4096], ∃ operand, parseDecimal operand = some v) ∧
      (∃ make, mnemonicForm ['l', 'o', 'd', 'd'] = some (.formA make)) ∧
      (∃ make, mnemonicForm ['I', 'n', 's', 'p'] = some (.formS make)) := by
  refine ⟨fun v hv => ?_, ⟨_, rfl⟩, ⟨_, rfl⟩⟩
  simp only [List.mem_cons, List.not_mem_nil, or_false] at hv
  rcases hv with rfl | rfl | rfl | rfl | rfl | rfl
  · exact ⟨['-', '1'], by decide⟩
  · exact ⟨['0'], by decide⟩
  · exact ⟨['2', '5', '5'], by decide⟩
  · exact ⟨['2', '5', '6'], by decide⟩
  · exact ⟨['4', '0', '9', '5'], by decide⟩
  · exact ⟨['4', '0', '9', '6'], by decide⟩

end Sys2Proof.Tests
end

/-! Proofs of the family 10_state: the phase, CYCLES, the control store and register writes. -/

namespace Sys2Proof.Machine

/-! ### What a phase leaves alone

The work of a phase never touches PHASE, CYCLES, the control store or the host's data: the end of the subcycle
advances the first two, and nothing advances the others (R28, R34, R36). -/

/-- PHASE, CYCLES, the control store and the host's data are the same in both states. -/
structure PhaseFrame (s t : State) : Prop where
  phase : t.phase = s.phase
  cycles : t.cycles = s.cycles
  cs : t.cs = s.cs
  nProg : t.nProg = s.nProg
  request : t.request = s.request

theorem PhaseFrame.refl (s : State) : PhaseFrame s s := ⟨rfl, rfl, rfl, rfl, rfl⟩

theorem PhaseFrame.trans {s t u : State} (h : PhaseFrame s t) (k : PhaseFrame t u) : PhaseFrame s u :=
  ⟨k.phase.trans h.phase, k.cycles.trans h.cycles, k.cs.trans h.cs, k.nProg.trans h.nProg,
    k.request.trans h.request⟩

theorem PhaseFrame.goMicro (s : State) (next : Nat) : PhaseFrame s (s.goMicro next) := by constructor <;> simp

theorem PhaseFrame.present (s : State) (f : MicroFields) : PhaseFrame s (s.present f) := by constructor <;> simp

/-- Steps 1a, 1b and 2 of phase 3 (R174). -/
theorem PhaseFrame.complete_latchA (s : State) (src : Reg) :
    PhaseFrame s (s.completeRead.completeWrite.latchA src) := by constructor <;> simp

/-- Every micro row completes within the frame. -/
theorem exec_micro_frame {i : Instr} (h : i.isMacroLevel = false) (s : State) :
    ∃ t, exec i s = .next t ∧ PhaseFrame s t := by
  cases i
  case condUnconditional | condIfN | condIfZ | condAlways => exact ⟨_, rfl, .goMicro _ _⟩
  case aluAdd | aluAnd | aluPassA | aluNotA | shIdentity | shRight1 | shLeft1 | shReserved | amuxAlat | amuxMbr |
      marLatch | mbrLatch | rdBeginRead | wrBeginWrite | encWriteback =>
    exact ⟨_, rfl, rfl, rfl, rfl, rfl, rfl⟩
  all_goals cases h

theorem runRows_frame {rows : List Instr} (h : ∀ i ∈ rows, i.isMacroLevel = false) (s : State) :
    ∃ t, runRows rows s = .next t ∧ PhaseFrame s t := by
  induction rows generalizing s with
  | nil => exact ⟨s, rfl, .refl s⟩
  | cons i rows ih =>
    obtain ⟨hi, hrows⟩ := List.forall_mem_cons.1 h
    obtain ⟨t, ht, hst⟩ := exec_micro_frame hi s
    obtain ⟨u, hu, htu⟩ := ih hrows t
    exact ⟨u, by rw [runRows_cons, ht, andThen_next, hu], hst.trans htu⟩

theorem phase1_frame (s : State) : ∃ t, phase1 s = .next t ∧ PhaseFrame s t := by
  unfold phase1
  split
  · exact ⟨_, rfl, rfl, rfl, rfl, rfl, rfl⟩
  · split
    · exact exec_micro_frame rfl s
    · exact ⟨_, rfl, rfl, rfl, rfl, rfl, rfl⟩

theorem phase3_frame (f : MicroFields) (s : State) : ∃ t, phase3 f s = .next t ∧ PhaseFrame s t := by
  obtain ⟨t, ht, hst⟩ := runRows_frame (List.forall_mem_singleton.2 (amuxInstr_micro f))
    (s.completeRead.completeWrite.latchA f.a)
  obtain ⟨u, hu, htu⟩ := runRows_frame (commitRows_micro f) (t.latchB f.b)
  have hlatchB : PhaseFrame t (t.latchB f.b) := ⟨rfl, rfl, rfl, rfl, rfl⟩
  exact ⟨u.present f, by rw [phase3, ht, andThen_next, hu, andThen_next],
    (PhaseFrame.complete_latchA s f.a).trans (hst.trans (hlatchB.trans (htu.trans (.present u f))))⟩

theorem phase4_frame (f : MicroFields) (s : State) : ∃ t, phase4 f s = .next t ∧ PhaseFrame s t := by
  obtain ⟨t, ht, hst⟩ := runRows_frame (List.forall_mem_singleton.2 (condInstr_micro f)) s
  exact ⟨{ t with mir := none }, by rw [phase4, ht, andThen_next], hst.trans ⟨rfl, rfl, rfl, rfl, rfl⟩⟩

/-! ### The phase that a subcycle performs -/

theorem runPhase_of_phase1 {s : State} (hp : s.phase = .phase1) : runPhase s = phase1 s := by
  unfold runPhase; rw [hp]

theorem runPhase_of_phase2 {s : State} {f : MicroFields} (hp : s.phase = .phase2) (hm : s.mir = some f) :
    runPhase s = phase2 f s := by
  unfold runPhase; rw [hp, hm]

theorem runPhase_of_phase3 {s : State} {f : MicroFields} (hp : s.phase = .phase3) (hm : s.mir = some f) :
    runPhase s = phase3 f s := by
  unfold runPhase; rw [hp, hm]

theorem runPhase_of_phase4 {s : State} {f : MicroFields} (hp : s.phase = .phase4) (hm : s.mir = some f) :
    runPhase s = phase4 f s := by
  unfold runPhase; rw [hp, hm]

/-- With nothing staged, phases 2 to 4 do nothing (log entry 8). -/
theorem runPhase_of_unstaged {s : State} (hp : s.phase ≠ .phase1) (hm : s.mir = none) : runPhase s = .next s := by
  unfold runPhase
  rw [hm]
  cases h : s.phase with
  | phase1 => exact absurd h hp
  | phase2 | phase3 | phase4 => rfl

/-- Every phase completes, a fault being a value of FAULT, and leaves the frame alone. -/
theorem runPhase_frame (s : State) : ∃ t, runPhase s = .next t ∧ PhaseFrame s t := by
  by_cases h1 : s.phase = .phase1
  · rw [runPhase_of_phase1 h1]
    exact phase1_frame s
  · cases hm : s.mir with
    | none => exact ⟨s, runPhase_of_unstaged h1 hm, .refl s⟩
    | some f =>
      cases hp : s.phase with
      | phase1 => exact absurd hp h1
      | phase2 => rw [runPhase_of_phase2 hp hm]; exact runRows_frame (requestRows_micro f) s
      | phase3 => rw [runPhase_of_phase3 hp hm]; exact phase3_frame f s
      | phase4 => rw [runPhase_of_phase4 hp hm]; exact phase4_frame f s

theorem subcycle_of_healthy {s : State} (hf : s.fault = none) :
    subcycle s = andThen (runPhase s) fun t => .next (s.endSubcycle t) := by
  unfold subcycle; rw [hf]

/-- A subcycle that does not fault advances PHASE and counts itself (R28, R34). -/
theorem subcycle_advances_phase_cycles {s t : State} (hf : s.fault = none) (h : subcycle s = .next t)
    (ht : t.fault = none) : t.phase = s.phase.succ ∧ t.cycles = s.cycles + 1 := by
  obtain ⟨u, hu, frame⟩ := runPhase_frame s
  rw [subcycle_of_healthy hf, hu, andThen_next] at h
  obtain rfl := Host.Outcome.next.inj h
  rcases s.endSubcycle_cases u with ⟨r, -, e⟩ | ⟨-, e⟩
  · rw [e] at ht; cases ht
  · rw [e]
    exact ⟨congrArg Phase.succ frame.phase, congrArg (· + 1) frame.cycles⟩

/-- Settles O27: each phase is the branch of `runPhase` that PHASE selects, and the end of a subcycle takes PHASE,
which no phase writes, to its successor. -/
theorem subcycleAdvancesThePhase : Obligations.SubcycleAdvancesThePhase := by
  refine ⟨fun _ => rfl, fun s f hf hstaged => ?_, fun s t hf h ht => ?_⟩
  · rw [subcycle_of_healthy hf]
    congr 1
    cases hp : s.phase with
    | phase1 => exact runPhase_of_phase1 hp
    | phase2 => exact runPhase_of_phase2 hp (hstaged.resolve_left (by simp [hp]))
    | phase3 => exact runPhase_of_phase3 hp (hstaged.resolve_left (by simp [hp]))
    | phase4 => exact runPhase_of_phase4 hp (hstaged.resolve_left (by simp [hp]))
  · obtain ⟨hphase, -⟩ := subcycle_advances_phase_cycles hf h ht
    rw [hphase]
    cases s.phase <;> decide

/-! ### Invariants of a step

A predicate that subcycles and the meanings of fetched instructions keep is kept by every operation a step can be. -/

theorem subcycles_keep {P : State → Prop} (hsub : ∀ {s t : State}, P s → subcycle s = .next t → P t) {n : Nat}
    {s t : State} (hs : P s) (h : subcycles n s = .next t) : P t := by
  induction n generalizing s with
  | zero => exact Host.Outcome.next.inj h ▸ hs
  | succ n ih =>
    obtain ⟨u, hu, hut⟩ := andThen_eq_next.1 h
    exact ih (hsub hs hu) hut

theorem runMicroprogram_keeps {P : State → Prop} (hsub : ∀ {s t : State}, P s → subcycle s = .next t → P t)
    {n : Nat} {s t : State} (hs : P s) (h : runMicroprogram n s = .next t) : P t := by
  induction n generalizing s with
  | zero => exact Host.Outcome.next.inj h ▸ hs
  | succ n ih =>
    obtain ⟨u, hu, hut⟩ := andThen_eq_next.1 h
    have hPu : P u := subcycles_keep hsub hs hu
    split at hut
    · exact Host.Outcome.next.inj hut ▸ hPu
    · exact ih hPu hut

theorem step_keeps {P : State → Prop} (hsub : ∀ {s t : State}, P s → subcycle s = .next t → P t)
    (hexec : ∀ {s t : State}, P s → s.macroReady = true → exec s.nextInstr s = .next t → P t) {s t : State}
    (hs : P s) (h : step s = .next t) : P t := by
  obtain ⟨-, ⟨-, h⟩ | ⟨-, h⟩ | ⟨-, h⟩⟩ := step_cases h
  · exact hsub hs h
  · exact subcycles_keep hsub hs h
  · rcases runMacro_cases h with ⟨hready, h⟩ | ⟨-, h⟩
    · exact hexec hs hready h
    · exact runMicroprogram_keeps hsub hs h

/-! ### The control store is never written (R36) -/

theorem subcycle_cs {s t : State} (h : subcycle s = .next t) : t.cs = s.cs := by
  rcases subcycle_cases h with ⟨-, rfl⟩ | ⟨-, u, hu, rfl⟩
  · rfl
  · obtain ⟨u', hu', frame⟩ := runPhase_frame s
    obtain rfl := Host.Outcome.next.inj (hu.symm.trans hu')
    rcases s.endSubcycle_cases u with ⟨r, -, e⟩ | ⟨-, e⟩ <;> rw [e]
    · rfl
    · exact frame.cs

/-- Every 16-bit word decodes to an instruction of its own level (R90, R95). -/
theorem decodeMacro_isMacroLevel (w : Word) : (decodeMacro w).isMacroLevel = true := by
  unfold decodeMacro
  dsimp only
  split
  case h_16 => split <;> rfl
  all_goals rfl

/-- Every instruction of a 16-bit word completes and keeps the sequencer, FAULT, the control store and the host's data
(R299). -/
theorem exec_macro_sequencerKept {i : Instr} (h : i.isMacroLevel = true) (s : State) :
    ∃ t, exec i s = .next t ∧ SequencerKept s t := by
  cases i
  case jpos | jzer | jneg | jnze =>
    simp only [exec, execJpos, execJzer, execJneg, execJnze]
    split <;> exact ⟨_, rfl, rfl, rfl, rfl, rfl, rfl, rfl, rfl, rfl, rfl⟩
  case lodd | stod | addd | subd | jump | loco | lodl | stol | addl | subl | call | halt | pshi | popi | push | pop |
      retn | swap | insp | desp =>
    exact ⟨_, rfl, rfl, rfl, rfl, rfl, rfl, rfl, rfl, rfl, rfl⟩
  all_goals cases h

theorem exec_nextInstr_cs {s t : State} (h : exec s.nextInstr s = .next t) : t.cs = s.cs := by
  obtain ⟨u, hu, -, -, -, -, -, -, hcs, -⟩ := exec_macro_sequencerKept (decodeMacro_isMacroLevel s.fetchWord) s
  obtain rfl := Host.Outcome.next.inj (h.symm.trans hu)
  exact hcs

theorem step_cs {s t : State} (h : step s = .next t) : t.cs = s.cs :=
  step_keeps (P := fun u => u.cs = s.cs) (fun hu h => (subcycle_cs h).trans hu)
    (fun hu _ h => (exec_nextInstr_cs h).trans hu) rfl h

theorem hostLoad_cs {words : List Int} {s t : State} (h : hostLoad words s = some t) : t.cs = s.cs := by
  unfold hostLoad at h
  split at h
  · obtain rfl := Option.some.inj h; rfl
  · cases h

/-- Settles O38: phases and the meanings of fetched instructions keep the control store, so every step does. -/
theorem controlStoreIsNeverWritten : Obligations.ControlStoreIsNeverWritten :=
  ⟨fun _ => rfl, rfl, fun _ _ => step_cs, fun _ _ => rfl, fun _ _ _ => hostLoad_cs⟩

/-! ### No step reads CYCLES (R34) -/

/-- What reads of a state are the same whatever is added to CYCLES. -/
@[simp] theorem State.bump_reads (s : State) (c : Nat) :
    (s.bump c).mbr = s.mbr ∧ (s.bump c).stackAddr = s.stackAddr ∧ (∀ x, (s.bump c).localAddr x = s.localAddr x) ∧
      (∀ p, (s.bump c).word p = s.word p) ∧ ∀ r, (s.bump c).reg r = s.reg r :=
  ⟨rfl, rfl, fun _ => rfl, fun _ => rfl, fun _ => rfl⟩

@[simp] theorem State.setReg_bump (s : State) (i : Reg) (v : Word) (c : Nat) :
    (s.bump c).setReg i v = (s.setReg i v).bump c := rfl

@[simp] theorem State.fetchDecode_bump (s : State) (k c : Nat) :
    (s.bump c).fetchDecode k = (s.fetchDecode k).bump c := rfl

@[simp] theorem State.dataRead_bump (s : State) (p : Addr) (c : Nat) :
    (s.bump c).dataRead p = (s.dataRead p).bump c := rfl

@[simp] theorem State.dataWrite_bump (s : State) (p : Addr) (v : Word) (c : Nat) :
    (s.bump c).dataWrite p v = (s.dataWrite p v).bump c := rfl

/-- The closed meanings count their time here and nowhere else (R299). -/
@[simp] theorem State.retire_bump (s : State) (la lb mux f : Word) (n c : Nat) :
    (s.bump c).retire la lb mux f n = (s.retire la lb mux f n).bump c := by
  simp only [State.retire, State.bump, State.setFlags, Nat.add_right_comm]

@[simp] theorem State.localSum_bump (s : State) (c : Nat) : (s.bump c).localSum = s.localSum.bump c := rfl

@[simp] theorem State.retireOnPc_bump (s : State) (n c : Nat) :
    (s.bump c).retireOnPc n = (s.retireOnPc n).bump c := by simp [State.retireOnPc]

@[simp] theorem State.retireOnMbr_bump (s : State) (n c : Nat) :
    (s.bump c).retireOnMbr n = (s.retireOnMbr n).bump c := by simp [State.retireOnMbr]

@[simp] theorem State.retireOnOperand_bump (s : State) (x : BitVec 12) (n c : Nat) :
    (s.bump c).retireOnOperand x n = (s.retireOnOperand x n).bump c := by simp [State.retireOnOperand]

@[simp] theorem State.jumpTo_bump (s : State) (x : BitVec 12) (n c : Nat) :
    (s.bump c).jumpTo x n = (s.jumpTo x n).bump c := by simp [State.jumpTo]

@[simp] theorem State.subTail_bump (s : State) (n c : Nat) :
    (s.bump c).subTail n = (s.subTail n).bump c := by simp [State.subTail]

@[simp] theorem State.addTail_bump (s : State) (n c : Nat) :
    (s.bump c).addTail n = (s.addTail n).bump c := by simp [State.addTail]

@[simp] theorem State.adjustSp_bump (s : State) (n c : Nat) :
    (s.bump c).adjustSp n = (s.adjustSp n).bump c := by simp [State.adjustSp]

@[simp] theorem bumpOutcome_next (s : State) (c : Nat) : bumpOutcome (.next s) c = .next (s.bump c) := rfl

/-- A choice that ignores CYCLES, between outcomes that ignore it. -/
theorem ite_bump {p : Prop} [Decidable p] {o o' q q' : Host.Outcome State Fault Refusal} {c : Nat}
    (ho : o' = bumpOutcome o c) (hq : q' = bumpOutcome q c) :
    (if p then o' else q') = bumpOutcome (if p then o else q) c := by
  split
  · exact ho
  · exact hq

/-- An instruction of a 16-bit word adds its time to CYCLES and does not read it. -/
theorem exec_macro_bump {i : Instr} (h : i.isMacroLevel = true) (s : State) (c : Nat) :
    exec i (s.bump c) = bumpOutcome (exec i s) c := by
  cases i
  case jpos | jzer | jneg | jnze => refine ite_bump ?_ ?_ <;> simp
  case lodd | stod | addd | subd | loco | lodl | stol | addl | subl =>
    simp [exec, execLodd, execStod, execAddd, execSubd, execLoco, execLodl, execStol, execAddl, execSubl]
  case jump | call | halt | retn => simp [exec, execJump, execCall, execHalt, execRetn]
  case pshi | popi | push | pop | swap | insp | desp =>
    simp [exec, execPshi, execPopi, execPush, execPop, execSwap, execInsp, execDesp]
  all_goals cases h

theorem runMicroprogram_bump (n : Nat) (s : State) (c : Nat) :
    runMicroprogram n (s.bump c) = bumpOutcome (runMicroprogram n s) c := by
  induction n generalizing s with
  | zero => rfl
  | succ n ih => exact andThen_bump (microstep_bump s c) fun t => ite_bump rfl (ih t)

theorem runMacro_bump (s : State) (c : Nat) : runMacro (s.bump c) = bumpOutcome (runMacro s) c :=
  ite_bump (exec_macro_bump (decodeMacro_isMacroLevel s.fetchWord) s c) (runMicroprogram_bump runBound s c)

theorem advance_bump (s : State) (c : Nat) : advance (s.bump c) = bumpOutcome (advance s) c := by
  unfold advance
  rw [show (s.bump c).request = s.request from rfl]
  cases s.request with
  | subcycle => exact subcycle_bump s c
  | microstep => exact microstep_bump s c
  | runMacro => exact runMacro_bump s c

/-- A step does not read CYCLES. -/
theorem step_bump (s : State) (c : Nat) : step (s.bump c) = bumpOutcome (step s) c := by
  unfold step
  rw [show (s.bump c).fault = s.fault from rfl]
  cases s.fault with
  | some r => rfl
  | none => exact advance_bump s c

/-- Settles O39: the end of a subcycle counts it, and every operation commutes with adding to CYCLES. -/
theorem cyclesCountSubcyclesAndAreNeverRead : Obligations.CyclesCountSubcyclesAndAreNeverRead := by
  refine ⟨fun _ => rfl, fun s t hf h ht => ?_, fun s t c h => ?_⟩
  · obtain ⟨-, hcycles⟩ := subcycle_advances_phase_cycles hf h ht
    exact hcycles
  · have hbump := step_bump s c
    rw [h] at hbump
    exact hbump

/-! ### Register writes (R21) -/

theorem toNat_to16 (v : Int) : ((to16 v).toNat : Int) = v % 65536 := by
  rw [to16, BitVec.toNat_ofInt]
  exact Int.toNat_of_nonneg (Int.emod_nonneg v (by decide))

theorem sgn16_to16 (v : Int) : sgn16 (to16 v) = Int.bmod v 65536 := by
  rw [sgn16, to16, BitVec.toInt_ofInt]

theorem State.reg_setRegInt_same (s : State) (i : Reg) (v : Int) : (s.setRegInt i v).reg i = to16 v := by
  rw [State.setRegInt, State.reg_setReg, if_pos rfl]

theorem regsKept_setRegInt (s : State) (i : Reg) (v : Int) : RegsKept [i] s (s.setRegInt i v) := by
  intro r hr
  rw [State.setRegInt, State.reg_setReg, if_neg fun e => hr (List.mem_singleton.2 e.symm)]

/-- Settles O60: a write is `to16` of the value in the one cell named. -/
theorem registerWritesTruncate : Obligations.RegisterWritesTruncate := by
  intro s i v
  have hread := s.reg_setRegInt_same i v
  exact ⟨hread, toNat_to16 v, hread ▸ sgn16_to16 v, regsKept_setRegInt s i v, rfl⟩

end Sys2Proof.Machine

/-! Proofs of the family 20_memory: the requests of phase 2, the range of the counters, and a read and a write that
complete together. -/

namespace Sys2Proof.Machine

/-! ### Phase 2 in closed form (R63, R173) -/

/-- Phase 2 raises the counter of each request that is staged. -/
theorem phase2_eq_requestEffect (f : MicroFields) (s : State) : phase2 f s = .next (requestEffect f s) := by
  unfold phase2 requestRows requestEffect
  cases f.rd <;> cases f.wr <;> rfl

/-- R63's increment, as the choice it is. -/
theorem add_toNat_eq_ite (n : Nat) (b : Bool) : n + b.toNat = if b then n + 1 else n := by
  cases b <;> rfl

/-! ### Phase 3 in closed form (R174, R182)

Each of the ten steps is one update of the state; their composition is `commitEffect`. -/

theorem State.completeRead_eq (s : State) :
    s.completeRead = { s with
      mbr := if 2 ≤ s.rdc then s.word s.maddr else s.mbr, rdc := if 2 ≤ s.rdc then 0 else s.rdc } := by
  rcases s.completeRead_cases with ⟨h, e⟩ | ⟨h, e⟩
  · rw [e, if_pos h, if_pos h]
  · rw [e, if_neg (by omega), if_neg (by omega)]

theorem State.completeWrite_eq (s : State) :
    s.completeWrite = { s with
      mem := if 2 ≤ s.wrc then s.mem.write s.maddr s.mbr else s.mem, wrc := if 2 ≤ s.wrc then 0 else s.wrc } := by
  rcases s.completeWrite_cases with ⟨h, e⟩ | ⟨h, e⟩
  · rw [e, if_pos h, if_pos h]
  · rw [e, if_neg (by omega), if_neg (by omega)]

theorem exec_amuxInstr (f : MicroFields) (s : State) :
    exec f.amuxInstr s = .next { s with ain := if f.amux = .mbr then s.mbr else s.alat } := by
  unfold MicroFields.amuxInstr
  cases f.amux <;> rfl

/-- The machine's flag N is the sign of the result (R138). -/
theorem negativeFlag_eq (r : Word) : negativeFlag r = decide (r.toInt < 0) :=
  (BitVec.msb_eq_getLsbD_last r).symm.trans BitVec.msb_eq_toInt

theorem to16_toInt_add (x y : Word) : to16 (x.toInt + y.toInt) = x + y := by
  rw [to16, BitVec.ofInt_add, BitVec.ofInt_toInt, BitVec.ofInt_toInt]

theorem exec_aluInstr (f : MicroFields) (s : State) :
    exec f.aluInstr s = .next (s.aluResult (aluOf f.alu s.ain s.blat)) := by
  unfold MicroFields.aluInstr aluOf
  cases f.alu with
  | add => rw [to16_toInt_add]; rfl
  | and | passA | notA => rfl

/-! The shifter's concatenations are the library's shifts, bit by bit (R140, R141). -/

theorem shiftRight1_arithmetic (v : Word) : shiftRight1 .arithmetic v = v.sshiftRight 1 := by
  ext i hi
  grind [shiftRight1]

theorem shiftRight1_logical (v : Word) : shiftRight1 .logical v = v >>> 1 := by
  ext i hi
  grind [shiftRight1]

theorem shiftLeft1_eq (v : Word) : shiftLeft1 v = v <<< 1 := by
  ext i hi
  grind [shiftLeft1]

theorem exec_shiftInstr {f : MicroFields} (h : f.sh ≠ .reserved) (s : State) :
    exec f.shiftInstr s = .next { s with shout := shiftOf f.sh s.aluout } := by
  unfold MicroFields.shiftInstr shiftOf
  cases hsh : f.sh with
  | identity => rfl
  | right1 =>
    simp only [exec, execShRight1]
    cases Config.rshiftMode with
    | arithmetic => rw [shiftRight1_arithmetic]
    | logical => rw [shiftRight1_logical]
  | left1 => simp only [exec, execShLeft1, shiftLeft1_eq]
  | reserved => exact absurd hsh h

theorem low12_eq_setWidth (v : Word) : low12 v = v.setWidth 12 := by
  ext i hi
  simp [low12]

theorem runRows_append (rows rows' : List Instr) (s : State) :
    runRows (rows ++ rows') s = andThen (runRows rows s) (runRows rows') := by
  induction rows generalizing s with
  | nil => rfl
  | cons i rows ih =>
    rw [List.cons_append, runRows_cons, runRows_cons]
    cases exec i s with
    | next t => exact ih t
    | fault r => rfl
    | refused r => rfl

theorem runRows_marLatch (b : Bool) (s : State) :
    runRows (if b then [.marLatch] else []) s = .next { s with mar := if b then s.blat.setWidth 12 else s.mar } := by
  rw [← low12_eq_setWidth]
  cases b <;> rfl

theorem runRows_mbrLatch (b : Bool) (s : State) :
    runRows (if b then [.mbrLatch] else []) s = .next { s with mbr := if b then s.shout else s.mbr } := by
  cases b <;> rfl

theorem runRows_encWriteback (b : Bool) (dst : Reg) (s : State) :
    runRows (if b then [.encWriteback dst] else []) s =
      .next { s with regs := if b then s.regs.set dst s.shout else s.regs } := by
  cases b <;> rfl

theorem State.present_eq (s : State) (f : MicroFields) :
    s.present f = { s with maddr := if f.rd ∨ f.wr then s.mar else s.maddr } := by
  simp only [State.present, Bool.or_eq_true]
  split <;> rfl

/-- Phase 3 is the ten steps of R174 as one update. -/
theorem phase3_eq_commitEffect {f : MicroFields} (h : f.sh ≠ .reserved) (s : State) :
    phase3 f s = .next (commitEffect f s) := by
  simp only [phase3, commitRows, runRows_append, runRows_cons, runRows_nil, andThen_next, exec_amuxInstr,
    exec_aluInstr, exec_shiftInstr h, runRows_marLatch, runRows_mbrLatch, runRows_encWriteback, State.present_eq,
    State.completeRead_eq, State.completeWrite_eq, State.aluResult, State.setFlags, negativeFlag_eq]
  rfl

/-! ### The subcycles of phases 2 and 3 -/

/-- A phase that does not fault is followed by the end of its subcycle (R170). -/
theorem subcycle_of_runPhase {s u : State} (hs : s.fault = none) (h : runPhase s = .next u) (hu : u.fault = none) :
    subcycle s = .next { u with phase := u.phase.succ, cycles := u.cycles + 1 } := by
  rw [subcycle_of_healthy hs, h, andThen_next, State.endSubcycle, hu]

theorem subcycle_phase2 {s : State} {f : MicroFields} (hs : s.fault = none) (hp : s.phase = .phase2)
    (hm : s.mir = some f) :
    subcycle s = .next { requestEffect f s with phase := .phase3, cycles := s.cycles + 1 } := by
  rw [subcycle_of_runPhase hs ((runPhase_of_phase2 hp hm).trans (phase2_eq_requestEffect f s)) hs]
  simp only [requestEffect, hp, Phase.succ]

theorem subcycle_phase3 {s : State} {f : MicroFields} (hs : s.fault = none) (hp : s.phase = .phase3)
    (hm : s.mir = some f) (hsh : f.sh ≠ .reserved) :
    subcycle s = .next { commitEffect f s with phase := .phase4, cycles := s.cycles + 1 } := by
  rw [subcycle_of_runPhase hs ((runPhase_of_phase3 hp hm).trans (phase3_eq_commitEffect hsh s)) hs]
  simp only [commitEffect, hp, Phase.succ]

/-- Settles O23: phase 2 is `requestEffect`, whose increments are the choices of R63. -/
theorem phaseTwoRaisesTheCounters : Obligations.PhaseTwoRaisesTheCounters := by
  intro s f hs hp hm
  rw [subcycle_phase2 hs hp hm]
  simp only [requestEffect, add_toNat_eq_ite]

/-! ### The range of the counters (R69) -/

theorem phase1_counters {s u : State} (h : phase1 s = .next u) : u.rdc = s.rdc ∧ u.wrc = s.wrc := by
  unfold phase1 at h
  split at h
  · obtain rfl := Host.Outcome.next.inj h; exact ⟨rfl, rfl⟩
  · split at h <;> obtain rfl := Host.Outcome.next.inj h <;> exact ⟨rfl, rfl⟩

theorem exec_condInstr_goMicro (f : MicroFields) (s : State) :
    ∃ next, exec f.condInstr s = .next (s.goMicro next) := by
  unfold MicroFields.condInstr
  split <;> exact ⟨_, rfl⟩

theorem phase4_counters {s u : State} {f : MicroFields} (h : phase4 f s = .next u) :
    u.rdc = s.rdc ∧ u.wrc = s.wrc := by
  obtain ⟨next, hnext⟩ := exec_condInstr_goMicro f s
  rw [phase4, runRows_cons, hnext, andThen_next, runRows_nil, andThen_next] at h
  obtain rfl := Host.Outcome.next.inj h
  simp

/-- A completed access clears its counter, so that phase 3 leaves both below the threshold (R67, R68). -/
theorem commitEffect_counters_le (f : MicroFields) (s : State) :
    (commitEffect f s).rdc ≤ 1 ∧ (commitEffect f s).wrc ≤ 1 := by
  simp only [commitEffect]
  constructor <;> split <;> omega

/-- The counters after the work of a phase: phase 2 alone raises them, and phase 3 brings them back. -/
theorem runPhase_counters_le {s u : State} (hstaging : s.stagingConsistent) (hrange : s.countersInRange)
    (h : runPhase s = .next u) :
    (s.phase = .phase2 → u.rdc ≤ 2 ∧ u.wrc ≤ 2) ∧ (s.phase ≠ .phase2 → u.rdc ≤ 1 ∧ u.wrc ≤ 1) := by
  obtain ⟨hmir, hsh⟩ := hstaging
  obtain ⟨-, hle⟩ := hrange
  have hstaged : s.phase ≠ .phase1 → ∃ f, s.mir = some f := fun hp =>
    Option.ne_none_iff_exists'.1 fun hm => hp (hmir.2 hm)
  cases hp : s.phase with
  | phase1 =>
    rw [runPhase_of_phase1 hp] at h
    obtain ⟨hrdc, hwrc⟩ := phase1_counters h
    have hone := hle (by simp [hp])
    simp [hrdc, hwrc, hone]
  | phase2 =>
    obtain ⟨f, hm⟩ := hstaged (by simp [hp])
    rw [runPhase_of_phase2 hp hm, phase2_eq_requestEffect] at h
    obtain rfl := Host.Outcome.next.inj h
    obtain ⟨hrdc, hwrc⟩ := hle (by simp [hp])
    have hrd := Bool.toNat_le f.rd
    have hwr := Bool.toNat_le f.wr
    simp only [requestEffect]
    exact ⟨fun _ => ⟨by omega, by omega⟩, fun hne => absurd rfl hne⟩
  | phase3 =>
    obtain ⟨f, hm⟩ := hstaged (by simp [hp])
    rw [runPhase_of_phase3 hp hm, phase3_eq_commitEffect (hsh f hm)] at h
    obtain rfl := Host.Outcome.next.inj h
    simp [commitEffect_counters_le]
  | phase4 =>
    obtain ⟨f, hm⟩ := hstaged (by simp [hp])
    rw [runPhase_of_phase4 hp hm] at h
    obtain ⟨hrdc, hwrc⟩ := phase4_counters h
    have hone := hle (by simp [hp])
    simp [hrdc, hwrc, hone]

/-- The subcycle that follows phase 2 is the one of phase 3, where the counters may be 2. -/
theorem subcycle_keeps_countersInRange {s t : State} (hstaging : s.stagingConsistent) (hrange : s.countersInRange)
    (h : subcycle s = .next t) : t.countersInRange := by
  rcases subcycle_cases h with ⟨-, rfl⟩ | ⟨-, u, hu, rfl⟩
  · exact hrange
  obtain ⟨u', hu', frame⟩ := runPhase_frame s
  obtain rfl := Host.Outcome.next.inj (hu.symm.trans hu')
  obtain ⟨hphase2, hother⟩ := runPhase_counters_le hstaging hrange hu
  rcases s.endSubcycle_cases u with ⟨r, -, e⟩ | ⟨-, e⟩ <;> rw [e]
  · exact hrange
  · have hsucc : u.phase.succ = .phase3 ↔ s.phase = .phase2 := by
      rw [frame.phase]; cases s.phase <;> decide
    exact ⟨fun hp => hphase2 (hsucc.1 hp), fun hp => hother fun h2 => hp (hsucc.2 h2)⟩

/-- Settles O29: the invariant is kept, and PHASE says which of its two bounds holds after each phase. -/
theorem countersStayInRange : Obligations.CountersStayInRange := by
  intro s t hstaging hrange h
  have hkept := subcycle_keeps_countersInRange hstaging hrange h
  refine ⟨hkept, fun ht hs => ?_⟩
  obtain ⟨hle2, hle1⟩ := hkept
  obtain ⟨hphase, -⟩ := subcycle_advances_phase_cycles hs h ht
  rw [hphase] at hle2 hle1
  constructor
  · rintro (hp | hp) <;> exact hle1 (by rw [hp]; decide)
  · exact fun hp => hle2 (by rw [hp]; rfl)

/-! ### A read and a write that complete together (R74) -/

/-- Writing back the word just read leaves every word of memory alone. -/
theorem Mem.read_write_read {m : Mem} (hm : m.wf = true) (a p : Addr) : (m.write a (m.read a)).read p = m.read p := by
  by_cases hp : p = a
  · rw [hp, Mem.read_write_same a _ hm]
  · exact Mem.read_write_ne _ hp

/-- No microinstruction of the decided store requests a read and a write (R74). -/
theorem decidedStore_rd_wr_exclusive :
    decidedStore.Forall fun w => ¬ ((decodeMicro w).rd = true ∧ (decodeMicro w).wr = true) := by decide

/-- Settles O33: step 1a puts the word at MADDR in MBR, and step 1b stores it back where it was read. -/
theorem simultaneousCompletionReadsFirst : Obligations.SimultaneousCompletionReadsFirst := by
  refine ⟨fun s t f hs hp hm hsh hwf hrdc hwrc h => ?_, List.forall_iff_forall_mem.1 decidedStore_rd_wr_exclusive⟩
  rw [subcycle_phase3 hs hp hm hsh] at h
  obtain rfl := Host.Outcome.next.inj h
  simp only [MemKept, State.word, commitEffect, if_pos hrdc, if_pos hwrc]
  exact ⟨Mem.read_write_read hwf s.maddr, trivial, trivial, fun hmbr => by rw [hmbr]; rfl⟩

end Sys2Proof.Machine

/-! Proofs of the family 30_encoding: the macro decode tree (R95). -/

namespace Sys2Proof

/-- The first level of the decode tree reads bits 15:12. -/
theorem toNat_opcodeField (w : Word) : (w.extractLsb' 12 4).toNat = w.toNat / 4096 := by
  rw [BitVec.extractLsb'_toNat, Nat.shiftRight_eq_div_pow]
  exact Nat.mod_eq_of_lt (Nat.div_lt_of_lt_mul w.isLt)

/-- The second level, under opcode 15, reads bits 11:9. -/
theorem toNat_subopcodeField (w : Word) : (w.extractLsb' 9 3).toNat = w.toNat / 512 % 8 := by
  rw [BitVec.extractLsb'_toNat, Nat.shiftRight_eq_div_pow]

/-- Settles O12: each level of the decode tree is a table, indexed by the field of the word that it reads. -/
theorem everyWordSelectsOneRoutine : Obligations.EveryWordSelectsOneRoutine := by
  intro w x y
  unfold decodeMacro
  rw [toNat_opcodeField, toNat_subopcodeField]
  refine ⟨fun hformatA => ?_, fun hopcode => ?_⟩
  · generalize w.toNat / 4096 = opcode at hformatA ⊢
    interval_cases opcode <;> rfl
  · have hsub : w.toNat / 512 % 8 < 8 := Nat.mod_lt _ (by decide)
    rw [hopcode]
    generalize w.toNat / 512 % 8 = subopcode at hsub ⊢
    interval_cases subopcode <;> rfl

end Sys2Proof

/-! Proofs of the family 40_datapath: the selectors of the ALU and the shifter, and what their rows compute. -/

namespace Sys2Proof

/-! ### The two operation selectors (R99, R100) -/

theorem AluOp.ofCode_code (op : AluOp) : AluOp.ofCode op.code = op := by
  cases op <;> rfl

theorem AluOp.code_ofCode : ∀ v : BitVec 2, (AluOp.ofCode v).code = v := by decide

/-- The code of an ALU operation is the one field value that selects it. -/
theorem AluOp.ofCode_eq_iff (v : BitVec 2) (op : AluOp) : AluOp.ofCode v = op ↔ v = op.code :=
  ⟨fun h => h ▸ (AluOp.code_ofCode v).symm, fun h => h ▸ AluOp.ofCode_code op⟩

theorem ShiftOp.ofCode_code (op : ShiftOp) : ShiftOp.ofCode op.code = op := by
  cases op <;> rfl

theorem ShiftOp.code_ofCode : ∀ v : BitVec 2, (ShiftOp.ofCode v).code = v := by decide

/-- The code of a shifter operation is the one field value that selects it. -/
theorem ShiftOp.ofCode_eq_iff (v : BitVec 2) (op : ShiftOp) : ShiftOp.ofCode v = op ↔ v = op.code :=
  ⟨fun h => h ▸ (ShiftOp.code_ofCode v).symm, fun h => h ▸ ShiftOp.ofCode_code op⟩

namespace Machine

/-! ### The shifter (R139 to R141) -/

/-- The left shift doubles the signed reading, mod 2^16 (R141). -/
theorem to16_two_mul_toInt (v : Word) : to16 (2 * v.toInt) = shiftLeft1 v := by
  rw [Int.two_mul, to16_toInt_add, shiftLeft1_eq, BitVec.shiftLeft_eq_mul_twoPow]
  bv_omega

/-- Settles O16: a field value selects the operation whose code it is, and the shifts are the library's. -/
theorem shifterRowsComputeTheirRules : Obligations.ShifterRowsComputeTheirRules := by
  refine ⟨fun w => ?_, fun s => ?_⟩
  · have hsel := ShiftOp.ofCode_eq_iff (w.extractLsb' 25 2)
    exact ⟨hsel .identity, hsel .right1, hsel .left1⟩
  · have hleft : exec .shLeft1 s = .next { s with shout := shiftLeft1 s.aluout } := rfl
    rw [hleft, to16_two_mul_toInt]
    exact ⟨rfl, rfl, shiftRight1_arithmetic s.aluout, shiftRight1_logical s.aluout, rfl⟩

/-! ### The ALU (R134 to R138) -/

/-- Capturing an ALU result writes ALUOUT and recomputes both flags from it (R138). -/
theorem State.aluResult_eq (s : State) (r : Word) :
    s.aluResult r = { s with aluout := r, flagN := decide (sgn16 r < 0), flagZ := decide (r = 0x0000#16) } := by
  rw [State.aluResult, State.setFlags, negativeFlag_eq]
  rfl

/-- Settles O15: a field value selects the operation whose code it is, and its row captures that operation's result. -/
theorem aluRowsComputeTheirRules : Obligations.AluRowsComputeTheirRules := by
  refine ⟨fun w => ?_, fun s => ?_⟩
  · have hsel := AluOp.ofCode_eq_iff (w.extractLsb' 27 2)
    exact ⟨hsel .add, hsel .and, hsel .passA, hsel .notA⟩
  · have hrow (op : AluOp) := exec_aluInstr { MicroFields.blank with alu := op } s
    simp only [State.aluResult_eq] at hrow
    exact ⟨hrow .add, hrow .and, hrow .passA, hrow .notA⟩

end Machine

end Sys2Proof

/-! Proofs of the family 41_microsequencer: the next address, phases 1 and 4, and the microinstruction that the four
phases make. -/

namespace Sys2Proof

/-! ### The other selectors (R97, R98, R102) -/

theorem AmuxSel.code_ofCode : ∀ v : BitVec 1, (AmuxSel.ofCode v).code = v := by decide

theorem Cond.code_ofCode : ∀ v : BitVec 2, (Cond.ofCode v).code = v := by decide

theorem Reg.code_ofCode : ∀ v : BitVec 4, (Reg.ofCode v).code = v := by decide

namespace Machine

/-! ### The next address (R175 to R180) -/

theorem State.goMicro_of_lt (s : State) {next : Nat} (h : next < 79) :
    s.goMicro next = { s with mpc := BitVec.ofNat 8 next } := if_pos h

theorem State.goMicro_of_le (s : State) {next : Nat} (h : 79 ≤ next) :
    s.goMicro next = s.raise (.nextAddressOutOfRange s.mpc.toNat next) := if_neg (Nat.not_lt.2 h)

/-- The row of a condition goes to the next address that the condition and the flags choose. -/
theorem exec_condInstr (f : MicroFields) (s : State) :
    exec f.condInstr s = .next (s.goMicro (nextAddr f s.flagN s.flagZ s.mpc.toNat)) := by
  unfold MicroFields.condInstr nextAddr
  cases f.cond <;> rfl

/-- What a row does that goes to a next address, on either side of the bound. -/
theorem exec_of_goMicro {i : Instr} {s : State} {next : Nat} (h : exec i s = .next (s.goMicro next)) :
    (next < 79 → exec i s = .next { s with mpc := BitVec.ofNat 8 next }) ∧
      (79 ≤ next → exec i s = .next { s with fault := some (.nextAddressOutOfRange s.mpc.toNat next) }) :=
  ⟨fun hlt => by rw [h, s.goMicro_of_lt hlt], fun hle => by rw [h, s.goMicro_of_le hle]; rfl⟩

/-- Settles O21: each condition row goes to the address of R176 to R179, whose test a flag decides. -/
theorem conditionRowsChooseTheNextAddress : Obligations.ConditionRowsChooseTheNextAddress := by
  intro s addr went
  have hrow (cond : Cond) := exec_condInstr { MicroFields.blank with cond := cond, addr := addr } s
  have hN := hrow .ifN
  have hZ := hrow .ifZ
  simp only [nextAddr] at hN hZ
  refine ⟨exec_of_goMicro (hrow .unconditional), fun h => ?_, fun h => ?_, fun h => ?_, fun h => ?_,
    exec_of_goMicro (hrow .always)⟩
  · exact exec_of_goMicro (by rwa [if_pos h] at hN)
  · exact exec_of_goMicro (by rwa [if_neg (ne_true_of_eq_false h)] at hN)
  · exact exec_of_goMicro (by rwa [if_pos h] at hZ)
  · exact exec_of_goMicro (by rwa [if_neg (ne_true_of_eq_false h)] at hZ)

/-! ### The subcycles of phases 1 and 4 -/

/-- A phase that faults leaves the state of before it, with FAULT set (R421). -/
theorem subcycle_of_runPhase_faulted {s u : State} {r : Fault} (hs : s.fault = none) (h : runPhase s = .next u)
    (hu : u.fault = some r) : subcycle s = .next { s with fault := some r } := by
  rw [subcycle_of_healthy hs, h, andThen_next, State.endSubcycle, hu]
  rfl

theorem State.microWord_of_le {s : State} (h : 79 ≤ s.mpc.toNat) : s.microWord = none :=
  if_neg (Nat.not_lt.2 h)

theorem State.microWord_of_lt {s : State} {w : MicroWord} (h : s.mpc.toNat < 79) (hw : s.cs[s.mpc.toNat]? = some w) :
    s.microWord = some w := (if_pos h).trans hw

theorem phase1_of_microWord {s : State} {w : MicroWord} (hw : s.microWord = some w) :
    phase1 s = if (decodeMicro w).sh = .reserved then .next (s.raise (.reservedShift s.mpc.toNat))
      else .next { s with mir := some (decodeMicro w) } := by
  rw [phase1, hw]
  rfl

theorem subcycle_phase1_mpcOutOfRange {s : State} (hs : s.fault = none) (hp : s.phase = .phase1)
    (hmpc : 79 ≤ s.mpc.toNat) : subcycle s = .next { s with fault := some (.mpcOutOfRange s.mpc.toNat) } := by
  have hrun : runPhase s = .next (s.raise (.mpcOutOfRange s.mpc.toNat)) := by
    rw [runPhase_of_phase1 hp, phase1, State.microWord_of_le hmpc]
  exact subcycle_of_runPhase_faulted hs hrun rfl

theorem subcycle_phase1_reservedShift {s : State} {w : MicroWord} (hs : s.fault = none) (hp : s.phase = .phase1)
    (hw : s.microWord = some w) (hsh : (decodeMicro w).sh = .reserved) :
    subcycle s = .next { s with fault := some (.reservedShift s.mpc.toNat) } := by
  have hrun := runPhase_of_phase1 hp
  rw [phase1_of_microWord hw, if_pos hsh] at hrun
  exact subcycle_of_runPhase_faulted hs hrun rfl

theorem subcycle_phase1 {s : State} {w : MicroWord} (hs : s.fault = none) (hp : s.phase = .phase1)
    (hw : s.microWord = some w) (hsh : (decodeMicro w).sh ≠ .reserved) :
    subcycle s = .next { s with mir := some (decodeMicro w), phase := .phase2, cycles := s.cycles + 1 } := by
  have hrun := runPhase_of_phase1 hp
  rw [phase1_of_microWord hw, if_neg hsh] at hrun
  rw [subcycle_of_runPhase hs hrun hs]
  simp only [hp, Phase.succ]

theorem phase4_eq_goMicro (f : MicroFields) (s : State) :
    phase4 f s = .next { s.goMicro (nextAddr f s.flagN s.flagZ s.mpc.toNat) with mir := none } := by
  rw [phase4, runRows_cons, exec_condInstr, andThen_next, runRows_nil, andThen_next]

theorem subcycle_phase4 {s : State} {f : MicroFields} (hs : s.fault = none) (hp : s.phase = .phase4)
    (hm : s.mir = some f) (hnext : nextAddr f s.flagN s.flagZ s.mpc.toNat < 79) :
    subcycle s = .next { s with
      mpc := BitVec.ofNat 8 (nextAddr f s.flagN s.flagZ s.mpc.toNat), mir := none, phase := .phase1,
      cycles := s.cycles + 1 } := by
  have hrun := (runPhase_of_phase4 hp hm).trans (phase4_eq_goMicro f s)
  rw [s.goMicro_of_lt hnext] at hrun
  rw [subcycle_of_runPhase hs hrun hs]
  simp only [hp, Phase.succ]

theorem subcycle_phase4_outOfRange {s : State} {f : MicroFields} (hs : s.fault = none) (hp : s.phase = .phase4)
    (hm : s.mir = some f) (hnext : 79 ≤ nextAddr f s.flagN s.flagZ s.mpc.toNat) :
    subcycle s = .next { s with
      fault := some (.nextAddressOutOfRange s.mpc.toNat (nextAddr f s.flagN s.flagZ s.mpc.toNat)) } := by
  have hrun := (runPhase_of_phase4 hp hm).trans (phase4_eq_goMicro f s)
  rw [s.goMicro_of_le hnext] at hrun
  exact subcycle_of_runPhase_faulted hs hrun rfl

/-- Settles O22: a word at MPC is found exactly below the bound, and each selector's code is the field it was decoded
from. -/
theorem phaseOneStagesTheFields : Obligations.PhaseOneStagesTheFields := by
  intro s hs hp _
  refine ⟨subcycle_phase1_mpcOutOfRange hs hp, fun w hmpc hcs => ?_⟩
  have hw := State.microWord_of_lt hmpc hcs
  have hreserved : (decodeMicro w).sh = .reserved ↔ w.extractLsb' 25 2 = 3#2 := ShiftOp.ofCode_eq_iff _ _
  refine ⟨fun hsh => subcycle_phase1_reservedShift hs hp hw (hreserved.2 hsh), fun hsh => ?_⟩
  exact ⟨decodeMicro w, subcycle_phase1 hs hp hw (mt hreserved.1 hsh), AmuxSel.code_ofCode _, Cond.code_ofCode _,
    AluOp.code_ofCode _, ShiftOp.code_ofCode _, rfl, rfl, rfl, rfl, rfl, Reg.code_ofCode _, Reg.code_ofCode _,
    Reg.code_ofCode _, rfl⟩

/-- Settles O24: phase 3 is `commitEffect`, the ten steps composed. -/
theorem phaseThreeIsTheTenSteps : Obligations.PhaseThreeIsTheTenSteps :=
  fun _ _ => subcycle_phase3

/-- Settles O25: the condition's row goes to `nextAddr`, and a fault there undoes the clearing of MIR. -/
theorem phaseFourBranchesAndClearsTheFields : Obligations.PhaseFourBranchesAndClearsTheFields :=
  fun _ _ hs hp hm => ⟨subcycle_phase4 hs hp hm, subcycle_phase4_outOfRange hs hp hm⟩

/-! ### The microinstruction (R182) -/

theorem microstep_of_phase1 {s : State} (hp : s.phase = .phase1) : microstep s = subcycles 4 s := by
  rw [microstep, hp]
  rfl

theorem subcycles_succ_of_next {s t : State} (n : Nat) (h : subcycle s = .next t) :
    subcycles (n + 1) s = subcycles n t := by
  rw [subcycles_succ, h, andThen_next]

theorem subcycles_one (s : State) : subcycles 1 s = subcycle s := by
  rw [subcycles_succ]
  cases subcycle s <;> rfl

/-- A microinstruction whose first subcycle faults stops there. -/
theorem microstep_of_subcycle_faulted {s t : State} (hp : s.phase = .phase1) (h : subcycle s = .next t)
    (ht : t.fault ≠ none) : microstep s = .next t := by
  rw [microstep_of_phase1 hp, subcycles_succ_of_next 3 h, subcycles_faulted 3 ht]

/-- The state between phase 3 and phase 4 of the microinstruction `f` begun in `s`. -/
def beforeBranch (f : MicroFields) (s : State) : State :=
  { commitEffect f (requestEffect f s) with mir := some f, phase := .phase4, cycles := s.cycles + 3 }

/-- Phases 1 to 3 complete, and the subcycle of phase 4 decides the rest. -/
theorem microstep_eq_subcycle_beforeBranch {s : State} {w : MicroWord} (hs : s.fault = none)
    (hp : s.phase = .phase1) (hw : s.microWord = some w) (hsh : (decodeMicro w).sh ≠ .reserved) :
    microstep s = subcycle (beforeBranch (decodeMicro w) s) := by
  have h1 := subcycle_phase1 hs hp hw hsh
  have h2 := subcycle_phase2 (f := decodeMicro w)
    (s := { s with mir := some (decodeMicro w), phase := .phase2, cycles := s.cycles + 1 }) hs rfl rfl
  have h3 := subcycle_phase3 (f := decodeMicro w)
    (s := { requestEffect (decodeMicro w) s with
      mir := some (decodeMicro w), phase := .phase3, cycles := s.cycles + 2 }) hs rfl rfl hsh
  calc microstep s
    _ = subcycles 4 s := microstep_of_phase1 hp
    _ = subcycles 3 _ := subcycles_succ_of_next 3 h1
    _ = subcycles 2 _ := subcycles_succ_of_next 2 h2
    _ = subcycles 1 (beforeBranch (decodeMicro w) s) := subcycles_succ_of_next 1 h3
    _ = subcycle _ := subcycles_one _

/-- Settles O26: a fault of phase 1 ends the microinstruction where it began; else phase 4 branches or faults after the
effects of phases 2 and 3. -/
theorem microstepIsItsClosedForm : Obligations.MicrostepIsItsClosedForm := by
  intro s hs hp
  refine ⟨fun hmpc => ?_, fun w hmpc hcs => ?_⟩
  · exact microstep_of_subcycle_faulted hp (subcycle_phase1_mpcOutOfRange hs hp hmpc) nofun
  intro f c next
  have hw := State.microWord_of_lt hmpc hcs
  refine ⟨fun hsh => ?_, fun hsh hnext => ?_, fun hsh hnext => ?_⟩
  · exact microstep_of_subcycle_faulted hp (subcycle_phase1_reservedShift hs hp hw hsh) nofun
  · rw [microstep_eq_subcycle_beforeBranch hs hp hw hsh]
    exact subcycle_phase4 hs rfl rfl hnext
  · rw [microstep_eq_subcycle_beforeBranch hs hp hw hsh]
    exact subcycle_phase4_outOfRange hs rfl rfl hnext

end Machine

end Sys2Proof

/-! Proofs of the family 42_control_store: the static properties of the decided store (R203), and the path that each
macro-instruction takes through it (R205). -/

namespace Sys2Proof.Machine

/-! ### The entries of the decided store (R203) -/

/-- The fields of entry `k` of the decided store. -/
def decidedFields (k : Nat) : MicroFields := decodeMicro (decidedStore.getD k 0#32)

theorem controlStoreWf_decidedStore : controlStoreWf decidedStore = true := by decide

/-- Each register that a macro-instruction may write is written by the entry that R201 gives here. -/
theorem decidedStore_writes {r : Reg} (h : r ∈ [Reg.pc, .ac, .sp, .ir, .tir, .a]) :
    ∃ k < 79, (decidedFields k).enc = true ∧ (decidedFields k).c = r := by
  simp only [List.mem_cons, List.not_mem_nil, or_false] at h
  rcases h with rfl | rfl | rfl | rfl | rfl | rfl
  · exact ⟨1, by decide⟩
  · exact ⟨8, by decide⟩
  · exact ⟨47, by decide⟩
  · exact ⟨2, by decide⟩
  · exact ⟨3, by decide⟩
  · exact ⟨17, by decide⟩

/-- Settles O14: the store is a fixed table of 79 words, and each item is read off it. -/
theorem decidedStoreStaticProperties : Obligations.DecidedStoreStaticProperties :=
  ⟨rfl, by decide, by decide, by decide, by decide, by decide, by decide, fun _ => decidedStore_writes, by decide,
    by decide, controlStoreWf_decidedStore⟩

/-- A well-formed entry completes phase 1 and has its next address in range, whatever the flags (R106). -/
theorem nextAddr_lt_of_wellFormedAt {f : MicroFields} {k : Nat} (h : f.wellFormedAt k = true) :
    f.sh ≠ .reserved ∧ ∀ n z, nextAddr f n z k < 79 := by
  simp only [MicroFields.wellFormedAt, MicroFields.nextInRange, microAddrWf, Config.csSize, Bool.and_eq_true,
    decide_eq_true_eq] at h
  obtain ⟨hsh, hnext⟩ := h
  refine ⟨hsh, fun n z => ?_⟩
  unfold nextAddr
  cases hc : f.cond <;> rw [hc] at hnext
  case unconditional | always => exact of_decide_eq_true hnext
  case ifN | ifZ =>
    obtain ⟨haddr, hfall⟩ := (Bool.and_eq_true _ _).mp hnext
    dsimp only
    split
    · exact of_decide_eq_true haddr
    · exact of_decide_eq_true hfall

/-- In a well-formed store the word at an address is well formed there. -/
theorem wellFormedAt_of_controlStoreWf {cs : List MicroWord} (h : controlStoreWf cs = true) {k : Nat} {w : MicroWord}
    (hw : cs[k]? = some w) : (decodeMicro w).wellFormedAt k = true := by
  simp only [controlStoreWf, Bool.and_eq_true, List.all_eq_true] at h
  exact h.2 (w, k) (List.mem_zipIdx_iff_getElem?.2 hw)

/-- The word that the machine fetches is the one that the statements about the store speak of. -/
theorem decidedStore_getElem? {k : Nat} (h : k < 79) : decidedStore[k]? = some (decidedStore.getD k 0#32) := by
  rw [List.getD_eq_getElem _ _ h]
  exact List.getElem?_eq_getElem h

theorem decidedFields_wellFormedAt {k : Nat} (h : k < 79) : (decidedFields k).wellFormedAt k = true :=
  wellFormedAt_of_controlStoreWf controlStoreWf_decidedStore (decidedStore_getElem? h)

/-! ### One entry of the decided store

From a state that is about to run an entry, a microinstruction is that entry's closed form (R182), and leaves a state
about to run the entry's next address. -/

/-- The core is about to run entry `k` of the decided store, with no fault. -/
structure State.AtEntry (k : Nat) (s : State) : Prop where
  mpc : s.mpc.toNat = k
  inRange : k < 79
  phase : s.phase = .phase1
  fault : s.fault = none
  store : s.cs = decidedStore

/-- The state after the microinstruction `f`, the closed form of R182 that `microstepIsItsClosedForm` proves. -/
def State.afterMicro (f : MicroFields) (s : State) : State :=
  let c := commitEffect f (requestEffect f s)
  { c with
    mpc := BitVec.ofNat 8 (nextAddr f c.flagN c.flagZ s.mpc.toNat), mir := none, phase := .phase1,
    cycles := s.cycles + 4 }

/-- What the microinstruction `f` finds in MBR (R67). -/
def State.microMbr (f : MicroFields) (s : State) : Word :=
  if 2 ≤ s.rdc + f.rd.toNat then s.word s.maddr else s.mbr

/-- The ALU result of the microinstruction `f`. -/
def State.microResult (f : MicroFields) (s : State) : Word :=
  aluOf f.alu (if f.amux = .mbr then s.microMbr f else s.reg f.a) (s.reg f.b)

@[simp] theorem State.afterMicro_cycles (f : MicroFields) (s : State) : (s.afterMicro f).cycles = s.cycles + 4 := rfl

theorem State.afterMicro_mbr {f : MicroFields} (h : f.mbr = false) (s : State) :
    (s.afterMicro f).mbr = s.microMbr f := by
  simp only [afterMicro, commitEffect, h]
  rfl

theorem State.afterMicro_rdc (f : MicroFields) (s : State) :
    (s.afterMicro f).rdc = if 2 ≤ s.rdc + f.rd.toNat then 0 else s.rdc + f.rd.toNat := rfl

theorem State.afterMicro_mem {f : MicroFields} {s : State} (h : s.wrc + f.wr.toNat < 2) :
    (s.afterMicro f).mem = s.mem := if_neg (Nat.not_le.2 h)

/-- The address latched by `f` is presented in the same microinstruction (R64, R142). -/
theorem State.afterMicro_maddr {f : MicroFields} (hmar : f.mar = true) (hrd : f.rd = true) (s : State) :
    (s.afterMicro f).maddr = low12 (s.reg f.b) := by
  simp only [afterMicro, commitEffect, hmar, hrd, low12_eq_setWidth]
  rfl

theorem State.afterMicro_regs (f : MicroFields) (s : State) :
    (s.afterMicro f).regs = if f.enc then s.regs.set f.c (shiftOf f.sh (s.microResult f)) else s.regs := rfl

theorem State.reg_afterMicro_written {f : MicroFields} (h : f.enc = true) (s : State) :
    (s.afterMicro f).reg f.c = shiftOf f.sh (s.microResult f) := by
  rw [State.reg, State.afterMicro_regs, if_pos h, RegFile.get_set, if_pos rfl]

theorem State.reg_afterMicro_kept {f : MicroFields} {r : Reg} (h : f.enc = true → f.c ≠ r) (s : State) :
    (s.afterMicro f).reg r = s.reg r := by
  rw [State.reg, State.afterMicro_regs]
  split
  · rename_i he
    rw [RegFile.get_set, if_neg (h he), State.reg]
  · rfl

/-- The next address of the microinstruction `f`: its flags are those of its own ALU result (R138, R175). -/
def State.microTarget (f : MicroFields) (s : State) : Nat :=
  nextAddr f (decide ((s.microResult f).toInt < 0)) (decide (s.microResult f = 0x0000#16)) s.mpc.toNat

theorem microstep_atEntry {k : Nat} {s : State} (h : s.AtEntry k) :
    microstep s = .next (s.afterMicro (decidedFields k)) := by
  obtain ⟨rfl, hk, hphase, hfault, hstore⟩ := h
  obtain ⟨hsh, hnext⟩ := nextAddr_lt_of_wellFormedAt (decidedFields_wellFormedAt hk)
  obtain ⟨-, hclosed⟩ := microstepIsItsClosedForm s hfault hphase
  obtain ⟨-, hdone, -⟩ := hclosed (decidedStore.getD s.mpc.toNat 0#32) hk (by rw [hstore, decidedStore_getElem? hk])
  exact hdone hsh (hnext _ _)

/-- The next address of an entry is in range, so that the core is about to run an entry again. -/
theorem State.AtEntry.next {k : Nat} {s : State} (h : s.AtEntry k) :
    (s.afterMicro (decidedFields k)).AtEntry (s.microTarget (decidedFields k)) := by
  obtain ⟨rfl, hk, hphase, hfault, hstore⟩ := h
  obtain ⟨-, hnext⟩ := nextAddr_lt_of_wellFormedAt (decidedFields_wellFormedAt hk)
  exact ⟨Nat.mod_eq_of_lt ((hnext _ _).trans (by decide)), hnext _ _, rfl, hfault, hstore⟩

theorem State.AtEntry.atBoundary_iff {k : Nat} {s : State} (h : s.AtEntry k) : s.atBoundary = true ↔ k = 0 := by
  obtain ⟨rfl, -, hphase, -, -⟩ := h
  simp [State.atBoundary, hphase, ← BitVec.toNat_inj]

theorem State.AtEntry.macroEnded_iff {k : Nat} {s : State} (h : s.AtEntry k) : s.macroEnded = true ↔ k = 0 := by
  rw [State.macroEnded, h.fault, Option.isSome_none, Bool.or_false, h.atBoundary_iff]

/-! ### The walk through the decided store (R202, R205)

The bits of the fetched word and the sign and zeroness of AC decide every branch, so that the path can be followed
with no state at all. -/

/-- The bit of the fetched word that an entry of the decode tree tests (the comments of R201). -/
def testedBit (k : Nat) : Option Nat :=
  match k with
  | 2 => some 15
  | 3 | 28 => some 14
  | 4 | 19 | 29 | 40 => some 13
  | 5 | 11 | 20 | 25 | 30 | 35 | 41 | 46 => some 12
  | 50 => some 11
  | 51 | 65 => some 10
  | 52 | 59 | 66 | 73 => some 9
  | _ => none

/-- The flags N and Z that decide the branch of entry `k`: N is a bit of the fetched word in the decode tree, where
no entry reads Z, and both are those of AC elsewhere. -/
def branchFlags (bit : Nat → Bool) (negative zero : Bool) (k : Nat) : Bool × Bool :=
  match testedBit k with
  | some b => (bit b, false)
  | none => (negative, zero)

/-- The entry that follows entry `k`, with the flags that decide its branch. -/
def nextEntry (flags : Nat → Bool × Bool) (k : Nat) : Nat :=
  nextAddr (decidedFields k) (flags k).1 (flags k).2 k

/-- The entries run from entry `k` on until entry 0 comes next, if that takes at most `n` of them. -/
def entryPath (flags : Nat → Bool × Bool) : Nat → Nat → Option (List Nat)
  | 0, _ => none
  | n + 1, k =>
    match nextEntry flags k with
    | 0 => some [k]
    | next + 1 => (entryPath flags n (next + 1)).map (k :: ·)

theorem entryPath_of_next_eq_zero {flags : Nat → Bool × Bool} {k : Nat} (h : nextEntry flags k = 0) (n : Nat) :
    entryPath flags (n + 1) k = some [k] := by
  rw [entryPath, h]

theorem entryPath_of_next_ne_zero {flags : Nat → Bool × Bool} {k : Nat} (h : nextEntry flags k ≠ 0) (n : Nat) :
    entryPath flags (n + 1) k = (entryPath flags n (nextEntry flags k)).map (k :: ·) := by
  rw [entryPath]
  split
  · exact absurd ‹_› h
  · rename_i hnext
    rw [hnext]

/-- The flags that decide the branches of a macro-instruction, for the word fetched and AC at its start. -/
def macroFlags (w ac : Word) : Nat → Bool × Bool :=
  branchFlags w.getLsbD (decide (ac.toInt < 0)) (decide (ac = 0x0000#16))

/-! ### What each entry's branch depends on

The decode tree's ALU results are the fetched word shifted, so that the bit to be tested is the sign. -/

/-- Entry `k` belongs to the routine of an instruction, beyond the fetch and the decode tree. -/
def inRoutine (k : Nat) : Bool := decide (3 ≤ k) && decide (testedBit k = none)

theorem testedBit_of_inRoutine {k : Nat} (h : inRoutine k = true) : testedBit k = none :=
  of_decide_eq_true ((Bool.and_eq_true _ _).mp h).2

/-- Whether a condition reads a flag (R176 to R179). -/
def readsFlag (c : Cond) : Bool :=
  match c with
  | .unconditional | .always => false
  | .ifN | .ifZ => true

theorem nextAddr_of_not_readsFlag {f : MicroFields} (h : readsFlag f.cond = false) (n z n' z' : Bool) (k : Nat) :
    nextAddr f n z k = nextAddr f n' z' k := by
  unfold nextAddr
  cases hc : f.cond with
  | unconditional | always => rfl
  | ifN | ifZ =>
    rw [hc] at h
    cases h

/-- A branch on N does not read Z (R177). -/
theorem nextAddr_of_ifN {f : MicroFields} (h : f.cond = .ifN) (n z z' : Bool) (k : Nat) :
    nextAddr f n z k = nextAddr f n z' k := by
  unfold nextAddr
  rw [h]

/-- `g` finds in a register what `f` wrote there, and computes twice the ALU result of `f`. -/
def DoublesInto (f g : MicroFields) : Prop :=
  f.enc = true ∧ g.amux = .alat ∧ g.a = f.c ∧
    (f.sh = .left1 ∧ g.alu = .passA ∨ f.sh = .identity ∧ g.alu = .add ∧ g.b = f.c)

theorem microResult_of_doublesInto {f g : MicroFields} (h : DoublesInto f g) (s : State) :
    (s.afterMicro f).microResult g = s.microResult f <<< 1 := by
  obtain ⟨henc, hamux, ha, h⟩ := h
  have hwritten := s.reg_afterMicro_written henc
  rw [State.microResult, if_neg (by rw [hamux]; decide), ha, hwritten]
  rcases h with ⟨hsh, halu⟩ | ⟨hsh, halu, hb⟩
  · rw [halu, hsh]
    rfl
  · rw [halu, hsh, hb, hwritten, hsh, aluOf, to16_toInt_add, shiftOf, BitVec.shiftLeft_eq_mul_twoPow]
    bv_omega

/-- What is known of the state at entry `k`, while the macro-instruction `w` runs that found `ac` in AC. -/
inductive Knows (w ac : Word) (k : Nat) (s : State) : Prop
  | fetch (entry : k = 0) (rdc : s.rdc = 0) (wrc : s.wrc = 0) (word : s.fetchWord = w) (acc : s.reg .ac = ac)
  | fetchWait (entry : k = 1) (rdc : s.rdc = 1) (word : s.word s.maddr = w) (acc : s.reg .ac = ac)
  | decoding (b : Nat) (entry : testedBit k = some b)
      (result : s.microResult (decidedFields k) = w <<< (15 - b)) (acc : s.reg .ac = ac)
  | decoded (entry : inRoutine k = true) (acc : readsFlag (decidedFields k).cond = true → s.reg .ac = ac)

/-- Entry `k` leads where the walk goes, and what is known of the next entry's state follows. -/
def Follows (w ac : Word) (k : Nat) (s : State) : Prop :=
  s.microTarget (decidedFields k) = nextEntry (macroFlags w ac) k ∧
    (nextEntry (macroFlags w ac) k ≠ 0 →
      Knows w ac (nextEntry (macroFlags w ac) k) (s.afterMicro (decidedFields k)))

theorem testedBit_le {k b : Nat} (h : testedBit k = some b) : 9 ≤ b ∧ b ≤ 15 := by
  unfold testedBit at h
  split at h <;> cases h <;> decide

/-- An entry of the decode tree branches on the sign, and keeps AC. -/
theorem decodeTree_fields : ∀ k < 79, testedBit k ≠ none →
    (decidedFields k).cond = .ifN ∧ ((decidedFields k).enc = true → (decidedFields k).c ≠ .ac) := by decide

/-- An entry of the decode tree leads to a routine, or to the entry that tests the next bit, with the word shifted once
more. -/
theorem decodeTree_next : ∀ k < 79, testedBit k ≠ none → ∀ n : Bool,
    inRoutine (nextAddr (decidedFields k) n false k) = true ∨
      testedBit (nextAddr (decidedFields k) n false k) = (testedBit k).map (· - 1) ∧
        DoublesInto (decidedFields k) (decidedFields (nextAddr (decidedFields k) n false k)) := by
  unfold DoublesInto
  decide

/-- A branch in a routine tests AC. -/
theorem routine_fields : ∀ k < 79, inRoutine k = true → readsFlag (decidedFields k).cond = true →
    (decidedFields k).amux = .alat ∧ (decidedFields k).alu = .passA ∧ (decidedFields k).a = .ac := by decide

/-- A routine goes on to entry 0 or within the routines, and not to a test of AC. -/
theorem routine_next : ∀ k < 79, inRoutine k = true → ∀ n z : Bool, nextAddr (decidedFields k) n z k ≠ 0 →
    inRoutine (nextAddr (decidedFields k) n z k) = true ∧
      readsFlag (decidedFields (nextAddr (decidedFields k) n z k)).cond = false := by decide

/-- The sign of a shifted word is the bit that the shift brought to the top. -/
theorem sign_shiftLeft (w : Word) {b : Nat} (h : b ≤ 15) : decide ((w <<< (15 - b)).toInt < 0) = w.getLsbD b := by
  rw [← negativeFlag_eq, negativeFlag, BitVec.getLsbD_shiftLeft, show 15 - (15 - b) = b by omega]
  simp

/-! ### The simulation: the state stays with the walk

One lemma for each way of knowing the state. -/

theorem follows_of_decoding {w ac : Word} {k b : Nat} {s : State} (hat : s.AtEntry k) (entry : testedBit k = some b)
    (result : s.microResult (decidedFields k) = w <<< (15 - b)) (acc : s.reg .ac = ac) : Follows w ac k s := by
  have htree : testedBit k ≠ none := by rw [entry]; nofun
  obtain ⟨hpos, hb⟩ := testedBit_le entry
  obtain ⟨hcond, hkeeps⟩ := decodeTree_fields k hat.inRange htree
  have hacc := (State.reg_afterMicro_kept hkeeps s).trans acc
  have hflags : macroFlags w ac k = (w.getLsbD b, false) := by rw [macroFlags, branchFlags, entry]
  rw [Follows, nextEntry, hflags]
  refine ⟨?_, fun _ => ?_⟩
  · rw [State.microTarget, result, sign_shiftLeft w hb, hat.mpc]
    exact nextAddr_of_ifN hcond _ _ _ k
  · rcases decodeTree_next k hat.inRange htree (w.getLsbD b) with hroutine | ⟨hbit, hdoubles⟩
    · exact .decoded hroutine fun _ => hacc
    · refine .decoding (b - 1) (by rw [hbit, entry]; rfl) ?_ hacc
      rw [microResult_of_doublesInto hdoubles, result, ← BitVec.shiftLeft_add,
        show 15 - b + 1 = 15 - (b - 1) by omega]

theorem follows_of_decoded {w ac : Word} {k : Nat} {s : State} (hat : s.AtEntry k)
    (entry : inRoutine k = true) (acc : readsFlag (decidedFields k).cond = true → s.reg .ac = ac) :
    Follows w ac k s := by
  have hflags : macroFlags w ac k = (decide (ac.toInt < 0), decide (ac = 0x0000#16)) := by
    rw [macroFlags, branchFlags, testedBit_of_inRoutine entry]
  rw [Follows, nextEntry, hflags]
  refine ⟨?_, fun hne => ?_⟩
  · rw [State.microTarget, hat.mpc]
    cases hflag : readsFlag (decidedFields k).cond with
    | true =>
      obtain ⟨hamux, halu, ha⟩ := routine_fields k hat.inRange entry hflag
      have hresult : s.microResult (decidedFields k) = ac := by
        rw [State.microResult, if_neg (by rw [hamux]; decide), halu, ha, acc hflag, aluOf]
      rw [hresult]
    | false => exact nextAddr_of_not_readsFlag hflag _ _ _ _ k
  · obtain ⟨hroutine, hno⟩ := routine_next k hat.inRange entry _ _ hne
    exact .decoded hroutine fun h => absurd h (by rw [hno]; decide)

/-- Entry 0 presents PC and requests the read (R202). -/
theorem follows_of_fetch {w ac : Word} {s : State} (rdc : s.rdc = 0) (wrc : s.wrc = 0) (word : s.fetchWord = w)
    (acc : s.reg .ac = ac) : Follows w ac 0 s := by
  refine ⟨rfl, fun _ => .fetchWait rfl ?_ ?_ ?_⟩
  · rw [State.afterMicro_rdc, rdc]
    rfl
  · rw [State.word, State.afterMicro_mem (by rw [wrc]; decide), State.afterMicro_maddr rfl rfl]
    exact word
  · exact (State.reg_afterMicro_kept (by decide) s).trans acc

/-- Entry 1 completes the read, so that entry 2 finds the word in MBR (R202). -/
theorem follows_of_fetchWait {w ac : Word} {s : State} (rdc : s.rdc = 1) (word : s.word s.maddr = w)
    (acc : s.reg .ac = ac) : Follows w ac 1 s := by
  have hmbr : (s.afterMicro (decidedFields 1)).mbr = w := by
    rw [State.afterMicro_mbr rfl, State.microMbr, rdc]
    exact word
  have hrdc : (s.afterMicro (decidedFields 1)).rdc = 0 := by
    rw [State.afterMicro_rdc, rdc]
    rfl
  have hresult : (s.afterMicro (decidedFields 1)).microResult (decidedFields 2) = w <<< (15 - 15) := by
    calc (s.afterMicro (decidedFields 1)).microResult (decidedFields 2)
      _ = (s.afterMicro (decidedFields 1)).microMbr (decidedFields 2) := rfl
      _ = (s.afterMicro (decidedFields 1)).mbr := by rw [State.microMbr, hrdc]; rfl
      _ = w <<< (15 - 15) := by rw [hmbr, BitVec.shiftLeft_zero]
  exact ⟨rfl, fun _ => .decoding 15 rfl hresult ((State.reg_afterMicro_kept (by decide) s).trans acc)⟩

theorem Knows.follows {w ac : Word} {k : Nat} {s : State} (hat : s.AtEntry k) (h : Knows w ac k s) :
    Follows w ac k s := by
  cases h with
  | fetch entry rdc wrc word acc => exact entry ▸ follows_of_fetch rdc wrc word acc
  | fetchWait entry rdc word acc => exact entry ▸ follows_of_fetchWait rdc word acc
  | decoding b entry result acc => exact follows_of_decoding hat entry result acc
  | decoded entry acc => exact follows_of_decoded hat entry acc

/-- A state that stays with the walk runs the walk's entries, ends at a boundary, and takes four cycles an entry. -/
theorem run_of_entryPath {w ac : Word} {n k : Nat} {s : State} {path : List Nat} (hat : s.AtEntry k)
    (hknows : Knows w ac k s) (hpath : entryPath (macroFlags w ac) n k = some path) :
    microPath n s = path ∧
      ∃ t, runMicroprogram n s = .next t ∧ t.atBoundary = true ∧ t.cycles = s.cycles + 4 * path.length := by
  induction n generalizing k s path with
  | zero => cases hpath
  | succ n ih =>
    obtain ⟨htarget, hknows'⟩ := hknows.follows hat
    have hat' := htarget ▸ hat.next
    rw [microPath, runMicroprogram, microstep_atEntry hat, hat.mpc, andThen_next]
    by_cases hend : nextEntry (macroFlags w ac) k = 0
    · rw [entryPath_of_next_eq_zero hend] at hpath
      obtain rfl := Option.some.inj hpath
      have hboundary := hat'.atBoundary_iff.2 hend
      exact ⟨by simp only [hboundary, if_true], _, if_pos (hat'.macroEnded_iff.2 hend), hboundary, rfl⟩
    · rw [entryPath_of_next_ne_zero hend, Option.map_eq_some_iff] at hpath
      obtain ⟨rest, hrest, rfl⟩ := hpath
      obtain ⟨hmicro, t, hrun, hboundary, hcycles⟩ := ih hat' (hknows' hend) hrest
      refine ⟨?_, t, ?_, hboundary, ?_⟩
      · simp only [if_neg (mt hat'.atBoundary_iff.1 hend), hmicro]
      · rw [if_neg (mt hat'.macroEnded_iff.1 hend), hrun]
      · rw [hcycles, State.afterMicro_cycles, List.length_cons]
        omega

/-! ### The walk is the listed path (R205) -/

/-- Bit `b` of a word, from its opcode in bits 15:12 and its sub-opcode in bits 11:9. -/
def opcodeBit (op sub b : Nat) : Bool := if 12 ≤ b then op.testBit (b - 12) else sub.testBit (b - 9)

theorem getLsbD_eq_opcodeBit (w : Word) {b : Nat} (h : 9 ≤ b ∧ b ≤ 15) :
    w.getLsbD b = opcodeBit (w.toNat / 4096) (w.toNat / 512 % 8) b := by
  unfold opcodeBit
  split
  · rw [show 4096 = 2 ^ 12 from rfl, Nat.testBit_div_two_pow, show b - 12 + 12 = b by omega]
    rfl
  · rw [show 8 = 2 ^ 3 from rfl, Nat.testBit_mod_two_pow, show 512 = 2 ^ 9 from rfl, Nat.testBit_div_two_pow,
      show b - 9 + 9 = b by omega, decide_eq_true (by omega), Bool.true_and]
    rfl

theorem macroFlags_eq_branchFlags (w ac : Word) :
    macroFlags w ac = branchFlags (opcodeBit (w.toNat / 4096) (w.toNat / 512 % 8)) (decide (ac.toInt < 0))
      (decide (ac = 0x0000#16)) := by
  funext k
  unfold macroFlags branchFlags
  split
  · rename_i b hbit
    rw [getLsbD_eq_opcodeBit w (testedBit_le hbit)]
  · rfl

/-- The walk from entry 0 on, from an opcode, a sub-opcode and the flags of AC. -/
def opcodePath (op sub : Nat) (negative zero : Bool) : Option (List Nat) :=
  entryPath (branchFlags (opcodeBit op sub) negative zero) 13 0

/-- A path that a test of AC chooses. -/
theorem path_of_test {p : Prop} [Decidable p] (path : Bool → Option (List Nat)) {taken fallen : List Nat}
    (ht : path true = some taken) (hf : path false = some fallen) :
    path (decide p) = some (if p then taken else fallen) := by
  by_cases h : p
  · rw [decide_eq_true h, if_pos h, ht]
  · rw [decide_eq_false h, if_neg h, hf]

/-- The instructions with a 4-bit opcode: bits 11:9 are operand bits, which no branch tests. JPOS, JZER, JNEG and JNZE
(opcodes 4, 5, 12 and 13) test AC once. -/
theorem opcodePath_of_lt {op : Nat} (h : op < 15) (sub : Nat) (x : BitVec 12) (ac : Word) {i : Instr}
    (hi : some i = [Instr.lodd x, .stod x, .addd x, .subd x, .jpos x, .jzer x, .jump x, .loco x, .lodl x, .stol x,
      .addl x, .subl x, .jneg x, .jnze x, .call x][op]?) :
    opcodePath op sub (decide (ac.toInt < 0)) (decide (ac = 0x0000#16)) = some (listedPath i ac) := by
  interval_cases op <;> obtain rfl := Option.some.inj hi
  iterate 4 exact rfl
  · exact path_of_test (opcodePath 4 sub · _) rfl rfl
  · exact path_of_test (opcodePath 5 sub _ ·) rfl rfl
  iterate 6 exact rfl
  · exact path_of_test (opcodePath 12 sub · _) rfl rfl
  · exact path_of_test (opcodePath 13 sub _ ·) rfl rfl
  · rfl

/-- The instructions of opcode 15, by bits 11:9. -/
theorem opcodePath_fifteen {sub : Nat} (h : sub < 8) (y : BitVec 8) (ac : Word) (n z : Bool) {i : Instr}
    (hi : some i = [Instr.pshi, .popi, .push, .pop, .retn, .swap, .insp y, .desp y][sub]?) :
    opcodePath 15 sub n z = some (listedPath i ac) := by
  interval_cases sub <;> obtain rfl := Option.some.inj hi <;> rfl

/-- The walk of a word is the path listed for the instruction that the word decodes to. -/
theorem entryPath_macroFlags (w ac : Word) :
    entryPath (macroFlags w ac) 13 0 = some (listedPath (decodeMacro w) ac) := by
  obtain ⟨hformatA, hrest⟩ := everyWordSelectsOneRoutine w
  rw [macroFlags_eq_branchFlags]
  by_cases hop : w.toNat / 4096 < 15
  · exact opcodePath_of_lt hop _ _ ac (hformatA hop)
  · have hfifteen : w.toNat / 4096 = 15 := by omega
    rw [hfifteen]
    exact opcodePath_fifteen (Nat.mod_lt _ (by decide)) _ ac _ _ (hrest hfifteen)

/-- Where R299 begins, the core is about to run the fetch. -/
theorem atEntry_knows_of_macroReady {s : State} (h : s.macroReady = true) :
    s.AtEntry 0 ∧ Knows s.fetchWord (s.reg .ac) 0 s := by
  obtain ⟨hmpc, hphase, -, hfault, hrdc, hwrc, -, hstore⟩ := State.macroReady_iff.1 h
  exact ⟨⟨congrArg BitVec.toNat hmpc, by decide, hphase, hfault, hstore⟩, .fetch rfl hrdc hwrc rfl rfl⟩

/-- Settles O42: the state stays with the walk that the fetched word and AC decide, and that walk is the listed path. -/
theorem microprogramFollowsTheListedPaths : Obligations.MicroprogramFollowsTheListedPaths := by
  intro s hready
  obtain ⟨hat, hknows⟩ := atEntry_knows_of_macroReady hready
  exact run_of_entryPath hat hknows (entryPath_macroFlags s.fetchWord (s.reg .ac))

end Sys2Proof.Machine

/-! Proofs of the family 60_exceptions: faults and the host's run. -/

namespace Sys2Proof.Machine

/-! ### A fault is precise (R421) -/

/-- A subcycle that raises a fault raises it in the state before it. -/
theorem subcycle_raises {s t : State} (hs : s.fault = none) (h : subcycle s = .next t) (ht : t.fault ≠ none) :
    ∃ r, t = s.raise r := by
  obtain ⟨hfaulted, -⟩ | ⟨-, u, -, rfl⟩ := subcycle_cases h
  · exact absurd hs hfaulted
  · obtain ⟨r, -, he⟩ | ⟨hu, he⟩ := s.endSubcycle_cases u
    · exact ⟨r, he⟩
    · rw [he] at ht
      exact absurd hu ht

/-! ### A fault is permanent (R421) -/

theorem State.macroEnded_of_faulted {s : State} (h : s.fault ≠ none) : s.macroEnded = true := by
  rw [State.macroEnded, Option.isSome_iff_ne_none.2 h, Bool.or_true]

theorem microstep_faulted {s : State} (h : s.fault ≠ none) : microstep s = .next s := subcycles_faulted _ h

/-- The microprogram of a faulted core stops at its first microinstruction, which does nothing. -/
theorem runMicroprogram_faulted (n : Nat) {s : State} (h : s.fault ≠ none) : runMicroprogram n s = .next s := by
  cases n with
  | zero => rfl
  | succ n => rw [runMicroprogram, microstep_faulted h, andThen_next, if_pos (State.macroEnded_of_faulted h)]

/-- A faulted core is in no state that the macro-instruction rules start from, so it runs its microprogram. -/
theorem runMacro_faulted {s : State} (h : s.fault ≠ none) : runMacro s = .next s := by
  have hready : ¬ s.macroReady = true := fun hready => by
    obtain ⟨-, -, -, hhealthy, -⟩ := State.macroReady_iff.1 hready
    exact h hhealthy
  rw [runMacro, if_neg hready, runMicroprogram_faulted runBound h]

/-- A load that succeeds writes memory and the host's bound (R462). -/
theorem hostLoad_writes {words : List Int} {s t : State} (h : hostLoad words s = some t) :
    t = { s with mem := Mem.loadFrom 0 words s.mem, nProg := words.length } := by
  unfold hostLoad at h
  split at h
  · exact (Option.some.inj h).symm
  · cases h

/-! ### The end-of-run conditions, in their order (R424, R433) -/

section
variable {haltAddrs : List Nat} {nProg : Nat} {s : State}

theorem runStatus_of_faulted {r : Fault} (hf : s.fault = some r) :
    runStatus haltAddrs nProg s = some (.fault r) := by
  rw [runStatus, hf]

theorem runStatus_of_healthy (hf : s.fault = none) :
    runStatus haltAddrs nProg s =
      if (s.reg .pc).toNat ∈ haltAddrs then some .halted
      else if nProg ≤ (s.reg .pc).toNat then some .outOfBounds else none := by
  rw [runStatus, hf]

theorem runStatus_of_mem_haltAddrs (hf : s.fault = none) (hpc : (s.reg .pc).toNat ∈ haltAddrs) :
    runStatus haltAddrs nProg s = some .halted := by
  rw [runStatus_of_healthy hf, if_pos hpc]

theorem runStatus_of_le_pc (hf : s.fault = none) (hpc : (s.reg .pc).toNat ∉ haltAddrs)
    (hbound : nProg ≤ (s.reg .pc).toNat) : runStatus haltAddrs nProg s = some .outOfBounds := by
  rw [runStatus_of_healthy hf, if_neg hpc, if_pos hbound]

theorem runStatus_of_pc_lt (hf : s.fault = none) (hpc : (s.reg .pc).toNat ∉ haltAddrs)
    (hbound : (s.reg .pc).toNat < nProg) : runStatus haltAddrs nProg s = none := by
  rw [runStatus_of_healthy hf, if_neg hpc, if_neg (Nat.not_le.2 hbound)]

/-! ### One round of the run (R433) -/

theorem State.macroEnded_of_atBoundary (h : s.atBoundary = true) : s.macroEnded = true := by
  rw [State.macroEnded, h, Bool.true_or]

theorem State.macroEnded_of_between (h : s.atBoundary = false) (hf : s.fault = none) : s.macroEnded = false := by
  rw [State.macroEnded, h, hf, Option.isSome_none, Bool.false_or]

/-- Where a macro-instruction has ended, a condition that is met ends the run before the next instruction. -/
theorem hostRun_of_runStatus {status : RunStatus} (n : Nat) (he : s.macroEnded = true)
    (hstatus : runStatus haltAddrs nProg s = some status) :
    hostRun haltAddrs nProg n s = (.next s, some status) := by
  cases n with
  | zero => rw [hostRun, if_pos he, hstatus]
  | succ n => rw [hostRun, if_pos he, hstatus]

/-- A run that is inside a macro-instruction, or meets no condition, goes on with one `run_macro`. -/
theorem hostRun_succ_of_runMacro {t : State} (n : Nat)
    (hgo : s.macroEnded = true → runStatus haltAddrs nProg s = none) (hrun : runMacro s = .next t) :
    hostRun haltAddrs nProg (n + 1) s = hostRun haltAddrs nProg n t := by
  rw [hostRun, ite_eq_right_iff.2 hgo, hrun]

end

/-! ### The obligations -/

/-- Settles O28: the end of the subcycle raises the fault in the state before it, and every advance operation is made
of subcycles, which a faulted core does not perform. -/
theorem faultsArePreciseAndPermanent : Obligations.FaultsArePreciseAndPermanent := by
  refine ⟨fun s t hs h ht => ?_, fun s r hr => ?_⟩
  · obtain ⟨r, rfl⟩ := subcycle_raises hs h ht
    rfl
  · have hfaulted : s.fault ≠ none := by simp [hr]
    refine ⟨subcycle_faulted hfaulted, microstep_faulted hfaulted, runMacro_faulted hfaulted, fun _ => rfl,
      fun words t h => ?_, fun _ _ => runStatus_of_faulted hr⟩
    rw [hostLoad_writes h, hr]

/-- Settles O57: a run is unfolded by one round, whose check is `runStatus` at a boundary and none between. -/
theorem runChecksItsConditionsInOrder : Obligations.RunChecksItsConditionsInOrder := by
  refine ⟨fun haltAddrs nProg n s t hbetween hf hrun => ?_, fun haltAddrs nProg n s hboundary => ?_⟩
  · have hinside := State.macroEnded_of_between hbetween hf
    exact hostRun_succ_of_runMacro n (fun he => absurd he (by simp [hinside])) hrun
  · have hended := State.macroEnded_of_atBoundary hboundary
    refine ⟨fun r hr => ?_, fun hf => ⟨fun hpc => ?_, fun hpc => ⟨fun hbound => ?_, fun hprog hpast => ?_,
      fun hbound t hrun => ?_⟩⟩⟩
    · exact hostRun_of_runStatus n hended (runStatus_of_faulted hr)
    · exact hostRun_of_runStatus n hended (runStatus_of_mem_haltAddrs hf hpc)
    · exact hostRun_of_runStatus n hended (runStatus_of_le_pc hf hpc hbound)
    · exact hostRun_of_runStatus n hended (runStatus_of_le_pc hf hpc (hprog.trans hpast))
    · exact hostRun_succ_of_runMacro n (fun _ => runStatus_of_pc_lt hf hpc hbound) hrun

end Sys2Proof.Machine

/-! Proofs of the family 70_reset_and_hazards: the host's load and reset. -/

namespace Sys2Proof.Machine

/-! ### The program image (R462) -/

/-- A load that ends by address 4095 does not wrap, so it leaves the words below its first address alone. -/
theorem Mem.read_loadFrom_below {ws : List Int} {i : Nat} {m : Mem} {p : Addr}
    (hfit : i + ws.length ≤ Config.memWords) (hp : p.toNat < i) : (Mem.loadFrom i ws m).read p = m.read p := by
  induction ws generalizing i m with
  | nil => rfl
  | cons w ws ih =>
    simp only [List.length_cons, Config.memWords] at hfit ih
    have hne : p ≠ BitVec.ofNat 12 i := by bv_omega
    rw [Mem.loadFrom, ih (by omega) (by omega), Mem.read_write_ne _ hne]

/-- After a load from address `i`, address `i + k` reads word `k` of the program, truncated, or what it read before
where the program has no such word. -/
theorem Mem.read_loadFrom {ws : List Int} {i k : Nat} {m : Mem} {p : Addr} (hm : m.wf = true)
    (hfit : i + ws.length ≤ Config.memWords) (hp : p.toNat = i + k) :
    (Mem.loadFrom i ws m).read p = (ws[k]?).elim (m.read p) to16 := by
  induction ws generalizing i k m with
  | nil => rfl
  | cons w ws ih =>
    have hrest : i + 1 + ws.length ≤ Config.memWords := by rw [List.length_cons] at hfit; omega
    rw [Mem.loadFrom]
    cases k with
    | zero =>
      obtain rfl : p = BitVec.ofNat 12 i := by bv_omega
      rw [Mem.read_loadFrom_below hrest (by omega), Mem.read_write_same _ _ hm]
      rfl
    | succ k =>
      have hne : p ≠ BitVec.ofNat 12 i := by bv_omega
      rw [ih (k := k) (Mem.wf_write _ _ hm) hrest (by omega), Mem.read_write_ne _ hne, List.getElem?_cons_succ]

theorem hostLoad_of_fits {words : List Int} (s : State) (h : words.length ≤ Config.memWords) :
    hostLoad words s = some { s with mem := Mem.loadFrom 0 words s.mem, nProg := words.length } :=
  if_pos h

theorem hostLoad_of_overlong {words : List Int} (s : State) (h : Config.memWords < words.length) :
    hostLoad words s = none :=
  if_neg (Nat.not_le.2 h)

/-- A boot whose assembly fails neither resets nor loads (R462). -/
theorem hostBoot_of_assemble_error (spReset : Word) {lines : List (List Char)} {e : AsmError} (s : State)
    (h : assemble lines = .error e) : hostBoot spReset lines s = (s, .error e) := by
  rw [hostBoot, h]

/-- Settles O3: the words are written one after another from address 0, and no later word falls on an earlier address;
the other two clauses are the branches of `hostLoad` and `hostBoot` that load nothing. -/
theorem loadWritesTheProgramImage : Obligations.LoadWritesTheProgramImage := by
  refine fun words s hm => ⟨fun hfits => ⟨_, hostLoad_of_fits s hfits, fun p => ?_, rfl, rfl⟩,
    hostLoad_of_overlong s, fun spReset _ _ herr => hostBoot_of_assemble_error spReset s herr⟩
  exact Mem.read_loadFrom hm (by rwa [Nat.zero_add]) (Nat.zero_add _).symm

/-! ### The reset table (R460) -/

/-- The ten registers that reset zeroes lie apart from SP and the five constants. -/
theorem reg_hostReset_zeroed (spReset : Word) (s : State) :
    ∀ r ∈ [Reg.pc, .ac, .ir, .tir, .a, .b, .c, .d, .e, .f], (hostReset spReset s).reg r = 0x0000#16 := by
  simp only [List.forall_mem_cons]
  exact ⟨rfl, rfl, rfl, rfl, rfl, rfl, rfl, rfl, rfl, rfl, fun _ h => nomatch h⟩

theorem resetTable_hostReset (spReset : Word) (s : State) : ResetTable spReset (hostReset spReset s) where
  zeroed := reg_hostReset_zeroed spReset s
  sp := rfl
  zero := rfl
  pone := rfl
  mone := rfl
  amask := rfl
  smask := rfl
  flags := ⟨rfl, rfl⟩
  mpc := rfl
  phase := rfl
  mir := rfl
  mar := rfl
  mbr := rfl
  latches := ⟨rfl, rfl, rfl, rfl⟩
  controller := ⟨rfl, rfl, rfl⟩
  cycles := rfl
  fault := rfl
  memory := Mem.read_nil

/-- What a reset keeps of the machine's own reset state is already there. -/
theorem hostReset_resetWith (spReset : Word) :
    hostReset spReset (State.resetWith spReset) = State.resetWith spReset := rfl

/-- Settles O1: `hostReset` sets every row of the table, and the machine's own reset state is a reset of itself. -/
theorem resetRestoresTheResetTable : Obligations.ResetRestoresTheResetTable := fun spReset =>
  ⟨hostReset_resetWith spReset ▸ resetTable_hostReset spReset (State.resetWith spReset),
    fun s => ⟨resetTable_hostReset spReset s, rfl, rfl⟩⟩

end Sys2Proof.Machine

/-! Proofs of the family other: the encodings. Both levels decode what they encode (R91 to R96); the canonical words
(R104) and the operand fields (R94) are arithmetic of bit fields. -/

namespace Sys2Proof

/-! ### Macro-instruction words -/

theorem toNat_encodeA (op : BitVec 4) (x : BitVec 12) : (encodeA op x).toNat = op.toNat * 4096 + x.toNat := by
  rw [encodeA, BitVec.toNat_append, ← Nat.shiftLeft_add_eq_or_of_lt x.isLt, Nat.shiftLeft_eq]

theorem toNat_encodeS (op y : BitVec 8) : (encodeS op y).toNat = op.toNat * 256 + y.toNat := by
  rw [encodeS, BitVec.toNat_append, ← Nat.shiftLeft_add_eq_or_of_lt y.isLt, Nat.shiftLeft_eq]

/-- A format-A word carries its operand in bits 11:0 (R91). -/
theorem extractLsb'_encodeA (op : BitVec 4) (x : BitVec 12) : (encodeA op x).extractLsb' 0 12 = x :=
  BitVec.extractLsb'_append_eq_right

/-- A format-S word carries its operand in bits 7:0 (R92). -/
theorem extractLsb'_encodeS (op y : BitVec 8) : (encodeS op y).extractLsb' 0 8 = y :=
  BitVec.extractLsb'_append_eq_right

/-- Decoding a format-A word indexes the first table of R95 by its opcode. -/
theorem decodeMacro_encodeA {op : BitVec 4} (h : op.toNat < 15) (x : BitVec 12) :
    some (decodeMacro (encodeA op x)) =
      [Instr.lodd x, .stod x, .addd x, .subd x, .jpos x, .jzer x, .jump x, .loco x, .lodl x, .stol x, .addl x,
        .subl x, .jneg x, .jnze x, .call x][op.toNat]? := by
  have hop : (encodeA op x).toNat / 4096 = op.toNat := by rw [toNat_encodeA]; omega
  obtain ⟨hformatA, -⟩ := everyWordSelectsOneRoutine (encodeA op x)
  rw [extractLsb'_encodeA, hop] at hformatA
  exact hformatA h

theorem decodeMacro_insp (y : BitVec 8) : decodeMacro (encodeS 0xFC#8 y) = .insp y := by
  have hw : (encodeS 0xFC#8 y).toNat = 0xFC * 256 + y.toNat := toNat_encodeS _ y
  obtain ⟨-, hrest⟩ := everyWordSelectsOneRoutine (encodeS 0xFC#8 y)
  rw [extractLsb'_encodeS, hw, show (0xFC * 256 + y.toNat) / 512 % 8 = 6 by omega] at hrest
  exact Option.some.inj (hrest (by omega))

theorem decodeMacro_desp (y : BitVec 8) : decodeMacro (encodeS 0xFE#8 y) = .desp y := by
  have hw : (encodeS 0xFE#8 y).toNat = 0xFE * 256 + y.toNat := toNat_encodeS _ y
  obtain ⟨-, hrest⟩ := everyWordSelectsOneRoutine (encodeS 0xFE#8 y)
  rw [extractLsb'_encodeS, hw, show (0xFE * 256 + y.toNat) / 512 % 8 = 7 by omega] at hrest
  exact Option.some.inj (hrest (by omega))

/-- Settles O9: an operand is where decoding looks for it, and the opcode indexes R95's table at the instruction; a
word of format F is fixed. -/
theorem macroDecodeOfEncodeIsTheInstruction : Obligations.MacroDecodeOfEncodeIsTheInstruction := by
  intro i hi
  cases i with
  | lodd x => exact Option.some.inj (decodeMacro_encodeA (op := 0x0#4) (by decide) x)
  | stod x => exact Option.some.inj (decodeMacro_encodeA (op := 0x1#4) (by decide) x)
  | addd x => exact Option.some.inj (decodeMacro_encodeA (op := 0x2#4) (by decide) x)
  | subd x => exact Option.some.inj (decodeMacro_encodeA (op := 0x3#4) (by decide) x)
  | jpos x => exact Option.some.inj (decodeMacro_encodeA (op := 0x4#4) (by decide) x)
  | jzer x => exact Option.some.inj (decodeMacro_encodeA (op := 0x5#4) (by decide) x)
  | jump x | halt x => exact Option.some.inj (decodeMacro_encodeA (op := 0x6#4) (by decide) x)
  | loco x => exact Option.some.inj (decodeMacro_encodeA (op := 0x7#4) (by decide) x)
  | lodl x => exact Option.some.inj (decodeMacro_encodeA (op := 0x8#4) (by decide) x)
  | stol x => exact Option.some.inj (decodeMacro_encodeA (op := 0x9#4) (by decide) x)
  | addl x => exact Option.some.inj (decodeMacro_encodeA (op := 0xA#4) (by decide) x)
  | subl x => exact Option.some.inj (decodeMacro_encodeA (op := 0xB#4) (by decide) x)
  | jneg x => exact Option.some.inj (decodeMacro_encodeA (op := 0xC#4) (by decide) x)
  | jnze x => exact Option.some.inj (decodeMacro_encodeA (op := 0xD#4) (by decide) x)
  | call x => exact Option.some.inj (decodeMacro_encodeA (op := 0xE#4) (by decide) x)
  | insp y => exact decodeMacro_insp y
  | desp y => exact decodeMacro_desp y
  | pshi | popi | push | pop | retn | swap => rfl
  | _ => cases hi

/-! ### The microinstruction word -/

theorem AmuxSel.ofCode_code (sel : AmuxSel) : AmuxSel.ofCode sel.code = sel := by
  cases sel <;> rfl

theorem Cond.ofCode_code (cond : Cond) : Cond.ofCode cond.code = cond := by
  cases cond <;> rfl

theorem Reg.ofCode_code (r : Reg) : Reg.ofCode r.code = r := by
  cases r <;> rfl

/-- Each field is read at the bits where it was put, past the fields below it (R96). -/
theorem decodeMicro_encodeMicro (f : MicroFields) : decodeMicro (encodeMicro f) = f := by
  simp (disch := decide) only [decodeMicro, encodeMicro, BitVec.extractLsb'_append_eq_of_le,
    BitVec.extractLsb'_append_eq_right, BitVec.extractLsb'_eq_self, BitVec.getLsbD_append, BitVec.getLsbD_ofBool,
    Nat.reduceSub, Nat.reduceLT, Nat.reduceEqDiff, if_true, if_false, decide_true, decide_false, Bool.true_and,
    AmuxSel.ofCode_code, Cond.ofCode_code, AluOp.ofCode_code, ShiftOp.ofCode_code, Reg.ofCode_code]

/-- A one-bit field as a field. -/
theorem ofBool_getLsbD (w : MicroWord) (i : Nat) : BitVec.ofBool (w.getLsbD i) = w.extractLsb' i 1 := by
  ext j hj
  obtain rfl : j = 0 := by omega
  simp

/-- The 13 fields are adjacent, and together they are all 32 bits. -/
theorem encodeMicro_decodeMicro (w : MicroWord) : encodeMicro (decodeMicro w) = w := by
  simp (disch := decide) only [encodeMicro, decodeMicro, AmuxSel.code_ofCode, Cond.code_ofCode, AluOp.code_ofCode,
    ShiftOp.code_ofCode, Reg.code_ofCode, ofBool_getLsbD, BitVec.extractLsb'_append_extractLsb'_eq_extractLsb']
  exact BitVec.extractLsb'_eq_self

/-- Settles O11: the decoder and the encoder agree on where each field stands, and no bit lies outside the fields. -/
theorem microFieldsAndWordsCorrespond : Obligations.MicroFieldsAndWordsCorrespond :=
  ⟨decodeMicro_encodeMicro, encodeMicro_decodeMicro⟩

/-- Settles O8: each word is closed, and both decoders compute. -/
theorem writtenOutWordsDecode : Obligations.WrittenOutWordsDecode :=
  ⟨rfl, rfl, rfl, rfl, rfl, rfl, rfl⟩

/-! ### The canonical words (R104) -/

/-- A word is canonical if its ignored bits are 0: under opcode 15, bit 8 of format S and bits 8:0 of format F
(R105). -/
theorem isCanonicalWord_iff (w : Word) :
    isCanonicalWord w = true ↔
      w.toNat / 4096 < 15 ∨ (if 6 ≤ w.toNat / 512 % 8 then w.toNat / 256 % 2 = 0 else w.toNat % 512 = 0) := by
  have hbit8 : (w.extractLsb' 8 1).toNat = w.toNat / 256 % 2 := by
    rw [BitVec.extractLsb'_toNat, Nat.shiftRight_eq_div_pow]
  have hlow : (w.extractLsb' 0 9).toNat = w.toNat % 512 := BitVec.extractLsb'_toNat ..
  have hlt := w.isLt
  rw [isCanonicalWord, toNat_opcodeField, toNat_subopcodeField, hbit8, hlow]
  split
  case h_1 hop => split <;> simp [hop]
  case h_2 hop =>
    have hne : w.toNat / 4096 ≠ 15 := hop
    exact iff_of_true rfl (.inl (by omega))

/-- The encodings of the instructions in the first table of R95. -/
theorem encode_of_opcode {op : Nat} (h : op < 15) {x : BitVec 12} {i : Instr}
    (hi : some i = [Instr.lodd x, .stod x, .addd x, .subd x, .jpos x, .jzer x, .jump x, .loco x, .lodl x, .stol x,
      .addl x, .subl x, .jneg x, .jnze x, .call x][op]?) :
    encode i = .macroWord (encodeA (BitVec.ofNat 4 op) x) := by
  interval_cases op <;> obtain rfl := Option.some.inj hi <;> rfl

/-- The encodings of the instructions in the second table of R95. -/
theorem encode_of_subopcode {sub : Nat} (h : sub < 8) {y : BitVec 8} {i : Instr}
    (hi : some i = [Instr.pshi, .popi, .push, .pop, .retn, .swap, .insp y, .desp y][sub]?) :
    encode i = .macroWord (if 6 ≤ sub then encodeS (BitVec.ofNat 8 (0xF0 + 2 * sub)) y
      else BitVec.ofNat 16 (0xF000 + 512 * sub)) := by
  interval_cases sub <;> obtain rfl := Option.some.inj hi <;> rfl

/-- Encoding what a word decodes to clears the ignored bits. -/
theorem encode_decodeMacro (w : Word) :
    ∃ v : Word, encode (decodeMacro w) = .macroWord v ∧
      v.toNat = if w.toNat / 4096 < 15 then w.toNat
        else if 6 ≤ w.toNat / 512 % 8 then w.toNat - w.toNat / 256 % 2 * 256 else w.toNat - w.toNat % 512 := by
  obtain ⟨hformatA, hrest⟩ := everyWordSelectsOneRoutine w
  have hlt := w.isLt
  have hx : (w.extractLsb' 0 12).toNat = w.toNat % 4096 := BitVec.extractLsb'_toNat ..
  have hy : (w.extractLsb' 0 8).toNat = w.toNat % 256 := BitVec.extractLsb'_toNat ..
  by_cases hop : w.toNat / 4096 < 15
  · refine ⟨_, encode_of_opcode hop (hformatA hop), ?_⟩
    rw [if_pos hop, toNat_encodeA, hx, BitVec.toNat_ofNat]
    omega
  · refine ⟨_, encode_of_subopcode (Nat.mod_lt _ (by decide)) (hrest (by omega)), ?_⟩
    rw [if_neg hop]
    split
    · rw [toNat_encodeS, hy, BitVec.toNat_ofNat]
      omega
    · rw [BitVec.toNat_ofNat]
      omega

theorem isCanonicalWord_iff_encode (w : Word) :
    isCanonicalWord w = true ↔ encode (decodeMacro w) = .macroWord w := by
  obtain ⟨v, hv, hval⟩ := encode_decodeMacro w
  rw [isCanonicalWord_iff, hv, CodeWord.macroWord.injEq, ← BitVec.toNat_inj, hval]
  have hlt := w.isLt
  split_ifs <;> omega

/-- Settles O10: both readings of a canonical word say that its ignored bits are 0. -/
theorem canonicalWordsAreTheEncodings : Obligations.CanonicalWordsAreTheEncodings := by
  refine fun w => ⟨isCanonicalWord_iff_encode w, ?_⟩
  have hbyte : (w.extractLsb' 8 8).toNat = w.toNat / 256 := by
    rw [BitVec.extractLsb'_toNat, Nat.shiftRight_eq_div_pow]
    exact Nat.mod_eq_of_lt (Nat.div_lt_of_lt_mul w.isLt)
  rw [isCanonicalWord_iff]
  simp only [List.mem_cons, List.not_mem_nil, or_false, ne_eq, ← BitVec.toNat_inj, toNat_opcodeField, hbyte,
    BitVec.toNat_ofNat, Nat.reducePow, Nat.reduceMod]
  have hlt := w.isLt
  split_ifs <;> omega

namespace Machine

/-! ### The operand fields (R94) -/

theorem toNat_low12 (v : Word) : (low12 v).toNat = v.toNat % 4096 := BitVec.extractLsb'_toNat ..

theorem toNat_zext12 (x : BitVec 12) : (zext12 x).toNat = x.toNat := BitVec.toNat_setWidth_of_le (by decide)

theorem toNat_zext8 (y : BitVec 8) : (zext8 y).toNat = y.toNat := BitVec.toNat_setWidth_of_le (by decide)

/-- `w AND 0x0FFF` is the zero-extended address field. -/
theorem and_amask (w : Word) : w &&& 0x0FFF#16 = zext12 (w.extractLsb' 0 12) := by
  refine BitVec.eq_of_toNat_eq ?_
  rw [toNat_zext12, BitVec.toNat_and, BitVec.extractLsb'_toNat]
  exact Nat.and_two_pow_sub_one_eq_mod w.toNat 12

/-- `w AND 0x00FF` is the zero-extended constant field. -/
theorem and_smask (w : Word) : w &&& 0x00FF#16 = zext8 (w.extractLsb' 0 8) := by
  refine BitVec.eq_of_toNat_eq ?_
  rw [toNat_zext8, BitVec.toNat_and, BitVec.extractLsb'_toNat]
  exact Nat.and_two_pow_sub_one_eq_mod w.toNat 8

theorem toNat_low12_add (v v' : Word) :
    (low12 (v + v')).toNat = (v.toNat % 4096 + v'.toNat % 4096) % 4096 := by
  rw [toNat_low12, BitVec.toNat_add]
  omega

/-- A sum's low 12 bits do not depend on the opcode bits of its first term. -/
theorem low12_add_operand (w sp : Word) : low12 (w + sp) = low12 (sp + zext12 (w.extractLsb' 0 12)) := by
  refine BitVec.eq_of_toNat_eq ?_
  rw [toNat_low12_add, toNat_low12_add, toNat_zext12, BitVec.extractLsb'_toNat]
  omega

/-- Settles O13: each form reads a field, and a field is a remainder of the word. -/
theorem operandsAreZeroExtendedFields : Obligations.OperandsAreZeroExtendedFields := fun w sp =>
  ⟨toNat_low12 w, toNat_low12_add w sp, low12_add_operand w sp, and_amask w,
    (toNat_zext12 _).trans (toNat_low12 w), and_smask w,
    (toNat_zext8 _).trans (BitVec.extractLsb'_toNat ..)⟩

end Machine

end Sys2Proof

/-! Proofs of the family other: the macro-instructions, each with its results and its frame (R299 to R308, R339 to R346,
R379 to R386). -/

namespace Sys2Proof.Machine

/-! ### The frame R299, operation by operation

Between the fetch and the end part a macro-instruction reads and writes data and sets registers; its frame is kept by
each of these. -/

/-- What holds of `u` inside a macro-instruction that began in `s`: IR and TIR as fetched and decoded, and nothing of
the frame R299 lost. -/
structure MacroBody (k : Nat) (written : List Reg) (s u : State) : Prop where
  ir : u.reg .ir = s.fetchWord
  tir : u.reg .tir = s.fetchWord <<< k
  regs : RegsKept (.pc :: .ir :: .tir :: written) s u
  cycles : u.cycles = s.cycles
  sequencer : SequencerKept s u

section
variable {k n : Nat} {written : List Reg} {s u : State}

theorem MacroBody.fetchDecode (k : Nat) (written : List Reg) (s : State) :
    MacroBody k written s (s.fetchDecode k) where
  ir := rfl
  tir := rfl
  regs r hr := by
    simp only [List.mem_cons, not_or] at hr
    obtain ⟨hpc, hir, htir, -⟩ := hr
    rw [State.reg_fetchDecode, if_neg (Ne.symm htir), if_neg (Ne.symm hir), if_neg (Ne.symm hpc)]
  cycles := rfl
  sequencer := ⟨rfl, rfl, rfl, rfl, rfl, rfl, rfl, rfl, rfl⟩

theorem MacroBody.dataRead (h : MacroBody k written s u) (p : Addr) : MacroBody k written s (u.dataRead p) :=
  ⟨h.ir, h.tir, h.regs, h.cycles, h.sequencer⟩

theorem MacroBody.dataWrite (h : MacroBody k written s u) (p : Addr) (v : Word) :
    MacroBody k written s (u.dataWrite p v) :=
  ⟨h.ir, h.tir, h.regs, h.cycles, h.sequencer⟩

/-- PC and the registers listed for the instruction may be set. -/
theorem MacroBody.setReg (h : MacroBody k written s u) {r : Reg} (v : Word)
    (hr : r ≠ .ir ∧ r ≠ .tir ∧ r ∈ Reg.pc :: written) : MacroBody k written s (u.setReg r v) := by
  obtain ⟨hir, htir, hmem⟩ := hr
  refine ⟨?_, ?_, fun j hj => ?_, h.cycles, h.sequencer⟩
  · rw [State.reg_setReg, if_neg hir, h.ir]
  · rw [State.reg_setReg, if_neg htir, h.tir]
  · have hne : r ≠ j := by rintro rfl; simp_all
    rw [State.reg_setReg, if_neg hne, h.regs j hj]

/-- The end part completes the frame. -/
theorem MacroBody.retire (h : MacroBody k written s u) (la lb mux f : Word) (n : Nat) :
    MacroFrame k n written s (u.retire la lb mux f n) :=
  ⟨h.ir, h.tir, h.regs, congrArg (· + 4 * n) h.cycles, h.sequencer⟩

theorem MacroBody.localSum (h : MacroBody k written s u) (hr : Reg.a ∈ written) :
    MacroBody k written s u.localSum :=
  h.setReg _ ⟨by decide, by decide, List.mem_cons_of_mem _ hr⟩

theorem MacroBody.jumpTo (h : MacroBody k written s u) (x : BitVec 12) (n : Nat) :
    MacroFrame k n written s (u.jumpTo x n) :=
  (h.setReg _ ⟨by decide, by decide, List.mem_cons_self ..⟩).retire ..

end

theorem resultLeft_retire (u : State) (la lb mux f : Word) (n : Nat) : ResultLeft f (u.retire la lb mux f n) := by
  refine ⟨?_, ?_, rfl, rfl⟩
  · rw [State.retire_flagN, negativeFlag_eq, decide_eq_true_iff]
  · rw [State.retire_flagZ, zeroFlag, decide_eq_true_iff]

theorem latchesLeft_retire (u : State) (la lb mux f : Word) (n : Nat) :
    LatchesLeft la lb mux (u.retire la lb mux f n) := ⟨rfl, rfl, rfl⟩

/-- The SUB tail subtracts: it adds the complement to AC + 1 (R206). -/
theorem add_one_add_not (v m : Word) : v + 1#16 + ~~~m = v - m := by
  rw [BitVec.sub_eq_add_neg, BitVec.neg_eq_not_add, BitVec.add_assoc, BitVec.add_comm (1#16)]

/-! ### Memory and constants (43_macro_memory_arith.md) -/

/-- Settles O45: one read at x, and R299's end part on the result. -/
theorem directReadInstructionsCompute : Obligations.DirectReadInstructionsCompute := by
  intro x s m pc ac
  have hadd : m + ac = ac + m := BitVec.add_comm m ac
  have hsub : ac + 1#16 + ~~~m = ac - m := add_one_add_not ac m
  have body (written : List Reg) : MacroBody 3 written s ((s.fetchDecode 3).dataRead x) :=
    (MacroBody.fetchDecode 3 written s).dataRead x
  refine ⟨?lodd, ?addd, ?subd⟩
  case lodd =>
    exact ⟨_, rfl, ((body _).setReg _ (by decide)).retire .., rfl, rfl, ⟨rfl, rfl, rfl⟩, resultLeft_retire ..,
      latchesLeft_retire .., fun _ => rfl⟩
  case addd =>
    exact ⟨_, rfl, ((body _).setReg _ (by decide)).retire .., rfl, hadd, ⟨rfl, rfl, rfl⟩,
      hadd ▸ resultLeft_retire .., latchesLeft_retire .., fun _ => rfl⟩
  case subd =>
    exact ⟨_, rfl, (((body _).setReg _ (by decide)).setReg _ (by decide)).retire .., rfl, hsub, rfl, ⟨rfl, rfl, rfl⟩,
      hsub ▸ resultLeft_retire .., latchesLeft_retire .., fun _ => rfl⟩

/-- Settles O48: as the direct reads, at the local address, with the sum left in A until SUBL's tail overwrites it. -/
theorem localReadInstructionsCompute : Obligations.LocalReadInstructionsCompute := by
  intro x s la m pc ac sum
  have hadd : m + ac = ac + m := BitVec.add_comm m ac
  have hsub : ac + 1#16 + ~~~m = ac - m := add_one_add_not ac m
  have body : MacroBody 3 [.ac, .a] s ((s.fetchDecode 3).localSum.dataRead la) :=
    ((MacroBody.fetchDecode 3 _ s).localSum (by decide)).dataRead la
  refine ⟨?lodl, ?addl, ?subl⟩
  case lodl =>
    exact ⟨_, rfl, (body.setReg _ (by decide)).retire .., rfl, rfl, rfl, ⟨rfl, rfl, rfl⟩, resultLeft_retire ..,
      latchesLeft_retire .., fun _ => rfl⟩
  case addl =>
    exact ⟨_, rfl, (body.setReg _ (by decide)).retire .., rfl, hadd, rfl, ⟨rfl, rfl, rfl⟩,
      hadd ▸ resultLeft_retire .., latchesLeft_retire .., fun _ => rfl⟩
  case subl =>
    exact ⟨_, rfl, ((body.setReg _ (by decide)).setReg _ (by decide)).retire .., rfl, hsub, rfl, ⟨rfl, rfl, rfl⟩,
      hsub ▸ resultLeft_retire .., latchesLeft_retire .., fun _ => rfl⟩

/-- Settles O46: the one write of each is at its address, and a read after a write is the word written. -/
theorem storeInstructionsWriteOneWord : Obligations.StoreInstructionsWriteOneWord := by
  intro x s hm pc ac la
  have body (written : List Reg) := MacroBody.fetchDecode 3 written s
  exact ⟨⟨_, rfl, ((body _).dataWrite ..).retire .., rfl, Mem.read_write_same _ _ hm,
      fun _ => Mem.read_write_ne _, ⟨rfl, rfl, rfl⟩, resultLeft_retire .., latchesLeft_retire ..⟩,
    ⟨_, rfl, (((body _).localSum (by decide)).dataWrite ..).retire .., rfl, Mem.read_write_same _ _ hm, rfl,
      fun _ => Mem.read_write_ne _, ⟨rfl, rfl, rfl⟩, resultLeft_retire .., latchesLeft_retire ..⟩⟩

/-- Settles O56: the address of the next fetch is the one STOD wrote. -/
theorem storeIsSeenByTheNextFetch : Obligations.StoreIsSeenByTheNextFetch := by
  rintro x s hm rfl
  have hread : (s.mem.write (low12 (s.reg .pc + 1#16)) (s.reg .ac)).read (low12 (s.reg .pc + 1#16)) = s.reg .ac :=
    Mem.read_write_same _ _ hm
  exact ⟨_, rfl, hread, congrArg decodeMacro hread⟩

/-- A constant of 12 bits is not negative. -/
theorem zext12_nonneg (x : BitVec 12) : ¬ (zext12 x).toInt < 0 := by
  have hx := x.isLt
  have hval := toNat_zext12 x
  rw [BitVec.toInt_eq_toNat_of_lt (by omega)]
  omega

theorem zext12_eq_zero_iff (x : BitVec 12) : zext12 x = 0x0000#16 ↔ x = 0#12 := by
  rw [← BitVec.toNat_inj, ← BitVec.toNat_inj, toNat_zext12]
  rfl

/-- Settles O47: AC and the flags are those of the zero-extended operand. -/
theorem locoLoadsTheConstant : Obligations.LocoLoadsTheConstant := by
  intro x s
  let t := ((s.fetchDecode 3).setReg .ac (zext12 x)).retireOnOperand x 7
  have hresult : ResultLeft (zext12 x) t := resultLeft_retire ..
  have ⟨hneg, hzero, _⟩ := hresult
  exact ⟨t, rfl, ((MacroBody.fetchDecode 3 _ s).setReg _ (by decide)).retire .., rfl, toNat_zext12 x, ⟨rfl, rfl, rfl⟩,
    hresult, Bool.eq_false_iff.2 (mt hneg.1 (zext12_nonneg x)), hzero.trans (zext12_eq_zero_iff x),
    latchesLeft_retire .., fun _ => rfl⟩

/-! ### Jumps (44_macro_control.md) -/

/-- What every jump that is taken leaves (R339), after `n` microinstructions. -/
theorem jumpTo_leaves (x : BitVec 12) (s : State) (n : Nat) :
    let t := (s.fetchDecode 3).jumpTo x n
    MacroFrame 3 n [] s t ∧ t.reg .pc = zext12 x ∧ ResultLeft (zext12 x) t ∧
      LatchesLeft s.fetchWord (s.reg .amask) s.fetchWord t ∧ AccessLeft (low12 (s.reg .pc)) s.fetchWord t ∧
      MemKept s t :=
  ⟨(MacroBody.fetchDecode 3 [] s).jumpTo x n, rfl, resultLeft_retire .., latchesLeft_retire .., ⟨rfl, rfl, rfl⟩,
    fun _ => rfl⟩

/-- What a jump that is not taken leaves, its last entry passing `f` with `lb` on the B bus. -/
theorem notTaken_leaves (f lb : Word) (s : State) (n : Nat) :
    let t := (s.fetchDecode 3).retire f lb f f n
    MacroFrame 3 n [] s t ∧ t.reg .pc = s.reg .pc + 1#16 ∧ ResultLeft f t ∧ LatchesLeft f lb f t ∧
      AccessLeft (low12 (s.reg .pc)) s.fetchWord t ∧ MemKept s t :=
  ⟨(MacroBody.fetchDecode 3 [] s).retire .., rfl, resultLeft_retire .., latchesLeft_retire .., ⟨rfl, rfl, rfl⟩,
    fun _ => rfl⟩

/-- Settles O49: the test of each jump chooses between the two ends. -/
theorem conditionalJumpsTestTheAccumulator : Obligations.ConditionalJumpsTestTheAccumulator := by
  intro x s pc ac left taken
  have htaken : taken ((s.fetchDecode 3).jumpTo x 8) := jumpTo_leaves x s 8
  have hfallen : left 8 pc pc pc pc ((s.fetchDecode 3).retireOnPc 8) := notTaken_leaves pc pc s 8
  have htested : left 7 pc ac ac pc ((s.fetchDecode 3).retire ac pc ac ac 7) := notTaken_leaves ac pc s 7
  refine ⟨?jposTaken, ?jposNot, ?jzerTaken, ?jzerNot, ?jnegTaken, ?jnegNot, ?jnzeTaken, ?jnzeNot⟩
  case jposTaken | jzerTaken | jnegTaken | jnzeTaken => exact fun h => ⟨_, if_pos h, htaken⟩
  case jposNot => exact fun h => ⟨_, if_neg (Int.not_le.2 h), htested⟩
  case jzerNot => exact fun h => ⟨_, if_neg h, hfallen⟩
  case jnegNot => exact fun h => ⟨_, if_neg (Int.not_lt.2 h), hfallen⟩
  case jnzeNot => exact fun h => ⟨_, if_neg (not_not_intro h), htested⟩

/-- Settles O50: HALT and JUMP are one meaning, and a jump to its own address fetches the same word again. -/
theorem jumpAndHaltSetThePc : Obligations.JumpAndHaltSetThePc := by
  intro x s
  obtain ⟨hframe, hpc, hresult, hlatches, haccess, hmem⟩ := jumpTo_leaves x s 7
  refine ⟨rfl, _, rfl, hframe, toNat_zext12 x, fun hself => ?_, hresult, hlatches, haccess, hmem⟩
  have hstay := hpc.trans hself.symm
  exact ⟨hstay, (hmem _).trans (congrArg (fun v => s.word (low12 v)) hstay)⟩

/-- Settles O51: CALL's frame is a store and a jump, RETN's a read and two registers. -/
theorem callAndReturnUseTheStack : Obligations.CallAndReturnUseTheStack := by
  intro x s hm pc sp top m
  refine ⟨?call, ?retn⟩
  case call =>
    exact ⟨_, rfl, (((MacroBody.fetchDecode 4 _ s).setReg _ (by decide)).dataWrite ..).jumpTo .., rfl, rfl,
      Mem.read_write_same _ _ hm, fun _ => Mem.read_write_ne _, ⟨rfl, rfl, rfl⟩, resultLeft_retire ..,
      latchesLeft_retire ..⟩
  case retn =>
    exact ⟨_, rfl, ((((MacroBody.fetchDecode 6 _ s).dataRead _).setReg _ (by decide)).setReg _ (by decide)).retire ..,
      rfl, rfl, ⟨rfl, rfl, rfl⟩, resultLeft_retire .., latchesLeft_retire .., fun _ => rfl⟩

/-! ### The stack (45_macro_stack.md) -/

/-- Settles O52: PUSH stores below the old SP, POP reads at it. -/
theorem pushAndPopMoveTheAccumulator : Obligations.PushAndPopMoveTheAccumulator := by
  intro s hm pc sp ac top m
  refine ⟨?push, ?pop⟩
  case push =>
    exact ⟨_, rfl, (((MacroBody.fetchDecode 6 _ s).setReg _ (by decide)).dataWrite ..).retire .., rfl, rfl,
      Mem.read_write_same _ _ hm, fun _ => Mem.read_write_ne _, ⟨rfl, rfl, rfl⟩, resultLeft_retire ..,
      latchesLeft_retire ..⟩
  case pop =>
    exact ⟨_, rfl, ((((MacroBody.fetchDecode 6 _ s).dataRead _).setReg _ (by decide)).setReg _ (by decide)).retire ..,
      rfl, rfl, rfl, ⟨rfl, rfl, rfl⟩, resultLeft_retire .., latchesLeft_retire .., fun _ => rfl⟩

/-- Settles O53: a word read at one cell and written at the other; written where it was read, it changes nothing. -/
theorem indirectStackInstructionsCopyOneWord : Obligations.IndirectStackInstructionsCopyOneWord := by
  intro s hm pc sp cell top
  have body := MacroBody.fetchDecode 6 [.sp] s
  have hcopy (p q : Addr) (h : p = q) (r : Addr) : (s.mem.write q (s.mem.read p)).read r = s.mem.read r :=
    h ▸ Mem.read_write_read hm p r
  refine ⟨?pshi, ?popi⟩
  case pshi =>
    exact ⟨_, rfl, (((body.dataRead _).setReg _ (by decide)).dataWrite ..).retire .., rfl, rfl,
      Mem.read_write_same _ _ hm, fun _ => Mem.read_write_ne _, hcopy cell top, ⟨rfl, rfl, rfl⟩,
      resultLeft_retire .., latchesLeft_retire ..⟩
  case popi =>
    exact ⟨_, rfl, (((body.dataRead _).setReg _ (by decide)).dataWrite ..).retire .., rfl, rfl,
      Mem.read_write_same _ _ hm, fun _ => Mem.read_write_ne _, fun h => hcopy (low12 sp) cell h.symm,
      ⟨rfl, rfl, rfl⟩, resultLeft_retire .., latchesLeft_retire ..⟩

/-- Settles O54: A carries AC into SP, in either SWAP. -/
theorem swapExchangesAccumulatorAndStackPointer : Obligations.SwapExchangesAccumulatorAndStackPointer := by
  intro s pc
  have body := MacroBody.fetchDecode 6 [.ac, .sp, .a] s
  exact ⟨_, rfl, (((body.setReg _ (by decide)).setReg _ (by decide)).setReg _ (by decide)).retire .., rfl, rfl, rfl,
    rfl, ⟨rfl, rfl, rfl⟩, resultLeft_retire .., latchesLeft_retire .., fun _ => rfl, _, rfl, rfl, rfl, rfl⟩

/-- What the shared tail of INSP and DESP leaves (R206), with `v` in A. -/
theorem adjustSp_leaves (v : Word) (s : State) (n : Nat) :
    let t := ((s.fetchDecode 6).setReg .a v).adjustSp n
    MacroFrame 6 n [.sp, .a] s t ∧ t.reg .pc = s.reg .pc + 1#16 ∧ t.reg .a = v ∧ t.reg .sp = s.reg .sp + v ∧
      AccessLeft (low12 (s.reg .pc)) s.fetchWord t ∧ ResultLeft (s.reg .sp + v) t ∧
      LatchesLeft (s.reg .sp) v (s.reg .sp) t ∧ MemKept s t :=
  ⟨(((MacroBody.fetchDecode 6 _ s).setReg _ (by decide)).setReg _ (by decide)).retire .., rfl, rfl, rfl,
    ⟨rfl, rfl, rfl⟩, resultLeft_retire .., latchesLeft_retire .., fun _ => rfl⟩

theorem zext8_eq_ofNat (y : BitVec 8) : zext8 y = BitVec.ofNat 16 y.toNat := by
  have hy := y.isLt
  refine BitVec.eq_of_toNat_eq ?_
  rw [toNat_zext8, BitVec.toNat_ofNat, Nat.mod_eq_of_lt (by omega)]

/-- Settles O55: INSP leaves its operand in A, DESP the negated one. -/
theorem inspAndDespAdjustTheStackPointer : Obligations.InspAndDespAdjustTheStackPointer := by
  intro y s pc sp v
  have hv : zext8 y = v := zext8_eq_ofNat y
  have hinsp : exec (.insp y) s = .next (((s.fetchDecode 6).setReg .a v).adjustSp 11) := hv ▸ rfl
  have hdesp : exec (.desp y) s = .next (((s.fetchDecode 6).setReg .a (-v)).adjustSp 13) := by
    rw [BitVec.neg_eq_not_add, ← hv]
    rfl
  rw [BitVec.sub_eq_add_neg]
  exact ⟨⟨_, hinsp, adjustSp_leaves v s 11⟩, ⟨_, hdesp, adjustSp_leaves (-v) s 13⟩⟩

/-! ### Every macro-instruction -/

/-- Every macro-instruction completes within the frame of R299 and the registers of R23, and writes at most one word of
memory. -/
theorem exec_macro_frame {i : Instr} (h : i.isMacroLevel = true) (s : State) :
    ∃ k n t, exec i s = .next t ∧ MacroFrame k n (writtenRegs i) s t ∧
      (t.mem = s.mem ∨ ∃ p v, t.mem = s.mem.write p v) := by
  have body (k : Nat) (written : List Reg) := MacroBody.fetchDecode k written s
  cases i with
  | lodd | addd => exact ⟨_, _, _, rfl, (((body 3 [.ac]).dataRead _).setReg _ (by decide)).retire .., .inl rfl⟩
  | subd =>
    exact ⟨_, _, _, rfl, ((((body 3 [.ac, .a]).dataRead _).setReg _ (by decide)).setReg _ (by decide)).retire ..,
      .inl rfl⟩
  | stod => exact ⟨_, _, _, rfl, ((body 3 []).dataWrite ..).retire .., .inr ⟨_, _, rfl⟩⟩
  | loco => exact ⟨_, _, _, rfl, ((body 3 [.ac]).setReg _ (by decide)).retire .., .inl rfl⟩
  | lodl | addl =>
    exact ⟨_, _, _, rfl,
      ((((body 3 [.ac, .a]).localSum (by decide)).dataRead _).setReg _ (by decide)).retire .., .inl rfl⟩
  | subl =>
    have read := ((body 3 [.ac, .a]).localSum (by decide)).dataRead
    exact ⟨_, _, _, rfl, (((read _).setReg _ (by decide)).setReg _ (by decide)).retire .., .inl rfl⟩
  | stol =>
    exact ⟨_, _, _, rfl, (((body 3 [.a]).localSum (by decide)).dataWrite ..).retire .., .inr ⟨_, _, rfl⟩⟩
  | jump | halt => exact ⟨_, _, _, rfl, (body 3 []).jumpTo .., .inl rfl⟩
  | jpos | jzer | jneg | jnze =>
    simp only [exec, execJpos, execJzer, execJneg, execJnze]
    split
    · exact ⟨_, _, _, rfl, (body 3 []).jumpTo .., .inl rfl⟩
    · exact ⟨_, _, _, rfl, (body 3 []).retire .., .inl rfl⟩
  | call =>
    exact ⟨_, _, _, rfl, (((body 4 [.sp]).setReg _ (by decide)).dataWrite ..).jumpTo .., .inr ⟨_, _, rfl⟩⟩
  | pshi | popi =>
    exact ⟨_, _, _, rfl, ((((body 6 [.sp]).dataRead _).setReg _ (by decide)).dataWrite ..).retire ..,
      .inr ⟨_, _, rfl⟩⟩
  | push =>
    exact ⟨_, _, _, rfl, (((body 6 [.sp]).setReg _ (by decide)).dataWrite ..).retire .., .inr ⟨_, _, rfl⟩⟩
  | pop =>
    exact ⟨_, _, _, rfl, ((((body 6 [.ac, .sp]).dataRead _).setReg _ (by decide)).setReg _ (by decide)).retire ..,
      .inl rfl⟩
  | retn =>
    exact ⟨_, _, _, rfl, ((((body 6 [.sp]).dataRead _).setReg _ (by decide)).setReg _ (by decide)).retire ..,
      .inl rfl⟩
  | swap =>
    exact ⟨_, _, _, rfl,
      ((((body 6 [.ac, .sp, .a]).setReg _ (by decide)).setReg _ (by decide)).setReg _ (by decide)).retire ..,
      .inl rfl⟩
  | insp | desp =>
    exact ⟨_, _, _, rfl, (((body 6 [.sp, .a]).setReg _ (by decide)).setReg _ (by decide)).retire .., .inl rfl⟩
  | _ => cases h

/-- A macro-instruction that is no control transfer goes to the next address. -/
theorem exec_macro_pc {i : Instr} (h : i.isMacroLevel = true) (hretn : i ∉ [.retn])
    (hjump : ∀ x, i ∉ [.jpos x, .jzer x, .jump x, .halt x, .jneg x, .jnze x, .call x]) {s t : State}
    (ht : exec i s = .next t) : t.reg .pc = s.reg .pc + 1#16 := by
  cases i with
  | jpos x | jzer x | jump x | halt x | jneg x | jnze x | call x => exact absurd (by simp) (hjump x)
  | retn => exact absurd (by simp) hretn
  | lodd | stod | addd | subd | loco | lodl | stol | addl | subl | pshi | popi | push | pop | swap | insp | desp =>
    obtain rfl := Host.Outcome.next.inj ht
    rfl
  | _ => cases h

/-- Settles O44: the frame of each instruction, with its own registers. -/
theorem macroInstructionsWriteOnlyTheirRegisters : Obligations.MacroInstructionsWriteOnlyTheirRegisters := by
  intro i s h
  obtain ⟨k, n, t, ht, ⟨-, -, hregs, -, hseq⟩, -⟩ := exec_macro_frame h s
  exact ⟨t, ht, hregs, hseq, fun hretn hjump => exec_macro_pc h hretn hjump ht⟩

end Sys2Proof.Machine

/-! Proofs of the family other: the invariants of every step (R27, R29, R69, R180, R203, R204). -/

namespace Sys2Proof.Machine

/-! ### Coherence, whatever the control store holds -/

/-- FAULT is no part of coherence. -/
theorem State.Coherent.raise {s : State} (h : s.Coherent) (r : Fault) : (s.raise r).Coherent :=
  ⟨h.memory, h.mpc, h.staging, h.counters, h.store⟩

theorem subcycle_coherent {s t : State} (hs : s.Coherent) (h : subcycle s = .next t) : t.Coherent := by
  by_cases hf : s.fault = none
  · obtain ⟨u, hu, hcases⟩ := subcycle_advances hs hf
    obtain rfl := Host.Outcome.next.inj (h.symm.trans hu)
    rcases hcases with hfault | ⟨hadv, -⟩
    · obtain ⟨r, rfl⟩ := subcycle_raises hf h hfault
      exact hs.raise r
    · exact hadv.coherent
  · obtain rfl := Host.Outcome.next.inj (h.symm.trans (subcycle_faulted hf))
    exact hs

/-- Coherence is a property of memory and of what a macro-instruction keeps. -/
theorem State.Coherent.of_sequencerKept {s t : State} (hs : s.Coherent) (h : SequencerKept s t)
    (hm : t.mem.wf = true) : t.Coherent := by
  obtain ⟨hmpc, hphase, hmir, hrdc, hwrc, -, hcs, -⟩ := h
  obtain ⟨-, mpc, staging, counters, store⟩ := hs
  unfold State.mpcInRange at mpc
  unfold State.stagingConsistent at staging
  unfold State.countersInRange at counters
  rw [← hmpc] at mpc
  rw [← hphase, ← hmir] at staging
  rw [← hphase, ← hrdc, ← hwrc] at counters
  rw [← hcs] at store
  exact ⟨hm, mpc, staging, counters, store⟩

/-- A macro-instruction writes at most one word, which keeps memory canonical. -/
theorem exec_macro_memWf {i : Instr} (hi : i.isMacroLevel = true) {s t : State} (hm : s.mem.wf = true)
    (h : exec i s = .next t) : t.mem.wf = true := by
  obtain ⟨k, n, u, hu, -, hmem⟩ := exec_macro_frame hi s
  obtain rfl := Host.Outcome.next.inj (h.symm.trans hu)
  rcases hmem with hmem | ⟨p, v, hmem⟩ <;> rw [hmem]
  · exact hm
  · exact Mem.wf_write p v hm

theorem exec_macro_sequencer {i : Instr} (hi : i.isMacroLevel = true) {s t : State} (h : exec i s = .next t) :
    SequencerKept s t := by
  obtain ⟨u, hu, hseq⟩ := exec_macro_sequencerKept hi s
  obtain rfl := Host.Outcome.next.inj (h.symm.trans hu)
  exact hseq

theorem exec_macro_coherent {i : Instr} (hi : i.isMacroLevel = true) {s t : State} (hs : s.Coherent)
    (h : exec i s = .next t) : t.Coherent :=
  hs.of_sequencerKept (exec_macro_sequencer hi h) (exec_macro_memWf hi hs.memory h)

/-- Settles O34: subcycles and the closed meanings keep coherence, and every step is made of them. -/
theorem stepKeepsCoherence : Obligations.StepKeepsCoherence := fun _ _ =>
  step_keeps subcycle_coherent fun hs _ => exec_macro_coherent (decodeMacro_isMacroLevel _) hs

/-! ### The decided store -/

/-- What holds of every reachable state under the decided store: no fault is reachable there. -/
structure State.Decided (s : State) : Prop where
  coherent : s.Coherent
  under : s.UnderDecidedStore
  fault : s.fault = none

/-- The fields staged under the decided store are those of the entry at MPC. -/
theorem State.Decided.staged {s : State} (h : s.Decided) (hp : s.phase ≠ .phase1) :
    s.mir = some (decidedFields s.mpc.toNat) := by
  obtain ⟨f, hm⟩ := Option.ne_none_iff_exists'.1 fun hm => hp (h.coherent.staging.1.2 hm)
  have hf := h.under.staged f hm
  rw [decidedStore_getElem? h.coherent.mpc] at hf
  exact hm.trans hf.symm

/-- What a subcycle does under the decided store, phase by phase. -/
inductive DecidedSubcycle (f : MicroFields) (s : State) : State → Prop
  | stage (phase : s.phase = .phase1) :
      DecidedSubcycle f s { s with mir := some f, phase := .phase2, cycles := s.cycles + 1 }
  | request (phase : s.phase = .phase2) (mir : s.mir = some f) :
      DecidedSubcycle f s { requestEffect f s with phase := .phase3, cycles := s.cycles + 1 }
  | commit (phase : s.phase = .phase3) (mir : s.mir = some f) :
      DecidedSubcycle f s { commitEffect f s with phase := .phase4, cycles := s.cycles + 1 }
  | branch (phase : s.phase = .phase4) (mir : s.mir = some f) :
      DecidedSubcycle f s { s with
        mpc := BitVec.ofNat 8 (nextAddr f s.flagN s.flagZ s.mpc.toNat), mir := none, phase := .phase1,
        cycles := s.cycles + 1 }

theorem State.Decided.subcycle_cases {s t : State} (hs : s.Decided) (h : subcycle s = .next t) :
    DecidedSubcycle (decidedFields s.mpc.toNat) s t := by
  have hmpc : s.mpc.toNat < 79 := hs.coherent.mpc
  obtain ⟨hsh, hnext⟩ := nextAddr_lt_of_wellFormedAt (decidedFields_wellFormedAt hmpc)
  cases hp : s.phase with
  | phase1 =>
    have hw := State.microWord_of_lt hmpc (by rw [hs.under.store, decidedStore_getElem? hmpc])
    obtain rfl := Host.Outcome.next.inj (h.symm.trans (subcycle_phase1 hs.fault hp hw hsh))
    exact .stage hp
  | phase2 =>
    have hm := hs.staged (by simp [hp])
    obtain rfl := Host.Outcome.next.inj (h.symm.trans (subcycle_phase2 hs.fault hp hm))
    exact .request hp hm
  | phase3 =>
    have hm := hs.staged (by simp [hp])
    obtain rfl := Host.Outcome.next.inj (h.symm.trans (subcycle_phase3 hs.fault hp hm hsh))
    exact .commit hp hm
  | phase4 =>
    have hm := hs.staged (by simp [hp])
    obtain rfl := Host.Outcome.next.inj (h.symm.trans (subcycle_phase4 hs.fault hp hm (hnext ..)))
    exact .branch hp hm

/-- The five registers that hold constants (R20, R22). -/
def constantRegs : List Reg := [.zero, .pone, .mone, .amask, .smask]

theorem State.constantsIntact_of_kept {s t : State} (hs : s.constantsIntact = true)
    (h : ∀ r ∈ constantRegs, t.reg r = s.reg r) : t.constantsIntact = true := by
  simp only [constantRegs, List.forall_mem_cons] at h
  obtain ⟨hzero, hpone, hmone, hamask, hsmask, -⟩ := h
  rwa [State.constantsIntact, hzero, hpone, hmone, hamask, hsmask]

/-- No entry of the decided store writes a constant (R203). -/
theorem decidedFields_keeps_constants : ∀ k < 79, (decidedFields k).enc = true →
    ∀ r ∈ constantRegs, (decidedFields k).c ≠ r := by decide

/-- No macro-instruction writes a constant (R23). -/
theorem writtenRegs_disjoint_constants {i : Instr} :
    ∀ r ∈ constantRegs, r ∉ Reg.pc :: .ir :: .tir :: writtenRegs i := by
  cases i <;> simp [constantRegs, writtenRegs]

theorem commitEffect_constants {k : Nat} (hk : k < 79) (s : State) :
    ∀ r ∈ constantRegs, (commitEffect (decidedFields k) s).reg r = s.reg r := by
  intro r hr
  simp only [State.reg, commitEffect]
  split
  · next henc => rw [RegFile.get_set, if_neg (decidedFields_keeps_constants k hk henc r hr)]
  · rfl

theorem subcycle_decided {s t : State} (hs : s.Decided) (h : subcycle s = .next t) : t.Decided := by
  have hmpc : s.mpc.toNat < 79 := hs.coherent.mpc
  have hentry : (decidedStore[s.mpc.toNat]?).map decodeMicro = some (decidedFields s.mpc.toNat) := by
    rw [decidedStore_getElem? hmpc]
    rfl
  have hcases := hs.subcycle_cases h
  have hcoherent := subcycle_coherent hs.coherent h
  obtain ⟨-, ⟨store, constants, staged⟩, fault⟩ := hs
  cases hcases with
  | stage => exact ⟨hcoherent, ⟨store, constants, fun g hg => hentry.trans hg⟩, fault⟩
  | request => exact ⟨hcoherent, ⟨store, constants, staged⟩, fault⟩
  | commit =>
    exact ⟨hcoherent, ⟨store, State.constantsIntact_of_kept constants (commitEffect_constants hmpc s), staged⟩, fault⟩
  | branch => exact ⟨hcoherent, ⟨store, constants, fun g hg => absurd hg.symm (Option.some_ne_none g)⟩, fault⟩

theorem exec_macro_decided {i : Instr} (hi : i.isMacroLevel = true) {s t : State} (hs : s.Decided)
    (h : exec i s = .next t) : t.Decided := by
  obtain ⟨k, n, u, hu, ⟨-, -, hregs, -, hseq⟩, -⟩ := exec_macro_frame hi s
  obtain rfl := Host.Outcome.next.inj (h.symm.trans hu)
  obtain ⟨hcoherent, ⟨store, constants, staged⟩, fault⟩ := hs
  refine ⟨exec_macro_coherent hi hcoherent h, ⟨?_, ?_, ?_⟩, ?_⟩
  all_goals obtain ⟨hmpc, -, hmir, -, -, hfault, hcs, -⟩ := hseq
  · exact hcs.trans store
  · exact State.constantsIntact_of_kept constants fun r hr => hregs r (writtenRegs_disjoint_constants r hr)
  · rw [hmpc, hmir]
    exact staged
  · exact hfault.trans fault

theorem step_decided {s t : State} (hs : s.Decided) (h : step s = .next t) : t.Decided :=
  step_keeps subcycle_decided (fun hs _ => exec_macro_decided (decodeMacro_isMacroLevel _) hs) hs h

/-- Settles O35: a step starts from a core without a fault, so the state is one of those that a step keeps. -/
theorem stepKeepsTheDecidedStoreInvariant : Obligations.StepKeepsTheDecidedStoreInvariant := by
  intro s t hcoherent hunder h
  obtain ⟨hfault, -⟩ := step_cases h
  exact (step_decided ⟨hcoherent, hunder, hfault⟩ h).under

/-! ### Every operation completes -/

theorem subcycle_completes (s : State) : ∃ t, subcycle s = .next t := by
  by_cases hf : s.fault = none
  · obtain ⟨t, ht, -⟩ := runPhase_frame s
    exact ⟨s.endSubcycle t, by rw [subcycle_of_healthy hf, ht, andThen_next]⟩
  · exact ⟨s, subcycle_faulted hf⟩

theorem subcycles_complete (n : Nat) (s : State) : ∃ t, subcycles n s = .next t := by
  induction n generalizing s with
  | zero => exact ⟨s, rfl⟩
  | succ n ih =>
    obtain ⟨t, ht⟩ := subcycle_completes s
    rw [subcycles_succ_of_next n ht]
    exact ih t

theorem runMicroprogram_completes (n : Nat) (s : State) : ∃ t, runMicroprogram n s = .next t := by
  induction n generalizing s with
  | zero => exact ⟨s, rfl⟩
  | succ n ih =>
    obtain ⟨t, ht⟩ := subcycles_complete s.phase.remaining s
    rw [runMicroprogram, microstep, ht, andThen_next]
    split
    · exact ⟨t, rfl⟩
    · exact ih t

theorem advance_completes (s : State) : ∃ t, advance s = .next t := by
  unfold advance
  cases s.request with
  | subcycle => exact subcycle_completes s
  | microstep => exact subcycles_complete _ s
  | runMacro =>
    simp only [runMacro]
    split
    · obtain ⟨t, ht, -⟩ := exec_macro_sequencerKept (decodeMacro_isMacroLevel s.fetchWord) s
      exact ⟨t, ht⟩
    · exact runMicroprogram_completes runBound s

/-- Settles O37: a step of a core without a fault completes, and no state that steps keep has a fault. -/
theorem noFaultUnderTheDecidedStore : Obligations.NoFaultUnderTheDecidedStore := by
  intro s hcoherent hunder hfault
  obtain ⟨t, ht⟩ := advance_completes s
  have hstep : step s = .next t := by rw [step, hfault, ht]
  exact ⟨t, hstep, (step_decided ⟨hcoherent, hunder, hfault⟩ hstep).fault⟩

/-! ### Access pairing (R204)

The read counter and the write counter follow one rule, each with its own entries. -/

/-- The rule for one counter `n`: `second` says that the entry at MPC is the second of a pair, `asked` that the staged
entry has the request bit. -/
def PairedCounter (phase : Phase) (second asked : Prop) (n : Nat) : Prop :=
  match phase with
  | .phase1 | .phase2 => (second → n = 1) ∧ (¬ second → n = 0)
  | .phase3 => (second → n = 2) ∧ (¬ second → asked → n = 1) ∧ (¬ asked → n = 0)
  | .phase4 => (second → n = 0) ∧ (¬ second → asked → n = 1) ∧ (¬ asked → n = 0)

theorem State.accessesPaired_iff {s : State} :
    s.accessesPaired ↔
      PairedCounter s.phase (s.mpc.toNat ∈ secondReads) (∃ f, s.mir = some f ∧ f.rd = true) s.rdc ∧
        PairedCounter s.phase (s.mpc.toNat ∈ secondWrites) (∃ f, s.mir = some f ∧ f.wr = true) s.wrc := by
  unfold State.accessesPaired PairedCounter
  cases s.phase <;> simp only [and_assoc]

section
variable {second asked asked' : Prop} {n : Nat}

theorem PairedCounter.stage (h : PairedCounter .phase1 second asked n) : PairedCounter .phase2 second asked' n := h

/-- The second entry of a pair asks again, and its request is the second. -/
theorem PairedCounter.request {b : Bool} (h : PairedCounter .phase2 second asked n) (hasks : second → b = true)
    (hb : asked' ↔ b = true) : PairedCounter .phase3 second asked' (n + b.toNat) := by
  obtain ⟨hpending, hidle⟩ := h
  cases b <;> simp_all [PairedCounter]

/-- Phase 3 completes the access that was asked for twice. -/
theorem PairedCounter.commit (h : PairedCounter .phase3 second asked n) :
    PairedCounter .phase4 second asked (if 2 ≤ n then 0 else n) := by
  obtain ⟨hready, hone, hidle⟩ := h
  refine ⟨fun hs => ?_, fun hs ha => ?_, fun ha => ?_⟩
  · rw [hready hs]
    rfl
  · rw [hone hs ha]
    rfl
  · rw [hidle ha]
    rfl

/-- The entry that follows is the second of a pair exactly if this one asked first. -/
theorem PairedCounter.branch {second' : Prop} (h : PairedCounter .phase4 second asked n)
    (hnext : second' ↔ ¬ second ∧ asked) : PairedCounter .phase1 second' asked' n := by
  obtain ⟨hdone, hfirst, hidle⟩ := h
  refine ⟨fun hs' => ?_, fun hs' => ?_⟩
  · obtain ⟨hs, ha⟩ := hnext.1 hs'
    exact hfirst hs ha
  · by_cases ha : asked
    · exact hdone (not_not.1 fun hs => hs' (hnext.2 ⟨hs, ha⟩))
    · exact hidle ha

end

/-- The second entry of a pair has the request bit of the pair (R204). -/
theorem decidedFields_second_asks : ∀ k < 79,
    (k ∈ secondReads → (decidedFields k).rd = true) ∧ (k ∈ secondWrites → (decidedFields k).wr = true) := by decide

/-- Whatever the flags, an entry is followed by the second entry of a pair exactly if it is the first of one
(R204). -/
theorem decidedFields_second_follows : ∀ k < 79, ∀ n z : Bool,
    (nextAddr (decidedFields k) n z k ∈ secondReads ↔ k ∉ secondReads ∧ (decidedFields k).rd = true) ∧
      (nextAddr (decidedFields k) n z k ∈ secondWrites ↔ k ∉ secondWrites ∧ (decidedFields k).wr = true) := by decide

/-- What the staged fields ask for, once they are known. -/
theorem asked_iff {o : Option MicroFields} {f : MicroFields} (h : o = some f) (bit : MicroFields → Bool) :
    (∃ g, o = some g ∧ bit g = true) ↔ bit f = true := by
  simp [h]

theorem subcycle_accessesPaired {s t : State} (hs : s.Decided) (hpaired : s.accessesPaired)
    (h : subcycle s = .next t) : t.accessesPaired := by
  have hmpc : s.mpc.toNat < 79 := hs.coherent.mpc
  obtain ⟨hread, hwrite⟩ := decidedFields_second_asks _ hmpc
  obtain ⟨hr, hw⟩ := State.accessesPaired_iff.1 hpaired
  rw [State.accessesPaired_iff]
  cases hs.subcycle_cases h with
  | stage phase =>
    rw [phase] at hr hw
    exact ⟨hr.stage, hw.stage⟩
  | request phase mir =>
    rw [phase] at hr hw
    exact ⟨hr.request hread (asked_iff mir _), hw.request hwrite (asked_iff mir _)⟩
  | commit phase mir =>
    rw [phase] at hr hw
    exact ⟨hr.commit, hw.commit⟩
  | branch phase mir =>
    rw [phase, asked_iff mir] at hr hw
    obtain ⟨hreads, hwrites⟩ := decidedFields_second_follows _ hmpc s.flagN s.flagZ
    obtain ⟨-, hnext⟩ := nextAddr_lt_of_wellFormedAt (decidedFields_wellFormedAt hmpc)
    have hwide := (hnext s.flagN s.flagZ).trans (show 79 < 2 ^ 8 by decide)
    simp only [BitVec.toNat_ofNat, Nat.mod_eq_of_lt hwide]
    exact ⟨hr.branch hreads, hw.branch hwrites⟩

/-- The macro-instruction rules start and end with no access pending (R299). -/
theorem accessesPaired_of_sequencerKept {s t : State} (hs : s.macroReady = true) (h : SequencerKept s t) :
    t.accessesPaired := by
  obtain ⟨hmpc, hphase, -, -, hrdc, hwrc, -⟩ := State.macroReady_iff.1 hs
  obtain ⟨kmpc, kphase, -, krdc, kwrc, -⟩ := h
  rw [State.accessesPaired_iff, kphase, hphase, kmpc, hmpc, krdc, hrdc, kwrc, hwrc]
  simp [PairedCounter, secondReads, secondWrites]

/-- At a boundary MPC is at entry 0, which is the second of no pair. -/
theorem idle_of_accessesPaired {s : State} (hpaired : s.accessesPaired) (hs : s.atBoundary = true) :
    s.rdc = 0 ∧ s.wrc = 0 := by
  simp only [State.atBoundary, Bool.and_eq_true, decide_eq_true_eq] at hs
  obtain ⟨hmpc, hphase⟩ := hs
  obtain ⟨hr, hw⟩ := State.accessesPaired_iff.1 hpaired
  rw [hphase, hmpc] at hr hw
  exact ⟨hr.2 (by decide), hw.2 (by decide)⟩

/-- Settles O36: each subcycle moves both counters as the rule of R204 moves, and a closed meaning leaves them at 0. -/
theorem stepKeepsAccessesPaired : Obligations.StepKeepsAccessesPaired := by
  refine ⟨fun s t hcoherent hunder hpaired h => ?_, fun s => idle_of_accessesPaired⟩
  obtain ⟨hfault, -⟩ := step_cases h
  have hstep := step_keeps (P := fun u => u.Decided ∧ u.accessesPaired)
    (fun ⟨hd, hp⟩ h => ⟨subcycle_decided hd h, subcycle_accessesPaired hd hp h⟩)
    (fun ⟨hd, _⟩ hready h => ⟨exec_macro_decided (decodeMacro_isMacroLevel _) hd h,
      accessesPaired_of_sequencerKept hready (exec_macro_sequencer (decodeMacro_isMacroLevel _) h)⟩)
    ⟨⟨hcoherent, hunder, hfault⟩, hpaired⟩ h
  exact hstep.2

/-! ### Reset (R460) -/

theorem coherent_resetWith (spReset : Word) : (State.resetWith spReset).Coherent where
  memory := Mem.wf_nil
  mpc := show 0 < 79 by decide
  staging := ⟨⟨fun _ => rfl, fun _ => rfl⟩, fun f hf => absurd hf.symm (Option.some_ne_none f)⟩
  counters := ⟨fun hp => (nomatch (show Phase.phase1 = .phase3 from hp)), fun _ => ⟨Nat.zero_le _, Nat.zero_le _⟩⟩
  store := rfl

theorem underDecidedStore_resetWith (spReset : Word) : (State.resetWith spReset).UnderDecidedStore where
  store := rfl
  constants := rfl
  staged f hf := absurd hf.symm (Option.some_ne_none f)

theorem macroReady_resetWith (spReset : Word) : (State.resetWith spReset).macroReady = true :=
  State.macroReady_iff.2 ⟨rfl, rfl, rfl, rfl, rfl, rfl, rfl, rfl⟩

/-- Settles O2: a reset state is at entry 0 of the decided store, with nothing staged or pending, its constants in place
and memory empty. -/
theorem resetStatesMeetTheInvariants : Obligations.ResetStatesMeetTheInvariants := fun spReset =>
  ⟨coherent_resetWith spReset, underDecidedStore_resetWith spReset,
    accessesPaired_of_sequencerKept (macroReady_resetWith spReset) ⟨rfl, rfl, rfl, rfl, rfl, rfl, rfl, rfl, rfl⟩,
    macroReady_resetWith spReset⟩

end Sys2Proof.Machine

/-! Proofs of the family other: the closed meaning of a macro-instruction is its microprogram (R200, R299).

The microprogram is folded into the data effects of the entries it passes (`State.runEntries`); groups of entries are
shown to be the operations that the closed meanings are made of, and every path is put together from such groups. -/

namespace Sys2Proof.Machine

/-! ### The entries' effects on data -/

/-- What entry `k` of the decided store does to all but the sequencer and CYCLES: phases 2 and 3 (R182). -/
def State.runEntry (s : State) (k : Nat) : State :=
  commitEffect (decidedFields k) (requestEffect (decidedFields k) s)

/-- The effects of the entries of a path, one after another. -/
def State.runEntries (s : State) (path : List Nat) : State := path.foldl State.runEntry s

theorem State.runEntries_cons (s : State) (k : Nat) (path : List Nat) :
    s.runEntries (k :: path) = (s.runEntry k).runEntries path := rfl

theorem State.runEntries_append (s : State) (p q : List Nat) :
    s.runEntries (p ++ q) = (s.runEntries p).runEntries q := List.foldl_append

/-- The sequencer's fields and CYCLES of a state that is about to run a microinstruction. -/
def State.placed (s : State) (mpc : MicroAddr) (cycles : Nat) : State :=
  { s with mpc := mpc, mir := none, phase := .phase1, cycles := cycles }

/-- A microinstruction of the decided store is its entry's effect on data, at the next place. -/
theorem afterMicro_placed (s : State) (mpc : MicroAddr) (c k : Nat) :
    ∃ mpc', (s.placed mpc c).afterMicro (decidedFields k) = (s.runEntry k).placed mpc' (c + 4) := ⟨_, rfl⟩

/-- The microprogram is the effects of the entries on its path. -/
theorem runMicroprogram_placed {n k c : Nat} {s : State} {mpc : MicroAddr} (hat : (s.placed mpc c).AtEntry k) :
    ∃ mpc', runMicroprogram n (s.placed mpc c) =
      .next ((s.runEntries (microPath n (s.placed mpc c))).placed mpc'
        (c + 4 * (microPath n (s.placed mpc c)).length)) := by
  induction n generalizing k c s mpc with
  | zero => exact ⟨mpc, rfl⟩
  | succ n ih =>
    obtain ⟨mpc', hmicro⟩ := afterMicro_placed s mpc c k
    have hat' := hat.next
    rw [microPath, runMicroprogram, microstep_atEntry hat, andThen_next, hat.mpc]
    rw [hmicro] at hat' ⊢
    by_cases hend : ((s.runEntry k).placed mpc' (c + 4)).atBoundary = true
    · have hended := hat'.macroEnded_iff.2 (hat'.atBoundary_iff.1 hend)
      exact ⟨mpc', by simp only [hend, hended, if_true]; rfl⟩
    · have hgoing := mt (fun h => hat'.atBoundary_iff.2 (hat'.macroEnded_iff.1 h)) hend
      obtain ⟨mpc'', hrun⟩ := ih hat'
      refine ⟨mpc'', ?_⟩
      simp only [if_neg hend, if_neg hgoing, hrun, State.runEntries_cons, List.length_cons]
      congr 2
      omega

/-- The effects of entries leave the sequencer and CYCLES alone. -/
theorem State.runEntries_keeps (s : State) (path : List Nat) :
    (s.runEntries path).mpc = s.mpc ∧ (s.runEntries path).mir = s.mir ∧ (s.runEntries path).phase = s.phase ∧
      (s.runEntries path).cycles = s.cycles := by
  induction path generalizing s with
  | nil => exact ⟨rfl, rfl, rfl, rfl⟩
  | cons k path ih => exact ih (s.runEntry k)

/-- From where R299 begins, the microprogram is the effects of the listed path, and the time it takes. -/
theorem runMicroprogram_of_macroReady {s : State} (hs : s.macroReady = true) {n : Nat} (hn : 13 ≤ n) :
    runMicroprogram n s = .next ((s.runEntries (listedPath s.nextInstr (s.reg .ac))).bump
      (4 * (listedPath s.nextInstr (s.reg .ac)).length)) := by
  obtain ⟨hmpc, hphase, hmir, -⟩ := State.macroReady_iff.1 hs
  obtain ⟨hat, -⟩ := atEntry_knows_of_macroReady hs
  obtain ⟨hpath, t, ht, hboundary, -⟩ := microprogramFollowsTheListedPaths s hs
  have hplaced : s.placed s.mpc s.cycles = s := by
    rw [State.placed, ← hmir, ← hphase]
  obtain ⟨mpc', hrun⟩ := runMicroprogram_placed (n := 13) (s := s) (mpc := s.mpc) (c := s.cycles) (hplaced.symm ▸ hat)
  rw [hplaced, hpath, ht] at hrun
  obtain rfl := Host.Outcome.next.inj hrun
  have hzero : mpc' = 0#8 := by
    simp only [State.atBoundary, Bool.and_eq_true, decide_eq_true_eq] at hboundary
    exact hboundary.1
  rw [runMicroprogram_mono ht (by decide) hn (State.macroEnded_of_atBoundary hboundary)]
  obtain ⟨kmpc, kmir, kphase, kcycles⟩ := s.runEntries_keeps (listedPath s.nextInstr (s.reg .ac))
  rw [State.placed, State.bump, hzero, kcycles, ← hmpc, ← kmpc, ← hmir, ← kmir, ← hphase, ← kphase]

/-! ### Groups of entries

Between accesses, with its constants in place, a state that passes a group of entries is one that an operation of the
closed meanings leads to, up to the latches and the flags, which every entry writes before it reads. -/

/-- Nothing is pending and the constants are in place. -/
structure State.Idle (s : State) : Prop where
  rdc : s.rdc = 0
  wrc : s.wrc = 0
  constants : s.constantsIntact = true

/-- The state with nothing pending and the constants in place. -/
def State.settled (s : State) : State :=
  { s with rdc := 0, wrc := 0, regs := { s.regs with
      zero := 0x0000#16, pone := 0x0001#16, mone := 0xFFFF#16, amask := 0x0FFF#16, smask := 0x00FF#16 } }

theorem State.settled_idle (s : State) : s.settled.Idle := ⟨rfl, rfl, rfl⟩

theorem State.Idle.settled_eq {s : State} (h : s.Idle) : s.settled = s := by
  obtain ⟨hrdc, hwrc, hconst⟩ := h
  simp only [State.constantsIntact, Bool.and_eq_true, decide_eq_true_eq, and_assoc] at hconst
  obtain ⟨hzero, hpone, hmone, hamask, hsmask⟩ := hconst
  obtain ⟨regs⟩ := s
  obtain ⟨⟩ := regs
  simp only [State.reg, RegFile.get] at *
  subst hrdc hwrc hzero hpone hmone hamask hsmask
  rfl

/-- The state with the latches and the flags cleared. -/
def State.unlatched (s : State) : State :=
  { s with
    flagN := false, flagZ := false, alat := 0x0000#16, blat := 0x0000#16, ain := 0x0000#16, aluout := 0x0000#16,
    shout := 0x0000#16 }

/-- No entry reads a latch or a flag. -/
theorem State.unlatched_runEntry (s : State) (k : Nat) : s.unlatched.runEntry k = s.runEntry k := rfl

theorem runEntries_of_unlatched {s u : State} (h : s.unlatched = u.unlatched) {path : List Nat} (hpath : path ≠ []) :
    s.runEntries path = u.runEntries path := by
  cases path with
  | nil => exact absurd rfl hpath
  | cons k path =>
    rw [State.runEntries_cons, State.runEntries_cons, ← s.unlatched_runEntry, h, u.unlatched_runEntry]

/-- The entries `path` lead from `s` to `u`, up to the latches and the flags. -/
def Reaches (path : List Nat) (s u : State) : Prop :=
  s.Idle → u.Idle ∧ (s.runEntries path).unlatched = u.unlatched

/-- The entries `path`, the last of a macro-instruction, lead from `s` to `u`. -/
def Ends (path : List Nat) (s u : State) : Prop := s.Idle → path ≠ [] ∧ s.runEntries path = u

theorem Reaches.trans {p q : List Nat} {s u v : State} (h : Reaches p s u) (k : Reaches q u v) :
    Reaches (p ++ q) s v := by
  intro hs
  obtain ⟨hu, hp⟩ := h hs
  obtain ⟨hv, hq⟩ := k hu
  refine ⟨hv, ?_⟩
  rw [State.runEntries_append]
  by_cases hnil : q = []
  · subst hnil
    exact hp.trans hq
  · rw [runEntries_of_unlatched hp hnil, hq]

theorem Reaches.ends {p q : List Nat} {s u v : State} (h : Reaches p s u) (k : Ends q u v) : Ends (p ++ q) s v := by
  intro hs
  obtain ⟨hu, hp⟩ := h hs
  obtain ⟨hnil, hq⟩ := k hu
  exact ⟨by simp [hnil], by rw [State.runEntries_append, runEntries_of_unlatched hp hnil, hq]⟩

/-- A group of entries is an operation if it is on settled states. -/
theorem Reaches.of_settled {path : List Nat} {op : State → State}
    (h : ∀ s : State, (op s.settled).Idle ∧ (s.settled.runEntries path).unlatched = (op s.settled).unlatched)
    (s : State) : Reaches path s (op s) := fun hs => hs.settled_eq ▸ h s

theorem Ends.of_settled {k : Nat} {path : List Nat} {op : State → State}
    (h : ∀ s : State, s.settled.runEntries (k :: path) = op s.settled) (s : State) : Ends (k :: path) s (op s) :=
  fun hs => ⟨List.cons_ne_nil k path, hs.settled_eq ▸ h s⟩

/-! #### Fetch and decoding -/

/-- The fetch (entries 0 to 2). -/
theorem reaches_fetch (s : State) : Reaches [0, 1, 2] s s.fetch := by
  refine Reaches.of_settled (op := State.fetch) (fun s => ⟨⟨rfl, rfl, rfl⟩, ?_⟩) s
  simp only [State.fetch, ← to16_toInt_add]
  rfl

/-- What `k` bits of the decode tree leave in TIR. -/
def State.decoded (s : State) (k : Nat) : State := s.setReg .tir (s.reg .ir <<< k)

/-- The decode entries that begin with `IR + IR`, shifted. -/
def doublingEntries : List Nat := [3, 28]

/-- The decode entries that shift TIR. -/
def shiftingEntries : List Nat := [4, 19, 29, 40, 46, 50, 51, 65]

/-- The entries that pass TIR or AC and write nothing but latches and flags. -/
def testingEntries : List Nat := [5, 11, 20, 21, 23, 25, 30, 35, 41, 42, 44, 52, 59, 66, 73]

theorem add_self_shiftLeft (v : Word) : to16 (v.toInt + v.toInt) <<< 1 = v <<< 2 := by
  rw [to16_toInt_add, BitVec.shiftLeft_eq_mul_twoPow, BitVec.shiftLeft_eq_mul_twoPow]
  bv_omega

theorem reaches_double {k : Nat} (hk : k ∈ doublingEntries) (s : State) : Reaches [k] s (s.decoded 2) := by
  refine Reaches.of_settled (op := (State.decoded · 2)) (fun s => ⟨⟨rfl, rfl, rfl⟩, ?_⟩) s
  rw [State.decoded, ← add_self_shiftLeft]
  fin_cases hk <;> rfl

theorem reaches_shift {k : Nat} (hk : k ∈ shiftingEntries) (n : Nat) (s : State) :
    Reaches [k] (s.decoded n) (s.decoded (n + 1)) := by
  rw [show s.decoded (n + 1) = (s.decoded n).setReg .tir ((s.decoded n).reg .tir <<< 1) by
    rw [State.decoded, BitVec.shiftLeft_add]; rfl]
  refine Reaches.of_settled (op := fun s => s.setReg .tir (s.reg .tir <<< 1)) (fun s => ⟨⟨rfl, rfl, rfl⟩, ?_⟩) _
  fin_cases hk <;> rfl

theorem reaches_test {k : Nat} (hk : k ∈ testingEntries) (s : State) : Reaches [k] s s := by
  refine Reaches.of_settled (op := id) (fun s => ⟨s.settled_idle, ?_⟩) s
  fin_cases hk <;> rfl

theorem reaches_tests {tests : List Nat} (h : ∀ k ∈ tests, k ∈ testingEntries) (s : State) : Reaches tests s s := by
  induction tests with
  | nil => exact fun hs => ⟨hs, rfl⟩
  | cons k tests ih =>
    obtain ⟨hk, htests⟩ := List.forall_mem_cons.1 h
    exact (reaches_test hk s).trans (ih htests)

theorem reaches_shifts {shifts : List Nat} (h : ∀ k ∈ shifts, k ∈ shiftingEntries) (n : Nat) (s : State) :
    Reaches shifts (s.decoded n) (s.decoded (n + shifts.length)) := by
  induction shifts generalizing n with
  | nil => exact fun hs => ⟨hs, rfl⟩
  | cons k shifts ih =>
    obtain ⟨hk, hshifts⟩ := List.forall_mem_cons.1 h
    rw [List.length_cons, Nat.add_comm shifts.length, ← Nat.add_assoc]
    exact (reaches_shift hk n s).trans (ih hshifts (n + 1))

/-- Fetch, and a way through the decode tree. -/
theorem reaches_fetchDecode (k : Nat) (shifts tests : List Nat) (s : State)
    (hk : k ∈ doublingEntries := by decide) (hshifts : ∀ k ∈ shifts, k ∈ shiftingEntries := by decide)
    (htests : ∀ k ∈ tests, k ∈ testingEntries := by decide) :
    Reaches ([0, 1, 2] ++ [k] ++ shifts ++ tests) s (s.fetchDecode (2 + shifts.length)) :=
  (((reaches_fetch s).trans (reaches_double hk _)).trans (reaches_shifts hshifts _ _)).trans (reaches_tests htests _)

/-! #### Data accesses -/

/-- A read at the address in IR (entries 6 and 7, 12 and 13). -/
theorem reaches_readIr (k k' : Nat) (s : State) (hk : k ∈ [6, 12] := by decide) (hk' : k' ∈ [7, 13] := by decide) :
    Reaches [k, k'] s (s.dataRead (low12 (s.reg .ir))) := by
  refine Reaches.of_settled (op := fun s => s.dataRead (low12 (s.reg .ir))) (fun s => ⟨⟨rfl, rfl, rfl⟩, ?_⟩) s
  fin_cases hk <;> fin_cases hk' <;> rfl

/-- A read at the address in A (entries 32 and 7, 37 and 13). -/
theorem reaches_readA (k k' : Nat) (s : State) (hk : k ∈ [32, 37] := by decide) (hk' : k' ∈ [7, 13] := by decide) :
    Reaches [k, k'] s (s.dataRead (low12 (s.reg .a))) := by
  refine Reaches.of_settled (op := fun s => s.dataRead (low12 (s.reg .a))) (fun s => ⟨⟨rfl, rfl, rfl⟩, ?_⟩) s
  fin_cases hk <;> fin_cases hk' <;> rfl

/-- A read at the stack pointer, which is then raised (entries 56 and 57, 62 and 63, 67 and 68). -/
theorem reaches_readStack (k k' : Nat) (s : State) (hk : k ∈ [56, 62, 67] := by decide)
    (hk' : k' ∈ [57, 63, 68] := by decide) :
    Reaches [k, k'] s ((s.dataRead s.stackAddr).setReg .sp (s.reg .sp + 1#16)) := by
  refine Reaches.of_settled (op := fun s => (s.dataRead s.stackAddr).setReg .sp (s.reg .sp + 1#16))
    (fun s => ⟨⟨rfl, rfl, rfl⟩, ?_⟩) s
  rw [BitVec.add_comm, ← to16_toInt_add]
  fin_cases hk <;> fin_cases hk' <;> rfl

theorem sub_one_eq (v : Word) : v - 1#16 = to16 (v.toInt + (0xFFFF#16).toInt) := by
  rw [to16_toInt_add, BitVec.sub_eq_add_neg]
  rfl

/-- The stack pointer is lowered (entries 47 and 60). -/
theorem reaches_lowerSp (k : Nat) (s : State) (hk : k ∈ [47, 60] := by decide) :
    Reaches [k] s (s.setReg .sp (s.reg .sp - 1#16)) := by
  refine Reaches.of_settled (op := fun s => s.setReg .sp (s.reg .sp - 1#16)) (fun s => ⟨⟨rfl, rfl, rfl⟩, ?_⟩) s
  rw [sub_one_eq]
  fin_cases hk <;> rfl

/-- PSHI's read at AC, beside which the stack pointer is lowered (entries 53 and 54). -/
theorem reaches_readAc (s : State) :
    Reaches [53, 54] s ((s.dataRead (low12 (s.reg .ac))).setReg .sp (s.reg .sp - 1#16)) := by
  refine Reaches.of_settled (op := fun s => (s.dataRead (low12 (s.reg .ac))).setReg .sp (s.reg .sp - 1#16))
    (fun s => ⟨⟨rfl, rfl, rfl⟩, ?_⟩) s
  rw [sub_one_eq]
  rfl

/-- `A <- IR + SP` (entries 31, 33, 36 and 38). -/
theorem reaches_localSum (k : Nat) (s : State) (hk : k ∈ [31, 33, 36, 38] := by decide) : Reaches [k] s s.localSum := by
  refine Reaches.of_settled (op := State.localSum) (fun s => ⟨⟨rfl, rfl, rfl⟩, ?_⟩) s
  rw [State.localSum, ← to16_toInt_add]
  fin_cases hk <;> rfl

/-- INSP's constant in A, `IR AND SMASK` (entry 74). -/
theorem reaches_constant (s : State) :
    Reaches [74] s (s.setReg .a (zext8 ((s.reg .ir).extractLsb' 0 8))) := by
  refine Reaches.of_settled (op := fun s => s.setReg .a (zext8 ((s.reg .ir).extractLsb' 0 8)))
    (fun s => ⟨⟨rfl, rfl, rfl⟩, ?_⟩) s
  rw [← and_smask]
  rfl

/-- DESP negates it in A (entries 76 to 78). -/
theorem reaches_negatedConstant (s : State) :
    Reaches [76, 77, 78] s (s.setReg .a (~~~(zext8 ((s.reg .ir).extractLsb' 0 8)) + 1#16)) := by
  refine Reaches.of_settled (op := fun s => s.setReg .a (~~~(zext8 ((s.reg .ir).extractLsb' 0 8)) + 1#16))
    (fun s => ⟨⟨rfl, rfl, rfl⟩, ?_⟩) s
  rw [← and_smask, ← to16_toInt_add]
  rfl

/-- SWAP's first move (entry 70). -/
theorem reaches_saveAc (s : State) : Reaches [70] s (s.setReg .a (s.reg .ac)) :=
  Reaches.of_settled (op := fun s => s.setReg .a (s.reg .ac)) (fun _ => ⟨⟨rfl, rfl, rfl⟩, rfl⟩) s

/-- SWAP's second move (entry 71). -/
theorem reaches_loadSp (s : State) : Reaches [71] s (s.setReg .ac (s.reg .sp)) :=
  Reaches.of_settled (op := fun s => s.setReg .ac (s.reg .sp)) (fun _ => ⟨⟨rfl, rfl, rfl⟩, rfl⟩) s

/-! #### The last entries

The end part of a closed meaning is what the last entry leaves in the latches and the flags (R299). -/

theorem State.retire_eq (s : State) (la lb mux f : Word) :
    s.retire la lb mux f 0 = { s with
      flagN := decide (f.toInt < 0), flagZ := decide (f = 0x0000#16), alat := la, blat := lb, ain := mux,
      aluout := f, shout := f } := by
  rw [State.retire, State.setFlags, negativeFlag_eq]
  rfl

/-- AC is loaded with MBR (entries 8 and 64). -/
theorem ends_loadAc (k : Nat) (s : State) (hk : k ∈ [8, 64] := by decide) :
    Ends [k] s ((s.setReg .ac s.mbr).retireOnMbr 0) := by
  refine Ends.of_settled (op := fun s => (s.setReg .ac s.mbr).retireOnMbr 0) (fun s => ?_) s
  rw [State.retireOnMbr, State.retire_eq]
  fin_cases hk <;> rfl

theorem ends_addTail (s : State) : Ends [14] s (s.addTail 0) := by
  refine Ends.of_settled (op := (State.addTail · 0)) (fun s => ?_) s
  rw [State.addTail, State.retire_eq, ← to16_toInt_add]
  rfl

/-- The SUB tail, with the read that it waits for, at the address in IR or in A (R206). -/
theorem ends_subTail (k : Nat) (r : Reg) (s : State) (hk : k = 15 ∧ r = .ir ∨ k = 39 ∧ r = .a := by decide) :
    Ends [k, 16, 17, 18] s ((s.dataRead (low12 (s.reg r))).subTail 0) := by
  refine Ends.of_settled (op := fun s => (s.dataRead (low12 (s.reg r))).subTail 0) (fun s => ?_) s
  simp only [State.subTail, State.retire_eq, ← to16_toInt_add]
  rcases hk with ⟨rfl, rfl⟩ | ⟨rfl, rfl⟩ <;> rfl

/-- AC is stored at the address in IR, in A, or in SP (R206, the shared write tail). -/
theorem ends_storeAc (k : Nat) (r : Reg) (s : State)
    (hk : k = 9 ∧ r = .ir ∨ k = 34 ∧ r = .a ∨ k = 61 ∧ r = .sp := by decide) :
    Ends [k, 10] s ((s.dataWrite (low12 (s.reg r)) (s.reg .ac)).retireOnPc 0) := by
  refine Ends.of_settled (op := fun s => (s.dataWrite (low12 (s.reg r)) (s.reg .ac)).retireOnPc 0)
    (fun s => ?_) s
  rw [State.retireOnPc, State.retire_eq]
  rcases hk with ⟨rfl, rfl⟩ | ⟨rfl, rfl⟩ | ⟨rfl, rfl⟩ <;> rfl

/-- MBR is stored at the address in SP or in AC (PSHI and POPI). -/
theorem ends_storeMbr (k : Nat) (r : Reg) (s : State) (hk : k = 55 ∧ r = .sp ∨ k = 58 ∧ r = .ac := by decide) :
    Ends [k, 10] s ((s.dataWrite (low12 (s.reg r)) s.mbr).retireOnPc 0) := by
  refine Ends.of_settled (op := fun s => (s.dataWrite (low12 (s.reg r)) s.mbr).retireOnPc 0)
    (fun s => ?_) s
  rw [State.retireOnPc, State.retire_eq]
  rcases hk with ⟨rfl, rfl⟩ | ⟨rfl, rfl⟩ <;> rfl

/-- `PC <- IR AND AMASK` (entries 22, 26 and 45). -/
theorem ends_jump (k : Nat) (s : State) (hk : k ∈ [22, 26, 45] := by decide) :
    Ends [k] s (s.jumpTo (low12 (s.reg .ir)) 0) := by
  refine Ends.of_settled (op := fun s => s.jumpTo (low12 (s.reg .ir)) 0) (fun s => ?_) s
  rw [State.jumpTo, State.retireOnOperand, State.retire_eq, low12, ← and_amask]
  fin_cases hk <;> rfl

/-- `AC <- IR AND AMASK` (entry 27). -/
theorem ends_loco (s : State) :
    Ends [27] s ((s.setReg .ac (zext12 (low12 (s.reg .ir)))).retireOnOperand (low12 (s.reg .ir)) 0) := by
  refine Ends.of_settled
    (op := fun s => (s.setReg .ac (zext12 (low12 (s.reg .ir)))).retireOnOperand (low12 (s.reg .ir)) 0)
    (fun s => ?_) s
  rw [State.retireOnOperand, State.retire_eq, low12, ← and_amask]
  rfl

/-- A jump that is not taken ends by passing AC (entries 21 and 44). -/
theorem ends_passAc (k : Nat) (s : State) (hk : k ∈ [21, 44] := by decide) :
    Ends [k] s (s.retire (s.reg .ac) (s.reg .pc) (s.reg .ac) (s.reg .ac) 0) := by
  refine Ends.of_settled (op := fun s => s.retire (s.reg .ac) (s.reg .pc) (s.reg .ac) (s.reg .ac) 0)
    (fun s => ?_) s
  rw [State.retire_eq]
  fin_cases hk <;> rfl

/-- A jump that is not taken ends by passing PC (entries 24 and 43). -/
theorem ends_passPc (k : Nat) (s : State) (hk : k ∈ [24, 43] := by decide) : Ends [k] s (s.retireOnPc 0) := by
  refine Ends.of_settled (op := (State.retireOnPc · 0)) (fun s => ?_) s
  rw [State.retireOnPc, State.retire_eq]
  fin_cases hk <;> rfl

/-- CALL stores PC, and jumps beside the second write (entries 48 and 49). -/
theorem ends_call (s : State) :
    Ends [48, 49] s ((s.dataWrite s.stackAddr (s.reg .pc)).jumpTo (low12 (s.reg .ir)) 0) := by
  refine Ends.of_settled (op := fun s => (s.dataWrite s.stackAddr (s.reg .pc)).jumpTo (low12 (s.reg .ir)) 0)
    (fun s => ?_) s
  rw [State.jumpTo, State.retireOnOperand, State.retire_eq, low12, ← and_amask]
  rfl

/-- RETN loads PC with MBR, both buses reading the PC of before (entry 69). -/
theorem ends_retn (s : State) : Ends [69] s ((s.setReg .pc s.mbr).retire (s.reg .pc) (s.reg .pc) s.mbr s.mbr 0) := by
  refine Ends.of_settled (op := fun s => (s.setReg .pc s.mbr).retire (s.reg .pc) (s.reg .pc) s.mbr s.mbr 0)
    (fun s => ?_) s
  rw [State.retire_eq]
  rfl

/-- SWAP's last move (entry 72). -/
theorem ends_loadA (s : State) :
    let t := s.setReg .sp (s.reg .a)
    Ends [72] s (t.retire (t.reg .a) (t.reg .pc) (t.reg .a) (t.reg .sp) 0) := by
  refine Ends.of_settled (op := fun s => let t := s.setReg .sp (s.reg .a)
    t.retire (t.reg .a) (t.reg .pc) (t.reg .a) (t.reg .sp) 0) (fun s => ?_) s
  rw [State.retire_eq]
  rfl

theorem ends_adjustSp (s : State) : Ends [75] s (s.adjustSp 0) := by
  refine Ends.of_settled (op := (State.adjustSp · 0)) (fun s => ?_) s
  rw [State.adjustSp, State.retire_eq, ← to16_toInt_add]
  rfl

/-! ### Every macro-instruction is its path -/

/-- The end part counts the time of its `n` microinstructions (R299). -/
theorem State.retire_eq_bump (s : State) (la lb mux f : Word) (n : Nat) :
    s.retire la lb mux f n = (s.retire la lb mux f 0).bump (4 * n) := rfl

/-- The closed meaning of the instruction is the effects of its listed path, and the time they take. -/
def Simulated (i : Instr) (s : State) : Prop :=
  exec i s = .next ((s.runEntries (listedPath i (s.reg .ac))).bump (4 * (listedPath i (s.reg .ac)).length))

theorem simulated_of_ends {i : Instr} {s u : State} {path : List Nat} (hs : s.Idle) (h : Ends path s u)
    (hpath : listedPath i (s.reg .ac) = path) (hexec : exec i s = .next (u.bump (4 * path.length))) :
    Simulated i s := by
  obtain ⟨-, rfl⟩ := h hs
  rw [Simulated, hpath, hexec]

section
variable {s : State}

theorem simulated_lodd (h : s.Idle) : Simulated (.lodd (low12 s.fetchWord)) s :=
  simulated_of_ends h (((reaches_fetchDecode 3 [4] [5] s).trans (reaches_readIr 6 7 _)).ends (ends_loadAc 8 _)) rfl rfl

theorem simulated_stod (h : s.Idle) : Simulated (.stod (low12 s.fetchWord)) s :=
  simulated_of_ends h ((reaches_fetchDecode 3 [4] [5] s).ends (ends_storeAc 9 .ir _)) rfl rfl

theorem simulated_addd (h : s.Idle) : Simulated (.addd (low12 s.fetchWord)) s :=
  simulated_of_ends h (((reaches_fetchDecode 3 [4] [11] s).trans (reaches_readIr 12 13 _)).ends (ends_addTail _)) rfl
    rfl

theorem simulated_subd (h : s.Idle) : Simulated (.subd (low12 s.fetchWord)) s :=
  simulated_of_ends h ((reaches_fetchDecode 3 [4] [11] s).ends (ends_subTail 15 .ir _)) rfl rfl

theorem simulated_jump (h : s.Idle) : Simulated (.jump (low12 s.fetchWord)) s :=
  simulated_of_ends h ((reaches_fetchDecode 3 [19] [25] s).ends (ends_jump 26 _)) rfl rfl

theorem simulated_loco (h : s.Idle) : Simulated (.loco (low12 s.fetchWord)) s :=
  simulated_of_ends h ((reaches_fetchDecode 3 [19] [25] s).ends (ends_loco _)) rfl rfl

theorem simulated_jpos (h : s.Idle) : Simulated (.jpos (low12 s.fetchWord)) s := by
  by_cases hac : (s.reg .ac).toInt < 0
  · exact simulated_of_ends h ((reaches_fetchDecode 3 [19] [20] s).ends (ends_passAc 21 _)) (if_pos hac)
      (if_neg (Int.not_le.2 hac))
  · exact simulated_of_ends h ((reaches_fetchDecode 3 [19] [20, 21] s).ends (ends_jump 22 _)) (if_neg hac)
      (if_pos (Int.not_lt.1 hac))

theorem simulated_jzer (h : s.Idle) : Simulated (.jzer (low12 s.fetchWord)) s := by
  by_cases hac : s.reg .ac = 0x0000#16
  · exact simulated_of_ends h ((reaches_fetchDecode 3 [19] [20, 23] s).ends (ends_jump 22 _)) (if_pos hac) (if_pos hac)
  · exact simulated_of_ends h ((reaches_fetchDecode 3 [19] [20, 23] s).ends (ends_passPc 24 _)) (if_neg hac)
      (if_neg hac)

theorem simulated_jneg (h : s.Idle) : Simulated (.jneg (low12 s.fetchWord)) s := by
  by_cases hac : (s.reg .ac).toInt < 0
  · exact simulated_of_ends h ((reaches_fetchDecode 28 [40] [41, 42] s).ends (ends_jump 22 _)) (if_pos hac)
      (if_pos hac)
  · exact simulated_of_ends h ((reaches_fetchDecode 28 [40] [41, 42] s).ends (ends_passPc 43 _)) (if_neg hac)
      (if_neg hac)

theorem simulated_jnze (h : s.Idle) : Simulated (.jnze (low12 s.fetchWord)) s := by
  by_cases hac : s.reg .ac = 0x0000#16
  · exact simulated_of_ends h ((reaches_fetchDecode 28 [40] [41] s).ends (ends_passAc 44 _)) (if_pos hac)
      (if_neg (not_not_intro hac))
  · exact simulated_of_ends h ((reaches_fetchDecode 28 [40] [41, 44] s).ends (ends_jump 45 _)) (if_neg hac)
      (if_pos hac)

/-- The microprogram takes the local address from the sum with the whole word (R94). -/
theorem localAddr_fetchDecode (s : State) (k : Nat) :
    (s.fetchDecode k).localAddr (low12 s.fetchWord) = low12 ((s.fetchDecode k).localSum.reg .a) :=
  (low12_add_operand s.fetchWord (s.reg .sp)).symm

theorem simulated_lodl (h : s.Idle) : Simulated (.lodl (low12 s.fetchWord)) s := by
  refine simulated_of_ends h ((((reaches_fetchDecode 28 [29] [30] s).trans (reaches_localSum 31 _)).trans
    (reaches_readA 32 7 _)).ends (ends_loadAc 8 _)) rfl ?_
  rw [exec, execLodl, localAddr_fetchDecode]
  rfl

theorem simulated_stol (h : s.Idle) : Simulated (.stol (low12 s.fetchWord)) s := by
  refine simulated_of_ends h (((reaches_fetchDecode 28 [29] [30] s).trans (reaches_localSum 33 _)).ends
    (ends_storeAc 34 .a _)) rfl ?_
  rw [exec, execStol, localAddr_fetchDecode]
  rfl

theorem simulated_addl (h : s.Idle) : Simulated (.addl (low12 s.fetchWord)) s := by
  refine simulated_of_ends h ((((reaches_fetchDecode 28 [29] [35] s).trans (reaches_localSum 36 _)).trans
    (reaches_readA 37 13 _)).ends (ends_addTail _)) rfl ?_
  rw [exec, execAddl, localAddr_fetchDecode]
  rfl

theorem simulated_subl (h : s.Idle) : Simulated (.subl (low12 s.fetchWord)) s := by
  refine simulated_of_ends h (((reaches_fetchDecode 28 [29] [35] s).trans (reaches_localSum 38 _)).ends
    (ends_subTail 39 .a _)) rfl ?_
  rw [exec, execSubl, localAddr_fetchDecode]
  rfl

theorem simulated_call (h : s.Idle) : Simulated (.call (low12 s.fetchWord)) s :=
  simulated_of_ends h (((reaches_fetchDecode 28 [40, 46] [] s).trans (reaches_lowerSp 47 _)).ends (ends_call _)) rfl rfl

theorem simulated_pshi (h : s.Idle) : Simulated .pshi s :=
  simulated_of_ends h (((reaches_fetchDecode 28 [40, 46, 50, 51] [52] s).trans (reaches_readAc _)).ends
    (ends_storeMbr 55 .sp _)) rfl rfl

theorem simulated_popi (h : s.Idle) : Simulated .popi s :=
  simulated_of_ends h (((reaches_fetchDecode 28 [40, 46, 50, 51] [52] s).trans (reaches_readStack 56 57 _)).ends
    (ends_storeMbr 58 .ac _)) rfl rfl

theorem simulated_push (h : s.Idle) : Simulated .push s :=
  simulated_of_ends h (((reaches_fetchDecode 28 [40, 46, 50, 51] [59] s).trans (reaches_lowerSp 60 _)).ends
    (ends_storeAc 61 .sp _)) rfl rfl

theorem simulated_pop (h : s.Idle) : Simulated .pop s :=
  simulated_of_ends h (((reaches_fetchDecode 28 [40, 46, 50, 51] [59] s).trans (reaches_readStack 62 63 _)).ends
    (ends_loadAc 64 _)) rfl rfl

theorem simulated_retn (h : s.Idle) : Simulated .retn s :=
  simulated_of_ends h (((reaches_fetchDecode 28 [40, 46, 50, 65] [66] s).trans (reaches_readStack 67 68 _)).ends
    (ends_retn _)) rfl rfl

theorem simulated_swap (h : s.Idle) : Simulated .swap s :=
  simulated_of_ends h ((((reaches_fetchDecode 28 [40, 46, 50, 65] [66] s).trans (reaches_saveAc _)).trans
    (reaches_loadSp _)).ends (ends_loadA _)) rfl (congrArg Host.Outcome.next (State.retire_eq_bump ..))

theorem simulated_insp (h : s.Idle) : Simulated (.insp (s.fetchWord.extractLsb' 0 8)) s :=
  simulated_of_ends h (((reaches_fetchDecode 28 [40, 46, 50, 65] [73] s).trans (reaches_constant _)).ends
    (ends_adjustSp _)) rfl rfl

theorem simulated_desp (h : s.Idle) : Simulated (.desp (s.fetchWord.extractLsb' 0 8)) s :=
  simulated_of_ends h (((reaches_fetchDecode 28 [40, 46, 50, 65] [73] s).trans (reaches_negatedConstant _)).ends
    (ends_adjustSp _)) rfl rfl

/-- Whichever of R95's routines the fetched word selects. -/
theorem simulated_nextInstr (h : s.Idle) : Simulated s.nextInstr s := by
  obtain ⟨hformatA, hrest⟩ := everyWordSelectsOneRoutine s.fetchWord
  rw [State.nextInstr]
  by_cases hop : s.fetchWord.toNat / 4096 < 15
  · have hselects := hformatA hop
    generalize s.fetchWord.toNat / 4096 = op at hop hselects
    interval_cases op <;> rw [Option.some.inj hselects]
    · exact simulated_lodd h
    · exact simulated_stod h
    · exact simulated_addd h
    · exact simulated_subd h
    · exact simulated_jpos h
    · exact simulated_jzer h
    · exact simulated_jump h
    · exact simulated_loco h
    · exact simulated_lodl h
    · exact simulated_stol h
    · exact simulated_addl h
    · exact simulated_subl h
    · exact simulated_jneg h
    · exact simulated_jnze h
    · exact simulated_call h
  · have hlt := s.fetchWord.isLt
    have hselects := hrest (by omega)
    have hsub : s.fetchWord.toNat / 512 % 8 < 8 := Nat.mod_lt _ (by decide)
    generalize s.fetchWord.toNat / 512 % 8 = sub at hsub hselects
    interval_cases sub <;> rw [Option.some.inj hselects]
    · exact simulated_pshi h
    · exact simulated_popi h
    · exact simulated_push h
    · exact simulated_pop h
    · exact simulated_retn h
    · exact simulated_swap h
    · exact simulated_insp h
    · exact simulated_desp h

end

/-- Settles O41: the microprogram is the effects of the listed path, and these are the closed meaning. -/
theorem macroMeaningIsItsMicroprogram : Obligations.MacroMeaningIsItsMicroprogram := by
  intro s hs n hn
  obtain ⟨-, -, -, -, hrdc, hwrc, hconst, -⟩ := State.macroReady_iff.1 hs
  rw [runMicroprogram_of_macroReady hs hn]
  exact simulated_nextInstr ⟨hrdc, hwrc, hconst⟩

end Sys2Proof.Machine
/-! Proofs of the family other: what a macro-instruction's results depend on (R23, R40). -/

namespace Sys2Proof.Machine

/-- The registers that no macro-instruction reads or writes (R23). -/
def hiddenRegs : List Reg := [.b, .c, .d, .e, .f]

/-- The file `r` with the hidden registers of `h`. -/
def RegFile.withHidden (r h : RegFile) : RegFile := { r with b := h.b, c := h.c, d := h.d, e := h.e, f := h.f }

/-- The state `h` with the memory and the registers 0 to 10 of `s`. -/
def State.withHidden (s h : State) : State := { h with mem := s.mem, regs := s.regs.withHidden h.regs }

theorem RegFile.get_withHidden (r h : RegFile) {i : Reg} (hi : i ∉ hiddenRegs) : (r.withHidden h).get i = r.get i := by
  cases i with
  | b | c | d | e | f => exact absurd (by decide) hi
  | _ => rfl

theorem RegFile.get_withHidden_hidden (r h : RegFile) {i : Reg} (hi : i ∈ hiddenRegs) :
    (r.withHidden h).get i = h.get i := by
  cases i with
  | b | c | d | e | f => rfl
  | _ => exact absurd hi (by decide)

/-- A state that agrees on memory and registers 0 to 10 is `s` with its own hidden part. -/
theorem State.withHidden_eq {s s' : State} (hmem : s.mem = s'.mem)
    (hregs : ∀ r : Reg, r ∉ hiddenRegs → s.reg r = s'.reg r) : s.withHidden s' = s' := by
  have hfile : s.regs.withHidden s'.regs = s'.regs := RegFile.ext_get fun i => by
    by_cases hi : i ∈ hiddenRegs
    · exact RegFile.get_withHidden_hidden _ _ hi
    · exact (RegFile.get_withHidden _ _ hi).trans (hregs i hi)
  rw [State.withHidden, hmem, hfile]

/-- The results of a macro-instruction are the same in both states, and so is what it leaves of the hidden part. -/
structure SameResults (t t' : State) : Prop where
  mem : t.mem = t'.mem
  flagN : t.flagN = t'.flagN
  flagZ : t.flagZ = t'.flagZ
  regs : t'.regs = t.regs.withHidden t'.regs

theorem SameResults.reg {t t' : State} (h : SameResults t t') {r : Reg} (hr : r ∉ hiddenRegs) :
    t.reg r = t'.reg r := by
  rw [State.reg, State.reg, h.regs, RegFile.get_withHidden _ _ hr]

/-- Inside a macro-instruction, once it has fetched: the state `h` with the memory, the registers 0 to 10 and the last
access of `s`. -/
def State.carriedIn (s h : State) : State :=
  { s.withHidden h with mar := s.mar, maddr := s.maddr, mbr := s.mbr }

/-- The fetch overwrites MAR, MADDR and MBR. -/
@[simp] theorem State.fetchDecode_withHidden (s h : State) (k : Nat) :
    (s.withHidden h).fetchDecode k = (s.fetchDecode k).carriedIn h := rfl

@[simp] theorem State.carriedIn_reads (s h : State) :
    (s.carriedIn h).mbr = s.mbr ∧ (s.carriedIn h).stackAddr = s.stackAddr ∧
      (∀ x, (s.carriedIn h).localAddr x = s.localAddr x) ∧ (∀ p, (s.carriedIn h).word p = s.word p) :=
  ⟨rfl, rfl, fun _ => rfl, fun _ => rfl⟩

@[simp] theorem State.reg_carriedIn (s h : State) {r : Reg} (hr : r ∉ hiddenRegs) : (s.carriedIn h).reg r = s.reg r :=
  RegFile.get_withHidden _ _ hr

@[simp] theorem State.setReg_carriedIn (s h : State) {r : Reg} (hr : r ∉ hiddenRegs) (v : Word) :
    (s.carriedIn h).setReg r v = (s.setReg r v).carriedIn h := by
  cases r with
  | b | c | d | e | f => exact absurd (by decide) hr
  | _ => rfl

@[simp] theorem State.dataRead_carriedIn (s h : State) (p : Addr) :
    (s.carriedIn h).dataRead p = (s.dataRead p).carriedIn h := rfl

@[simp] theorem State.dataWrite_carriedIn (s h : State) (p : Addr) (v : Word) :
    (s.carriedIn h).dataWrite p v = (s.dataWrite p v).carriedIn h := rfl

/-- The end part writes the same flags. -/
@[simp] theorem sameResults_retire (s h : State) (la lb mux f : Word) (n : Nat) :
    SameResults (s.retire la lb mux f n) ((s.carriedIn h).retire la lb mux f n) := ⟨rfl, rfl, rfl, rfl⟩

/-- The outcomes are next states with the same results. -/
def SameOutcome (o o' : Host.Outcome State Fault Refusal) : Prop :=
  ∃ t t', o = .next t ∧ o' = .next t' ∧ SameResults t t'

@[simp] theorem sameOutcome_next (t t' : State) : SameOutcome (.next t) (.next t') ↔ SameResults t t' := by
  simp [SameOutcome]

theorem sameOutcome_ite {p : Prop} [Decidable p] {o o' q q' : Host.Outcome State Fault Refusal}
    (ho : SameOutcome o o') (hq : SameOutcome q q') :
    SameOutcome (if p then o else q) (if p then o' else q') := by
  split
  · exact ho
  · exact hq

/-- No macro-instruction reads the hidden part. -/
theorem exec_withHidden {i : Instr} (hi : i.isMacroLevel = true) (s h : State) :
    SameOutcome (exec i s) (exec i (s.withHidden h)) := by
  cases i
  case jpos | jzer | jneg | jnze =>
    refine sameOutcome_ite ?_ ?_ <;>
      simp (disch := decide) [State.jumpTo, State.retireOnOperand, State.retireOnPc]
  case lodd | stod | addd | subd | loco =>
    simp (disch := decide) [exec, execLodd, execStod, execAddd, execSubd, execLoco, State.retireOnMbr,
      State.retireOnPc, State.retireOnOperand, State.addTail, State.subTail]
  case lodl | stol | addl | subl =>
    simp (disch := decide) [exec, execLodl, execStol, execAddl, execSubl, State.localSum, State.retireOnMbr,
      State.retireOnPc, State.addTail, State.subTail]
  case jump | call | halt | retn =>
    simp (disch := decide) [exec, execJump, execCall, execHalt, execRetn, State.jumpTo, State.retireOnOperand]
  case pshi | popi | push | pop | swap | insp | desp =>
    simp (disch := decide) [exec, execPshi, execPopi, execPush, execPop, execSwap, execInsp, execDesp,
      State.adjustSp, State.retireOnMbr, State.retireOnPc]
  all_goals cases hi

/-- No macro-instruction writes a hidden register (R23). -/
theorem writtenRegs_disjoint_hidden {i : Instr} : ∀ r ∈ hiddenRegs, r ∉ Reg.pc :: .ir :: .tir :: writtenRegs i := by
  cases i <;> simp [hiddenRegs, writtenRegs]

theorem exec_macro_hidden {i : Instr} (hi : i.isMacroLevel = true) {s t : State} (h : exec i s = .next t) :
    ∀ r ∈ hiddenRegs, t.reg r = s.reg r := by
  obtain ⟨k, n, u, hu, ⟨-, -, hregs, -⟩, -⟩ := exec_macro_frame hi s
  obtain rfl := Host.Outcome.next.inj (h.symm.trans hu)
  exact fun r hr => hregs r (writtenRegs_disjoint_hidden r hr)

/-- Settles O43: the other state is this one with its own hidden part, so both fetch the same instruction, which neither
reads nor writes that part. -/
theorem macroResultsIgnoreHiddenState : Obligations.MacroResultsIgnoreHiddenState := by
  intro s s' hs hs' hmem hregs
  have hi := decodeMacro_isMacroLevel s.fetchWord
  obtain ⟨t, t', ht, ht', same⟩ := exec_withHidden hi s s'
  have hrun : runMacro s = .next t := (if_pos hs).trans ht
  have hrun' : runMacro s' = .next t' := by
    rw [runMacro, if_pos hs', ← State.withHidden_eq hmem hregs]
    exact ht'
  rw [State.withHidden_eq hmem hregs] at ht'
  exact ⟨t, t', hrun, hrun', same.mem, same.flagN, same.flagZ, fun r => same.reg,
    fun r hr => ⟨exec_macro_hidden hi ht r hr, exec_macro_hidden hi ht' r hr⟩⟩

end Sys2Proof.Machine

/-! Proofs of the family other: accesses across microinstructions, under any control store (R71 to R73), and the
canonical memories. -/

namespace Sys2Proof.Machine

/-- A microinstruction that does not fault is its closed form, whatever the control store holds (R182). -/
theorem microstep_eq_afterMicro {s t : State} {f : MicroFields} (hs : s.fault = none) (hp : s.phase = .phase1)
    (hw : s.microWord.map decodeMicro = some f) (h : microstep s = .next t) (ht : t.fault = none) :
    t = s.afterMicro f := by
  obtain ⟨w, hword, rfl⟩ := Option.map_eq_some_iff.1 hw
  have hmpc : s.mpc.toNat < 79 := by
    by_contra hle
    rw [State.microWord_of_le (Nat.not_lt.1 hle)] at hword
    cases hword
  have hcs : s.cs[s.mpc.toNat]? = some w := (if_pos hmpc).symm.trans hword
  obtain ⟨-, hclosed⟩ := microstepIsItsClosedForm s hs hp
  obtain ⟨hreserved, hgoes, hfaults⟩ := hclosed w hmpc hcs
  by_cases hsh : (decodeMicro w).sh = .reserved
  · obtain rfl := Host.Outcome.next.inj (h.symm.trans (hreserved hsh))
    cases ht
  · rcases Nat.lt_or_ge _ 79 with hnext | hnext
    · exact Host.Outcome.next.inj (h.symm.trans (hgoes hsh hnext))
    · obtain rfl := Host.Outcome.next.inj (h.symm.trans (hfaults hsh hnext))
      cases ht

section
variable {f : MicroFields} {s : State}

theorem State.afterMicro_wrc (f : MicroFields) (s : State) :
    (s.afterMicro f).wrc = if 2 ≤ s.wrc + f.wr.toNat then 0 else s.wrc + f.wr.toNat := rfl

/-- A write that completes stores MBR as step 1a left it, at MADDR (R68). -/
theorem State.afterMicro_mem_written (h : 2 ≤ s.wrc + f.wr.toNat) :
    (s.afterMicro f).mem = s.mem.write s.maddr (s.microMbr f) := if_pos h

/-- A requesting microinstruction presents MAR (R64). -/
theorem State.afterMicro_maddr_presented (h : f.rd = true ∨ f.wr = true) :
    (s.afterMicro f).maddr = (s.afterMicro f).mar := if_pos h

theorem State.afterMicro_maddr_kept (hrd : f.rd = false) (hwr : f.wr = false) :
    (s.afterMicro f).maddr = s.maddr := by
  simp [State.afterMicro, commitEffect, requestEffect, hrd, hwr]

theorem State.afterMicro_mbr_latched (h : f.mbr = true) : (s.afterMicro f).mbr = (s.afterMicro f).shout := if_pos h

theorem State.afterMicro_ain_mbr (h : f.amux = .mbr) : (s.afterMicro f).ain = s.microMbr f := if_pos h

/-- A read that completes finds the word at MADDR (R67). -/
theorem State.microMbr_read (h : 2 ≤ s.rdc + f.rd.toNat) : s.microMbr f = s.word s.maddr := if_pos h

theorem State.microMbr_kept (h : s.rdc + f.rd.toNat < 2) : s.microMbr f = s.mbr := if_neg (Nat.not_le.2 h)

end

/-- Settles O30: the first request is counted, and the second completes. -/
theorem pairedReadCompletesInTheSecond : Obligations.PairedReadCompletesInTheSecond := by
  intro s t u f g hs hp hrdc hf hfrd hst ht hg hgrd htu hu
  obtain rfl := microstep_eq_afterMicro hs hp hf hst ht
  obtain rfl := microstep_eq_afterMicro ht rfl hg htu hu
  have hone : (s.afterMicro f).rdc = 1 := by rw [State.afterMicro_rdc, hrdc, hfrd]; rfl
  have hfirst : s.rdc + f.rd.toNat < 2 := by rw [hrdc, hfrd]; decide
  have hsecond : 2 ≤ (s.afterMicro f).rdc + g.rd.toNat := by rw [hone, hgrd]; decide
  refine ⟨hone, State.afterMicro_maddr_presented (.inl hfrd), fun hmbr => ?_, ?_,
    State.afterMicro_maddr_presented (.inl hgrd), fun hmbr => ?_, fun hamux => ?_⟩
  · rw [State.afterMicro_mbr hmbr, State.microMbr_kept hfirst]
  · rw [State.afterMicro_rdc, if_pos hsecond]
  · rw [State.afterMicro_mbr hmbr, State.microMbr_read hsecond]
  · rw [State.afterMicro_ain_mbr hamux, State.microMbr_read hsecond]

/-- Settles O31: the first request is counted, and the second completes with the MBR that it finds. -/
theorem pairedWriteCompletesInTheSecond : Obligations.PairedWriteCompletesInTheSecond := by
  intro s t u f g hs hp hwrc hwf hf hfwr hst ht hg hgwr htu hu
  obtain rfl := microstep_eq_afterMicro hs hp hf hst ht
  obtain rfl := microstep_eq_afterMicro ht rfl hg htu hu
  have hone : (s.afterMicro f).wrc = 1 := by rw [State.afterMicro_wrc, hwrc, hfwr]; rfl
  have hmem : (s.afterMicro f).mem = s.mem := State.afterMicro_mem (by rw [hwrc, hfwr]; decide)
  have hsecond : 2 ≤ (s.afterMicro f).wrc + g.wr.toNat := by rw [hone, hgwr]; decide
  have hwritten := State.afterMicro_mem_written hsecond
  refine ⟨hone, State.afterMicro_maddr_presented (.inr hfwr), fun p => by rw [State.word, hmem, State.word],
    State.afterMicro_mbr_latched, ?_, fun p hne => ?_, fun hread => ?_⟩
  · rw [State.afterMicro_wrc, if_pos hsecond]
  · rw [State.word, hwritten, Mem.read_write_ne _ hne, State.word]
  · have hnone : (s.afterMicro f).rdc + g.rd.toNat < 2 := by
      have hle := Bool.toNat_le g.rd
      rcases hread with hzero | ⟨hrd, hle1⟩
      · omega
      · rw [hrd]
        exact Nat.lt_succ_of_le hle1
    rw [State.word, hwritten, Mem.read_write_same _ _ (hmem ▸ hwf), State.microMbr_kept hnone]

/-- Settles O32: each counter moves by its own bit alone. -/
theorem loneRequestsStayPending : Obligations.LoneRequestsStayPending := by
  intro s t f hs hp hf hst ht
  obtain rfl := microstep_eq_afterMicro hs hp hf hst ht
  refine ⟨fun hrdc hrd => ?_, fun hwrc hwr => ⟨?_, ?_⟩, fun hrdc hrd => ⟨?_, fun hmbr => ?_⟩,
    State.afterMicro_maddr_kept⟩
  · rw [State.afterMicro_rdc, hrdc, hrd]
    rfl
  · rw [State.afterMicro_wrc, hwrc, hwr]
    rfl
  · exact State.afterMicro_mem (by rw [hwrc, hwr]; decide)
  · rw [State.afterMicro_rdc, hrdc, hrd]
    rfl
  · rw [State.afterMicro_mbr hmbr, State.microMbr_read (by rw [hrdc, hrd]; decide)]

/-- Settles O40: a canonical memory is one that is canonical from address 0 on. -/
theorem canonicalMemoriesAreTheirReads : Obligations.CanonicalMemoriesAreTheirReads :=
  fun _ _ => Mem.ext_from

/-! ### A step runs the decoded instruction -/

theorem step_of_healthy {s : State} (hs : s.fault = none) : step s = advance s := by rw [step, hs]

theorem advance_runMacro {s : State} (hr : s.request = .runMacro) : advance s = runMacro s := by rw [advance, hr]

theorem advance_microstep {s : State} (hr : s.request = .microstep) : advance s = microstep s := by rw [advance, hr]

theorem advance_subcycle {s : State} (hr : s.request = .subcycle) : advance s = subcycle s := by rw [advance, hr]

theorem runMacro_of_macroReady {s : State} (h : s.macroReady = true) : runMacro s = exec s.nextInstr s := if_pos h

theorem runMacro_of_not_macroReady {s : State} (h : s.macroReady = false) :
    runMacro s = runMicroprogram runBound s := if_neg (by rw [h]; decide)

/-- Settles O5: a step is the operation requested, and a run that ends at all ends within the model's bound. -/
theorem stepRunsTheDecodedInstruction : Obligations.StepRunsTheDecodedInstruction := by
  refine fun s => ⟨fun r hr => by rw [step, hr], fun hs => ?_⟩
  rw [step_of_healthy hs]
  refine ⟨fun hreq hready => ?_, fun hreq hready => ?_, fun hreq hready hc n t hrun hend => ?_, fun hreq hp => ?_,
    advance_subcycle⟩
  · rw [advance_runMacro hreq, runMacro_of_macroReady hready]
    rfl
  · rw [advance_runMacro hreq, runMacro_of_not_macroReady hready]
  · rw [advance_runMacro hreq, runMacro_of_not_macroReady hready]
    have hended : t.macroEnded = true :=
      hend.elim State.macroEnded_of_atBoundary State.macroEnded_of_faulted
    exact runMicroprogram_runBound_exact hc hs (Nat.succ_pos n) hrun hended
  · rw [advance_microstep hreq, microstep_of_phase1 hp]

theorem runRows_singleton (i : Instr) (s : State) : runRows [i] s = exec i s := by
  rw [runRows_cons]
  cases exec i s <;> rfl

theorem andThen_assoc (o : Host.Outcome State Fault Refusal) (f g : State → Host.Outcome State Fault Refusal) :
    andThen (andThen o f) g = andThen o fun s => andThen (f s) g := by
  cases o <;> rfl

/-- Settles O6: each phase is its rows, and the subcycle ends after it. -/
theorem stagedSubcyclesRunTheirTableRows : Obligations.StagedSubcyclesRunTheirTableRows := by
  intro s f hs hm
  rw [subcycle_of_healthy hs]
  refine ⟨fun hp => ?_, fun hp => ?_, fun hp => ?_⟩
  · rw [runPhase_of_phase2 hp hm, phase2]
  · rw [runPhase_of_phase3 hp hm, phase3, runRows_singleton]
    simp only [andThen_assoc, andThen_next]
  · rw [runPhase_of_phase4 hp hm, phase4, runRows_singleton]
    simp only [andThen_assoc, andThen_next]

/-! ### The word stored at the fetch position (log entry 12) -/

/-- A word stored at the fetch position of a state with its constants is fetched next, where R299 begins. -/
theorem placeMacroWord_ready {s : State} (hm : s.mem.wf = true) (hconst : s.constantsIntact = true) (w : Word) :
    (s.placeMacroWord w).macroReady = true ∧ (s.placeMacroWord w).fetchWord = w :=
  ⟨State.macroReady_iff.2 ⟨rfl, rfl, rfl, rfl, rfl, rfl, hconst, rfl⟩, Mem.read_write_same _ _ hm⟩

theorem step_placeMacroWord {s : State} (hm : s.mem.wf = true) (hconst : s.constantsIntact = true) (w : Word) :
    step (s.placeMacroWord w) = exec (decodeMacro w) (s.placeMacroWord w) := by
  obtain ⟨hready, hfetch⟩ := placeMacroWord_ready hm hconst w
  rw [step_of_healthy rfl, advance_runMacro rfl, runMacro_of_macroReady hready, State.nextInstr, hfetch]

/-- The harness stores a microinstruction at an entry of a store of 79 words, where MPC is left. -/
theorem microWord_placeMicroWord (s : State) (w : MicroWord) : (s.placeMicroWord w).microWord = some w := by
  have hmpc : (s.placeMicroWord w).mpc.toNat < 79 := by
    simp only [State.placeMicroWord]
    split
    · assumption
    · decide
  have hlen : (if s.cs.length = Config.csSize then s.cs else decidedStore).length = 79 := by
    split
    · assumption
    · rfl
  exact State.microWord_of_lt hmpc (List.getElem?_set_self (hlen.symm ▸ hmpc))

theorem step_placeMicroWord (s : State) (w : MicroWord) :
    step (s.placeMicroWord w) = subcycles 4 (s.placeMicroWord w) := by
  rw [step_of_healthy rfl, advance_microstep rfl, microstep_of_phase1 rfl]

/-- Settles O7: the harness stores the word where the fetch of its level reads, and requests that level's operation. -/
theorem storedWordIsTheNextToRun : Obligations.StoredWordIsTheNextToRun := fun s w =>
  ⟨fun hm hconst => step_placeMacroWord hm hconst (BitVec.ofNat 16 w),
    microWord_placeMicroWord s (BitVec.ofNat 32 w), step_placeMicroWord s (BitVec.ofNat 32 w)⟩

/-! ### Rows of one operation (R63, R97, R131, R142 to R144, R172) -/

theorem amuxSel_eq_mbr_iff : ∀ v : BitVec 1, AmuxSel.ofCode v = .mbr ↔ v.getLsbD 0 = true := by decide

/-- Settles O18: bit 31 is the selector's one bit. -/
theorem multiplexerRowsSelectTheInput : Obligations.MultiplexerRowsSelectTheInput := by
  refine ⟨fun w => ?_, fun s => ⟨rfl, rfl⟩⟩
  have hbit : (w.extractLsb' 31 1).getLsbD 0 = w.getLsbD 31 := by simp
  exact hbit ▸ amuxSel_eq_mbr_iff (w.extractLsb' 31 1)

/-- Settles O19: the writeback sets one register, whichever it is, and the latches one field. -/
theorem latchAndWritebackRowsWriteOnePlace : Obligations.LatchAndWritebackRowsWriteOnePlace := by
  intro s
  have hlow : low12 s.blat = BitVec.ofNat 12 (s.blat.toNat % 4096) :=
    BitVec.eq_of_toNat_eq (by rw [toNat_low12, BitVec.toNat_ofNat, Nat.mod_mod])
  refine ⟨hlow ▸ rfl, rfl, fun dst => ⟨s.setReg dst s.shout, rfl, ?_, fun r hr => ?_, rfl⟩⟩
  · rw [State.reg_setReg, if_pos rfl]
  · rw [State.reg_setReg, if_neg fun e => hr (List.mem_singleton.2 e.symm)]

/-- Settles O20: each row is the increment of its own counter. -/
theorem requestRowsRaiseTheirCounter : Obligations.RequestRowsRaiseTheirCounter := fun _ => ⟨rfl, rfl⟩

/-- Settles O17: the row raises the fault, which sets FAULT alone. -/
theorem reservedShiftRowFaults : Obligations.ReservedShiftRowFaults := fun _ => rfl

end Sys2Proof.Machine

/-! Proofs of the family other: the assembler (R104, R110 to R117) and the boot sequence (R463). -/

namespace Sys2Proof.Machine

/-! ### Operand ranges (R112, R113) -/

theorem requiredOperand_of_inRange {bound : Nat} {problem : AsmProblem} {operand : List Char} {v : Int}
    (hv : parseDecimal operand = some v) (h : 0 ≤ v ∧ v < bound) :
    requiredOperand bound problem [operand] = .ok v.toNat := by
  simp only [requiredOperand, hv, if_pos h]

theorem requiredOperand_of_outOfRange {bound : Nat} {problem : AsmProblem} {operand : List Char} {v : Int}
    (hv : parseDecimal operand = some v) (h : ¬ (0 ≤ v ∧ v < bound)) :
    requiredOperand bound problem [operand] = .error problem := by
  simp only [requiredOperand, hv, if_neg h]

/-- An operand that is not negative is the same bits as an integer. -/
theorem ofNat_toNat_eq_ofInt (w : Nat) {v : Int} (h : 0 ≤ v) : BitVec.ofNat w v.toNat = BitVec.ofInt w v := by
  obtain ⟨n, rfl⟩ := Int.eq_ofNat_of_zero_le h
  exact (BitVec.ofInt_natCast w n).symm

/-- Settles O59: the operand's range is that of its format, and an operand in range is its own bits. -/
theorem assemblerChecksOperandRanges : Obligations.AssemblerChecksOperandRanges := by
  intro token operand p v hv
  refine ⟨fun make hform => ⟨fun h => ?_, fun h => ?_⟩, fun make hform => ⟨fun h => ?_, fun h => ?_⟩⟩
  all_goals simp only [assembleTokens, hform]
  · rw [requiredOperand_of_inRange hv (by omega), ← ofNat_toNat_eq_ofInt 12 h.1]
    rfl
  · rw [requiredOperand_of_outOfRange hv (by omega)]
    rfl
  · rw [requiredOperand_of_inRange hv (by omega), ← ofNat_toNat_eq_ofInt 8 h.1]
    rfl
  · rw [requiredOperand_of_outOfRange hv (by omega)]
    rfl

/-! ### The instructions of accepted lines -/

/-- A macro-instruction that is written out in the source: not HALT, whose operand the assembler supplies. -/
def IsWritten (i : Instr) : Prop := i.isMacroLevel = true ∧ ∀ p, i ≠ .halt p

/-- Every instruction that the form can make is a written one. -/
def FormWritten : MnemonicForm → Prop
  | .formA make => ∀ x, IsWritten (make x)
  | .formS make => ∀ y, IsWritten (make y)
  | .formF i => IsWritten i
  | .formHalt => True

/-- The form that was found, if any, is a written one. -/
def FoundWritten (found : Option MnemonicForm) : Prop := ∀ form, found = some form → FormWritten form

/-- The decision is a plain argument, so that it is read off the match and not searched for. -/
theorem foundWritten_dite {c : Prop} {_ : Decidable c} {t : c → Option MnemonicForm}
    {e : ¬ c → Option MnemonicForm} (ht : ∀ h, FoundWritten (t h)) (he : ∀ h, FoundWritten (e h)) :
    FoundWritten (dite c t e) := by
  split
  · exact ht _
  · exact he _

/-- Each of the 24 spellings stands for a written form. The match is taken as the tests of one letter after another
that it compiles to: Lean's case split of 24 overlapping spellings is too large. -/
theorem foundWritten_mnemonicForm (token : List Char) : FoundWritten (mnemonicForm token) := by
  unfold mnemonicForm
  generalize token.map Char.toUpper = letters
  delta mnemonicForm.match_1
  rcases letters with _ | ⟨a, _ | ⟨b, _ | ⟨c, _ | ⟨d, _ | ⟨e, r⟩⟩⟩⟩⟩
  · exact nofun
  all_goals
    repeat'
      refine foundWritten_dite ?_ ?_ <;> intro h <;> try subst h
  all_goals
    intro form h
    cases h <;> simp [FormWritten, IsWritten, Instr.isMacroLevel]

/-- What an accepted line at position `p` assembles to (R111 to R115). -/
def AcceptedAt (p : Nat) (i : Instr) : Prop := i = .halt (BitVec.ofNat 12 p) ∨ IsWritten i

theorem map_eq_ok {ε α β : Type} {f : α → β} {x : Except ε α} {b : β} (h : x.map f = .ok b) :
    ∃ a, x = .ok a ∧ f a = b := by
  cases x with
  | error e => cases h
  | ok a => exact ⟨a, rfl, Except.ok.inj h⟩

theorem acceptedAt_of_assembleTokens {p : Nat} {line : List (List Char)} {i : Instr}
    (h : assembleTokens p line = .ok i) : AcceptedAt p i := by
  cases line with
  | nil => cases h
  | cons token rest =>
    rw [assembleTokens] at h
    cases hform : mnemonicForm token with
    | none => rw [hform] at h; cases h
    | some form =>
      have hwritten := foundWritten_mnemonicForm token form hform
      rw [hform] at h
      cases form with
      | formA make | formS make =>
        obtain ⟨v, -, rfl⟩ := map_eq_ok h
        exact .inr (hwritten _)
      | formF j =>
        obtain ⟨-, -, rfl⟩ := map_eq_ok h
        exact .inr hwritten
      | formHalt =>
        obtain ⟨-, -, rfl⟩ := map_eq_ok h
        exact .inl rfl

/-- The accepted lines from position `p` on end within memory, and each is accepted at its position (R110, R117). -/
theorem assembleFrom_accepted {lines : List (List Char)} {p : Nat} {program : List Instr}
    (hp : p ≤ Config.memWords) (h : assembleFrom p lines = .ok program) :
    p + program.length ≤ Config.memWords ∧ ∀ k i, program[k]? = some i → AcceptedAt (p + k) i := by
  induction lines generalizing p program with
  | nil =>
    obtain rfl := Except.ok.inj h
    exact ⟨hp, nofun⟩
  | cons line lines ih =>
    rw [assembleFrom] at h
    split at h
    · exact ih hp h
    · split at h
      · next hlt =>
        cases hi : assembleTokens p (tokens line) with
        | error problem => rw [hi] at h; cases h
        | ok i =>
          rw [hi] at h
          obtain ⟨rest, hrest, rfl⟩ := map_eq_ok h
          obtain ⟨hlen, haccepted⟩ := ih hlt hrest
          refine ⟨by rw [List.length_cons]; omega, fun k j hk => ?_⟩
          cases k with
          | zero =>
            obtain rfl := Option.some.inj hk
            exact acceptedAt_of_assembleTokens hi
          | succ k => exact (show p + 1 + k = p + (k + 1) by omega) ▸ haccepted k j hk
      · cases h

/-- A HALT position is the position of a HALT line (R115). -/
theorem mem_haltPositions {program : List Instr} {p q : Nat} (h : q ∈ haltPositions p program) :
    ∃ k x, q = p + k ∧ program[k]? = some (.halt x) := by
  induction program generalizing p with
  | nil => exact nomatch h
  | cons i rest ih =>
    have hlater (hq : q ∈ haltPositions (p + 1) rest) :
        ∃ k x, q = p + k ∧ (i :: rest)[k]? = some (.halt x) := by
      obtain ⟨k, x, rfl, hk⟩ := ih hq
      exact ⟨k + 1, x, by omega, hk⟩
    rw [haltPositions.eq_def] at h
    split at h
    · next heq => cases heq
    · next heq =>
      cases heq
      obtain rfl | hq := List.mem_cons.1 h
      · exact ⟨0, _, rfl, rfl⟩
      · exact hlater hq
    · next heq => cases heq; exact hlater h

/-! ### Assembled words (R104, R117) -/

theorem encode_macroPattern {i : Instr} (h : i.isMacroLevel = true) : encode i = .macroWord (macroPattern i) := by
  cases i with
  | lodd | stod | addd | subd | jpos | jzer | jump | loco | lodl | stol | addl | subl | jneg | jnze | call | halt => rfl
  | pshi | popi | push | pop | retn | swap | insp | desp => rfl
  | _ => cases h

/-- The word of an instruction is canonical: decoding it gives an instruction of the same word. -/
theorem isCanonicalWord_macroPattern {i : Instr} (h : i.isMacroLevel = true) :
    isCanonicalWord (macroPattern i) = true := by
  have hdecode := macroDecodeOfEncodeIsTheInstruction i h
  rw [encode_macroPattern h, decode] at hdecode
  rw [isCanonicalWord_iff_encode, hdecode, ← encode_macroPattern h]
  cases i <;> rfl

theorem AcceptedAt.isMacroLevel {p : Nat} {i : Instr} (h : AcceptedAt p i) : i.isMacroLevel = true := by
  obtain rfl | ⟨hmacro, -⟩ := h
  · rfl
  · exact hmacro

/-- Settles O58: every word comes from an accepted line, and a HALT line's word is the jump to its own position. -/
theorem assembledWordsAreCanonical : Obligations.AssembledWordsAreCanonical := by
  intro lines o ho
  obtain ⟨program, hprogram, rfl⟩ := map_eq_ok ho
  obtain ⟨hlen, haccepted⟩ := assembleFrom_accepted (Nat.zero_le _) hprogram
  simp only [Nat.zero_add] at hlen haccepted
  refine ⟨(List.length_map _).trans_le hlen, fun w hw => ?_, fun q hq => ?_⟩
  · obtain ⟨i, hi, rfl⟩ := List.mem_map.1 hw
    obtain ⟨k, hk⟩ := List.mem_iff_getElem?.1 hi
    exact isCanonicalWord_macroPattern (haccepted k i hk).isMacroLevel
  · obtain ⟨k, x, rfl, hk⟩ := mem_haltPositions hq
    obtain hx | ⟨-, hne⟩ := haccepted k _ hk
    · rw [Nat.zero_add, List.getElem?_map, hk, hx]
      rfl
    · exact absurd rfl (hne x)

/-! ### The boot sequence (R463) -/

/-- A word is what its own value loads. -/
theorem to16_toNat (w : Word) : to16 (w.toNat : Int) = w := by
  rw [to16, BitVec.ofInt_natCast, BitVec.ofNat_toNat, BitVec.setWidth_eq]

/-- A boot whose assembly succeeds loads the words into the empty memory that reset leaves. -/
theorem hostBoot_of_assemble_ok (spReset : Word) {lines : List (List Char)} {o : AsmOutput} (s : State)
    (h : assemble lines = .ok o) (hlen : o.words.length ≤ Config.memWords) :
    hostBoot spReset lines s =
      ({ hostReset spReset s with
          mem := Mem.loadFrom 0 (o.words.map fun w => (w.toNat : Int)) []
          nProg := o.words.length }, .ok o.haltAddrs) := by
  rw [hostBoot, h]
  simp only [hostLoad_of_fits _ ((List.length_map _).trans_le hlen), Option.getD_some, List.length_map]
  rfl

/-- Settles O4: the assembled words fit, and a word loaded by its value is that word. -/
theorem bootLoadsTheAssembledProgram : Obligations.BootLoadsTheAssembledProgram := by
  intro spReset lines s o ho
  obtain ⟨hlen, -, -⟩ := assembledWordsAreCanonical lines o ho
  refine ⟨_, hostBoot_of_assemble_ok spReset s ho hlen, fun p => ?_, rfl, rfl, rfl, rfl, rfl,
    Mem.wf_loadFrom _ 0 Mem.wf_nil⟩
  rw [List.getD_eq_getElem?_getD]
  refine (Mem.read_loadFrom Mem.wf_nil (by rwa [List.length_map, Nat.zero_add]) (Nat.zero_add _).symm).trans ?_
  rw [List.getElem?_map]
  cases o.words[p.toNat]? with
  | none => rfl
  | some w => exact to16_toNat w

end Sys2Proof.Machine
